-- ==== Sys2Proof/Word.lean ====
section
/-! DEFINITION. The widths of the machine: words, halfwords, bytes (00_scope R6) and register
fields (30_encoding R62). -/

namespace Sys2Proof

/-- "palabra": 32 bits, the width of a register and of an address (00_scope R6, R7). -/
abbrev Word := BitVec 32

/-- "media palabra": 16 bits, the width of an instruction halfword (00_scope R6). -/
abbrev Half := BitVec 16

/-- "byte": 8 bits, the addressable unit (00_scope R6, 20_memory R40). -/
abbrev Byte := BitVec 8

/-- A 3-bit register field: it names `r0`-`r7` by its unsigned value (30_encoding R62). -/
abbrev LoReg := BitVec 3

/-- A 4-bit register number: `r0`-`r15` (10_state R20). -/
abbrev Reg := BitVec 4

/-- `SP` is `r13` (10_state R20). -/
abbrev Reg.sp : Reg := 13#4

/-- `LR` is `r14` (10_state R20). -/
abbrev Reg.lr : Reg := 14#4

/-- `PC` is `r15` (10_state R20). -/
abbrev Reg.pc : Reg := 15#4

/-- The register number of a low register field. -/
def LoReg.reg (r : LoReg) : Reg := r.setWidth 4

/-- A low register: `r0`-`r7` (10_state R20). -/
def Reg.isLow (r : Reg) : Bool := r.toNat < 8

end Sys2Proof
end

