-- ==== Sys2Proof/Syntax.lean ====
section
/-! DEFINITION. The instructions: one constructor for each of the 60 rows of spec/opcode_table.json, its
operands the row's fields. Register fields are bit vectors of the field's width; an immediate is the
field as encoded (30_encoding R81 says what it stands for). -/

namespace Sys2Proof

/-- The 14 conditions of the `{cond}` table (47 R211, 30_encoding R98). Codes 1110 and 1111 are no
conditions of the card and cannot be written. -/
inductive Cond where
  | eq | ne | cs | cc | mi | pl | vs | vc | hi | ls | ge | lt | gt | le
deriving DecidableEq, Repr

/-- One constructor per row of the opcode table, in the table's order. -/
inductive Instr where
  /-- `mov Rd, Rm` (Lo a Lo), R101 -/
  | movLo (rd rm : LoReg)
  /-- `lsl Rd, Rm, #Shift`, R151 -/
  | lslImm (rd rm : LoReg) (imm5 : BitVec 5)
  /-- `lsr Rd, Rm, #Shift`, R153 -/
  | lsrImm (rd rm : LoReg) (imm5 : BitVec 5)
  /-- `asr Rd, Rm, #Shift`, R155 -/
  | asrImm (rd rm : LoReg) (imm5 : BitVec 5)
  /-- `add Rd, Rn, Rm` (Lo a Lo), R112 -/
  | addLo (rd rn rm : LoReg)
  /-- `sub Rd, Rn, Rm` (Lo a Lo), R118 -/
  | subLo (rd rn rm : LoReg)
  /-- `add Rd, Rn, #Inm3`, R110 -/
  | addImm3 (rd rn : LoReg) (imm3 : BitVec 3)
  /-- `sub Rd, Rn, #Inm3`, R116 -/
  | subImm3 (rd rn : LoReg) (imm3 : BitVec 3)
  /-- `mov Rd, #Inm8`, R100 -/
  | movImm (rd : LoReg) (imm8 : BitVec 8)
  /-- `cmp Rn, #Inm8`, R135 -/
  | cmpImm (rn : LoReg) (imm8 : BitVec 8)
  /-- `add Rd, Rd, #Inm8`, R111 -/
  | addImm8 (rd : LoReg) (imm8 : BitVec 8)
  /-- `sub Rd, Rd, #Inm8`, R117 -/
  | subImm8 (rd : LoReg) (imm8 : BitVec 8)
  /-- `and Rd, Rm`, R140 -/
  | andReg (rd rm : LoReg)
  /-- `eor Rd, Rm`, R143 -/
  | eorReg (rd rm : LoReg)
  /-- `lsl Rd, Rd, Rs`, R152 -/
  | lslReg (rd rs : LoReg)
  /-- `lsr Rd, Rd, Rs`, R154 -/
  | lsrReg (rd rs : LoReg)
  /-- `asr Rd, Rd, Rs`, R156 -/
  | asrReg (rd rs : LoReg)
  /-- `ror Rd, Rd, Rs`, R157 -/
  | rorReg (rd rs : LoReg)
  /-- `tst Rn, Rm`, R145 -/
  | tst (rn rm : LoReg)
  /-- `neg Rd, Rn`, R120 -/
  | neg (rd rn : LoReg)
  /-- `cmp Rn, Rm` (both low), R131 -/
  | cmpLo (rn rm : LoReg)
  /-- `cmn Rn, Rm`, R134 -/
  | cmn (rn rm : LoReg)
  /-- `orr Rd, Rm`, R142 -/
  | orrReg (rd rm : LoReg)
  /-- `mul Rd, Rm, Rd`, R130 -/
  | mul (rd rm : LoReg)
  /-- `bic Rd, Rm`, R141 -/
  | bicReg (rd rm : LoReg)
  /-- `mvn Rd, Rm`, R144 -/
  | mvnReg (rd rm : LoReg)
  /-- `add Rd, Rd, Rm` (with a high register), R113 -/
  | addHi (rd rm : Reg)
  /-- `cmp Rn, Rm` (at least one high), R133 -/
  | cmpHi (rn rm : Reg)
  /-- `mov Rd, Rm` (with a high register), R102 -/
  | movHi (rd rm : Reg)
  /-- `ldr Rd, [PC, #Inm]`, R179 -/
  | ldrPc (rd : LoReg) (imm8 : BitVec 8)
  /-- `str Rd, [Rn, Rm]`, R184 -/
  | strReg (rd rn rm : LoReg)
  /-- `strh Rd, [Rn, Rm]`, R185 -/
  | strhReg (rd rn rm : LoReg)
  /-- `strb Rd, [Rn, Rm]`, R186 -/
  | strbReg (rd rn rm : LoReg)
  /-- `ldrsb Rd, [Rn, Rm]`, R178 -/
  | ldrsbReg (rd rn rm : LoReg)
  /-- `ldr Rd, [Rn, Rm]`, R174 -/
  | ldrReg (rd rn rm : LoReg)
  /-- `ldrh Rd, [Rn, Rm]`, R175 -/
  | ldrhReg (rd rn rm : LoReg)
  /-- `ldrb Rd, [Rn, Rm]`, R177 -/
  | ldrbReg (rd rn rm : LoReg)
  /-- `ldrsh Rd, [Rn, Rm]`, R176 -/
  | ldrshReg (rd rn rm : LoReg)
  /-- `str Rd, [Rn, #Inm]`, R181 -/
  | strImm (rd rn : LoReg) (imm5 : BitVec 5)
  /-- `ldr Rd, [Rn, #Inm]`, R171 -/
  | ldrImm (rd rn : LoReg) (imm5 : BitVec 5)
  /-- `strb Rd, [Rn, #Inm]`, R183 -/
  | strbImm (rd rn : LoReg) (imm5 : BitVec 5)
  /-- `ldrb Rd, [Rn, #Inm]`, R173 -/
  | ldrbImm (rd rn : LoReg) (imm5 : BitVec 5)
  /-- `strh Rd, [Rn, #Inm]`, R182 -/
  | strhImm (rd rn : LoReg) (imm5 : BitVec 5)
  /-- `ldrh Rd, [Rn, #Inm]`, R172 -/
  | ldrhImm (rd rn : LoReg) (imm5 : BitVec 5)
  /-- `str Rd, [SP, #Inm]`, R187 -/
  | strSp (rd : LoReg) (imm8 : BitVec 8)
  /-- `ldr Rd, [SP, #Inm]`, R180 -/
  | ldrSp (rd : LoReg) (imm8 : BitVec 8)
  /-- `add Rd, SP, #Inm`, R115 -/
  | addRdSp (rd : LoReg) (imm8 : BitVec 8)
  /-- `add SP, SP, #Inm`, R114 -/
  | addSp (imm7 : BitVec 7)
  /-- `sub SP, SP, #Inm`, R119 -/
  | subSp (imm7 : BitVec 7)
  /-- `sxth Rd, Rm`, R230 -/
  | sxth (rd rm : LoReg)
  /-- `sxtb Rd, Rm`, R231 -/
  | sxtb (rd rm : LoReg)
  /-- `uxth Rd, Rm`, R232 -/
  | uxth (rd rm : LoReg)
  /-- `uxtb Rd, Rm`, R233 -/
  | uxtb (rd rm : LoReg)
  /-- `push <loreglist>`, R201 -/
  | push (rlist : BitVec 8)
  /-- `push <loreglist+LR>`, R202 -/
  | pushLr (rlist : BitVec 8)
  /-- `pop <loreglist>`, R203 -/
  | pop (rlist : BitVec 8)
  /-- `pop <loreglist+PC>`, R204 -/
  | popPc (rlist : BitVec 8)
  /-- `b{cond} <label>`, R212 -/
  | bCond (cond : Cond) (imm8 : BitVec 8)
  /-- `b <label>`, R213 -/
  | b (imm11 : BitVec 11)
  /-- `bl <label>`, R214 -/
  | bl (immhi immlo : BitVec 11)
deriving DecidableEq, Repr

end Sys2Proof
end

