-- ==== Sys2Proof/WellFormed.lean ====
section
/-! DEFINITION. Which instructions the opcode table has a word for: the `exclude` entries of its rows
(30_encoding R62, R92). Everything else about an operand is in its type. -/

namespace Sys2Proof

/-- At least one of the two registers is high: the high-register rows exclude the words with both low
(30_encoding R67, R92; 40 R102, 41 R113, 42 R133). -/
def oneHigh (r q : Reg) : Bool := !(r.isLow && q.isLow)

/-- A term of `Instr` that the opcode table has a word for. -/
def Instr.wellFormed : Instr → Bool
  | .addHi rd rm => oneHigh rd rm
  | .cmpHi rn rm => oneHigh rn rm
  | .movHi rd rm => oneHigh rd rm
  | .push rlist => rlist != 0#8
  | .pop rlist => rlist != 0#8
  | .movLo _ _ | .lslImm _ _ _ | .lsrImm _ _ _ | .asrImm _ _ _ => true
  | .addLo _ _ _ | .subLo _ _ _ | .addImm3 _ _ _ | .subImm3 _ _ _ => true
  | .movImm _ _ | .cmpImm _ _ | .addImm8 _ _ | .subImm8 _ _ => true
  | .andReg _ _ | .eorReg _ _ | .lslReg _ _ | .lsrReg _ _ | .asrReg _ _ | .rorReg _ _ => true
  | .tst _ _ | .neg _ _ | .cmpLo _ _ | .cmn _ _ => true
  | .orrReg _ _ | .mul _ _ | .bicReg _ _ | .mvnReg _ _ => true
  | .ldrPc _ _ | .strReg _ _ _ | .strhReg _ _ _ | .strbReg _ _ _ | .ldrsbReg _ _ _ => true
  | .ldrReg _ _ _ | .ldrhReg _ _ _ | .ldrbReg _ _ _ | .ldrshReg _ _ _ => true
  | .strImm _ _ _ | .ldrImm _ _ _ | .strbImm _ _ _ | .ldrbImm _ _ _ => true
  | .strhImm _ _ _ | .ldrhImm _ _ _ | .strSp _ _ | .ldrSp _ _ => true
  | .addRdSp _ _ | .addSp _ | .subSp _ => true
  | .sxth _ _ | .sxtb _ _ | .uxth _ _ | .uxtb _ _ => true
  | .pushLr _ | .popPc _ | .bCond _ _ | .b _ | .bl _ _ => true

end Sys2Proof
end

