-- ==== Sys2Proof/Decode.lean ====
section
/-! DEFINITION. The decoder, total on any bytes and refusing by name (30_encoding R61 to R79, R82, R92),
and after it the encoder, from the same tables. The whole binary layer is the spec's
`[from general knowledge, not in source]` (log 1). -/

namespace Sys2Proof

/-- Bits `lo + w - 1` down to `lo` of a halfword (00_scope R8). -/
abbrev slice (h : Half) (lo w : Nat) : BitVec w := h.extractLsb' lo w

/-- The 4-bit condition codes of 30_encoding R98; 1110 and 1111 are not card forms (R92). -/
def condOfCode : BitVec 4 → Option Cond
  | 0b0000#4 => some .eq
  | 0b0001#4 => some .ne
  | 0b0010#4 => some .cs
  | 0b0011#4 => some .cc
  | 0b0100#4 => some .mi
  | 0b0101#4 => some .pl
  | 0b0110#4 => some .vs
  | 0b0111#4 => some .vc
  | 0b1000#4 => some .hi
  | 0b1001#4 => some .ls
  | 0b1010#4 => some .ge
  | 0b1011#4 => some .lt
  | 0b1100#4 => some .gt
  | 0b1101#4 => some .le
  | _ => none

/-- Format ADDSUB3 (R64): bits 10:9 are `I` and `op`. -/
def decodeAddSub3 (h : Half) : Instr :=
  match slice h 9 2 with
  | 0b00#2 => .addLo (slice h 0 3) (slice h 3 3) (slice h 6 3)
  | 0b01#2 => .subLo (slice h 0 3) (slice h 3 3) (slice h 6 3)
  | 0b10#2 => .addImm3 (slice h 0 3) (slice h 3 3) (slice h 6 3)
  | _ => .subImm3 (slice h 0 3) (slice h 3 3) (slice h 6 3)

/-- Format ALU (R66): bits 9:6 are `op`; 0101 (`adc`) and 0110 (`sbc`) are not in the card. -/
def decodeAlu (h : Half) : Option Instr :=
  match slice h 6 4 with
  | 0b0000#4 => some (.andReg (slice h 0 3) (slice h 3 3))
  | 0b0001#4 => some (.eorReg (slice h 0 3) (slice h 3 3))
  | 0b0010#4 => some (.lslReg (slice h 0 3) (slice h 3 3))
  | 0b0011#4 => some (.lsrReg (slice h 0 3) (slice h 3 3))
  | 0b0100#4 => some (.asrReg (slice h 0 3) (slice h 3 3))
  | 0b0111#4 => some (.rorReg (slice h 0 3) (slice h 3 3))
  | 0b1000#4 => some (.tst (slice h 0 3) (slice h 3 3))
  | 0b1001#4 => some (.neg (slice h 0 3) (slice h 3 3))
  | 0b1010#4 => some (.cmpLo (slice h 0 3) (slice h 3 3))
  | 0b1011#4 => some (.cmn (slice h 0 3) (slice h 3 3))
  | 0b1100#4 => some (.orrReg (slice h 0 3) (slice h 3 3))
  | 0b1101#4 => some (.mul (slice h 0 3) (slice h 3 3))
  | 0b1110#4 => some (.bicReg (slice h 0 3) (slice h 3 3))
  | 0b1111#4 => some (.mvnReg (slice h 0 3) (slice h 3 3))
  | _ => none

/-- Format HIREG (R67): `Rd = H1 : Rdlo`. Both registers low is not a card form; `op = 11` is not in
the card (R92). -/
def decodeHiReg (h : Half) : Option Instr :=
  let rd : Reg := slice h 7 1 ++ slice h 0 3
  let rm : Reg := slice h 3 4
  if oneHigh rd rm then
    match slice h 8 2 with
    | 0b00#2 => some (.addHi rd rm)
    | 0b01#2 => some (.cmpHi rd rm)
    | 0b10#2 => some (.movHi rd rm)
    | _ => none
  else none

/-- Format LS_REG (R69): bits 11:9 are `op`. -/
def decodeLsReg (h : Half) : Instr :=
  match slice h 9 3 with
  | 0b000#3 => .strReg (slice h 0 3) (slice h 3 3) (slice h 6 3)
  | 0b001#3 => .strhReg (slice h 0 3) (slice h 3 3) (slice h 6 3)
  | 0b010#3 => .strbReg (slice h 0 3) (slice h 3 3) (slice h 6 3)
  | 0b011#3 => .ldrsbReg (slice h 0 3) (slice h 3 3) (slice h 6 3)
  | 0b100#3 => .ldrReg (slice h 0 3) (slice h 3 3) (slice h 6 3)
  | 0b101#3 => .ldrhReg (slice h 0 3) (slice h 3 3) (slice h 6 3)
  | 0b110#3 => .ldrbReg (slice h 0 3) (slice h 3 3) (slice h 6 3)
  | _ => .ldrshReg (slice h 0 3) (slice h 3 3) (slice h 6 3)

/-- Formats ADJ_SP, EXTEND and PUSHPOP (R74, R75, R76), under bits 15:12 = 1011: bits 11:8 choose the
format. Every pattern not listed, and an empty list without `LR` or `PC`, is not in the card (R92). -/
def decodeMisc (h : Half) : Option Instr :=
  match slice h 8 4 with
  | 0b0000#4 => some (if slice h 7 1 = 0#1 then .addSp (slice h 0 7) else .subSp (slice h 0 7))
  | 0b0010#4 =>
    match slice h 6 2 with
    | 0b00#2 => some (.sxth (slice h 0 3) (slice h 3 3))
    | 0b01#2 => some (.sxtb (slice h 0 3) (slice h 3 3))
    | 0b10#2 => some (.uxth (slice h 0 3) (slice h 3 3))
    | _ => some (.uxtb (slice h 0 3) (slice h 3 3))
  | 0b0100#4 => if slice h 0 8 = 0#8 then none else some (.push (slice h 0 8))
  | 0b0101#4 => some (.pushLr (slice h 0 8))
  | 0b1100#4 => if slice h 0 8 = 0#8 then none else some (.pop (slice h 0 8))
  | 0b1101#4 => some (.popPc (slice h 0 8))
  | _ => none

/-- Format BCOND (R77). -/
def decodeBCond (h : Half) : Option Instr :=
  match condOfCode (slice h 8 4) with
  | some c => some (.bCond c (slice h 0 8))
  | none => none

/-- A 16-bit instruction, by the opcode map of R82 over bits 15:11. The word of `mov Rd, Rm` (Lo a Lo)
is that of `lsl Rd, Rm, #0`, and the more specific row comes first (R62, R90). -/
def decode16 (h : Half) : Option Instr :=
  match slice h 11 5 with
  | 0b00000#5 =>
    some (if slice h 6 5 = 0#5 then .movLo (slice h 0 3) (slice h 3 3)
      else .lslImm (slice h 0 3) (slice h 3 3) (slice h 6 5))
  | 0b00001#5 => some (.lsrImm (slice h 0 3) (slice h 3 3) (slice h 6 5))
  | 0b00010#5 => some (.asrImm (slice h 0 3) (slice h 3 3) (slice h 6 5))
  | 0b00011#5 => some (decodeAddSub3 h)
  | 0b00100#5 => some (.movImm (slice h 8 3) (slice h 0 8))
  | 0b00101#5 => some (.cmpImm (slice h 8 3) (slice h 0 8))
  | 0b00110#5 => some (.addImm8 (slice h 8 3) (slice h 0 8))
  | 0b00111#5 => some (.subImm8 (slice h 8 3) (slice h 0 8))
  | 0b01000#5 => if slice h 10 1 = 0#1 then decodeAlu h else decodeHiReg h
  | 0b01001#5 => some (.ldrPc (slice h 8 3) (slice h 0 8))
  | 0b01010#5 | 0b01011#5 => some (decodeLsReg h)
  | 0b01100#5 => some (.strImm (slice h 0 3) (slice h 3 3) (slice h 6 5))
  | 0b01101#5 => some (.ldrImm (slice h 0 3) (slice h 3 3) (slice h 6 5))
  | 0b01110#5 => some (.strbImm (slice h 0 3) (slice h 3 3) (slice h 6 5))
  | 0b01111#5 => some (.ldrbImm (slice h 0 3) (slice h 3 3) (slice h 6 5))
  | 0b10000#5 => some (.strhImm (slice h 0 3) (slice h 3 3) (slice h 6 5))
  | 0b10001#5 => some (.ldrhImm (slice h 0 3) (slice h 3 3) (slice h 6 5))
  | 0b10010#5 => some (.strSp (slice h 8 3) (slice h 0 8))
  | 0b10011#5 => some (.ldrSp (slice h 8 3) (slice h 0 8))
  | 0b10101#5 => some (.addRdSp (slice h 8 3) (slice h 0 8))
  | 0b10110#5 | 0b10111#5 => decodeMisc h
  | 0b11010#5 | 0b11011#5 => decodeBCond h
  | 0b11100#5 => some (.b (slice h 0 11))
  | _ => none

/-- The first halfword of a `bl`: bits 15:11 are 11110 (R61, R79). -/
def isBlFirst (h : Half) : Bool := slice h 11 5 == 0b11110#5

/-- The second halfword of a `bl`: bits 15:11 are 11111 (R61, R79). -/
def isBlSecond (h : Half) : Bool := slice h 11 5 == 0b11111#5

/-- Why the decoder refuses: the bits that select no row (R92; 60 R242 `NotInCard`), or bytes that end
inside an instruction. -/
inductive DecodeError where
  | notInCard (hw1 : Half)
  | notInCardPair (hw1 hw2 : Half)
  | truncated
deriving DecidableEq, Repr

/-- The decision of 30_encoding R61, given the first halfword and the one after it (looked at only for
`bl`). -/
def decode (hw1 hw2 : Half) : Except DecodeError Instr :=
  if isBlFirst hw1 then
    if isBlSecond hw2 then .ok (.bl (slice hw1 0 11) (slice hw2 0 11))
    else .error (.notInCardPair hw1 hw2)
  else
    match decode16 hw1 with
    | some i => .ok i
    | none => .error (.notInCard hw1)

/-- A halfword from its two bytes, lowest address first: little-endian (20_memory R41, R43). -/
def halfOfBytes (b0 b1 : Byte) : Half := b1 ++ b0

/-- The two bytes of a halfword, lowest address first. -/
def bytesOfHalf (h : Half) : List Byte := [h.extractLsb' 0 8, h.extractLsb' 8 8]

/-- The decoder on bytes as they lie in memory: the instruction and the bytes after it. -/
def decodeBytes : List Byte → Except DecodeError (Instr × List Byte)
  | b0 :: b1 :: rest =>
    if isBlFirst (halfOfBytes b0 b1) then
      match rest with
      | b2 :: b3 :: rest' =>
        match decode (halfOfBytes b0 b1) (halfOfBytes b2 b3) with
        | .ok i => .ok (i, rest')
        | .error e => .error e
      | _ => .error .truncated
    else
      match decode (halfOfBytes b0 b1) 0#16 with
      | .ok i => .ok (i, rest)
      | .error e => .error e
  | _ => .error .truncated

/-- The halfwords, in fetch order, of an instruction whose bits spec/opcode_table.json writes as `w`.
A 16-bit row is the halfword itself (the second is zero). A 32-bit row is `hw1 : hw2`, the first
halfword in bits 31:16 (30_encoding R62); a 32-bit word that does not begin so is read with its
first halfword in bits 15:0 (log 9). -/
def tableHalfwords (nbits w : Nat) : Half × Half :=
  let lo : Half := BitVec.ofNat 16 w
  let hi : Half := BitVec.ofNat 16 (w / 2 ^ 16)
  if nbits ≤ 16 then (lo, 0#16) else if isBlFirst hi then (hi, lo) else (lo, hi)

/-- The instruction the decoder reads from an instruction whose bits are `w`, laid out as the hardware
stores it. -/
def decodeTableWord (nbits w : Nat) : Option Instr :=
  let hs := tableHalfwords nbits w
  match decodeBytes (bytesOfHalf hs.1 ++ bytesOfHalf hs.2) with
  | .ok (i, _) => some i
  | .error _ => none

/-- The code of a condition (30_encoding R98). -/
def Cond.code : Cond → BitVec 4
  | .eq => 0b0000#4 | .ne => 0b0001#4 | .cs => 0b0010#4 | .cc => 0b0011#4
  | .mi => 0b0100#4 | .pl => 0b0101#4 | .vs => 0b0110#4 | .vc => 0b0111#4
  | .hi => 0b1000#4 | .ls => 0b1001#4 | .ge => 0b1010#4 | .lt => 0b1011#4
  | .gt => 0b1100#4 | .le => 0b1101#4

/-- The word of a format ALU instruction (R66). -/
def wordAlu (op : BitVec 4) (rm rd : LoReg) : Half := 0b010000#6 ++ op ++ rm ++ rd

/-- The word of a format HIREG instruction (R67): `H1` is the top bit of the first register. -/
def wordHiReg (op : BitVec 2) (rd rm : Reg) : Half :=
  0b010001#6 ++ op ++ rd.extractLsb' 3 1 ++ rm ++ rd.extractLsb' 0 3

/-- The word of a format with a 7-bit opcode and three 3-bit fields (R64, R69). -/
def word333 (op : BitVec 7) (x y z : BitVec 3) : Half := op ++ x ++ y ++ z

/-- The word of a format with a 5-bit opcode, a 5-bit immediate and two registers (R63, R70, R71). -/
def word533 (op : BitVec 5) (imm5 : BitVec 5) (y z : LoReg) : Half := op ++ imm5 ++ y ++ z

/-- The word of a format with a 5-bit opcode, a register and an 8-bit immediate (R65, R68, R72, R73). -/
def word38 (op : BitVec 5) (r : LoReg) (imm8 : BitVec 8) : Half := op ++ r ++ imm8

/-- The word of a format EXTEND instruction (R75). -/
def wordExtend (op : BitVec 2) (rm rd : LoReg) : Half := 0b10110010#8 ++ op ++ rm ++ rd

/-- The halfwords of an instruction, first one first (R63 to R79). -/
def encode : Instr → List Half
  | .movLo rd rm => [word533 0b00000#5 0#5 rm rd]
  | .lslImm rd rm imm5 => [word533 0b00000#5 imm5 rm rd]
  | .lsrImm rd rm imm5 => [word533 0b00001#5 imm5 rm rd]
  | .asrImm rd rm imm5 => [word533 0b00010#5 imm5 rm rd]
  | .addLo rd rn rm => [word333 0b0001100#7 rm rn rd]
  | .subLo rd rn rm => [word333 0b0001101#7 rm rn rd]
  | .addImm3 rd rn imm3 => [word333 0b0001110#7 imm3 rn rd]
  | .subImm3 rd rn imm3 => [word333 0b0001111#7 imm3 rn rd]
  | .movImm rd imm8 => [word38 0b00100#5 rd imm8]
  | .cmpImm rn imm8 => [word38 0b00101#5 rn imm8]
  | .addImm8 rd imm8 => [word38 0b00110#5 rd imm8]
  | .subImm8 rd imm8 => [word38 0b00111#5 rd imm8]
  | .andReg rd rm => [wordAlu 0b0000#4 rm rd]
  | .eorReg rd rm => [wordAlu 0b0001#4 rm rd]
  | .lslReg rd rs => [wordAlu 0b0010#4 rs rd]
  | .lsrReg rd rs => [wordAlu 0b0011#4 rs rd]
  | .asrReg rd rs => [wordAlu 0b0100#4 rs rd]
  | .rorReg rd rs => [wordAlu 0b0111#4 rs rd]
  | .tst rn rm => [wordAlu 0b1000#4 rm rn]
  | .neg rd rn => [wordAlu 0b1001#4 rn rd]
  | .cmpLo rn rm => [wordAlu 0b1010#4 rm rn]
  | .cmn rn rm => [wordAlu 0b1011#4 rm rn]
  | .orrReg rd rm => [wordAlu 0b1100#4 rm rd]
  | .mul rd rm => [wordAlu 0b1101#4 rm rd]
  | .bicReg rd rm => [wordAlu 0b1110#4 rm rd]
  | .mvnReg rd rm => [wordAlu 0b1111#4 rm rd]
  | .addHi rd rm => [wordHiReg 0b00#2 rd rm]
  | .cmpHi rn rm => [wordHiReg 0b01#2 rn rm]
  | .movHi rd rm => [wordHiReg 0b10#2 rd rm]
  | .ldrPc rd imm8 => [word38 0b01001#5 rd imm8]
  | .strReg rd rn rm => [word333 0b0101000#7 rm rn rd]
  | .strhReg rd rn rm => [word333 0b0101001#7 rm rn rd]
  | .strbReg rd rn rm => [word333 0b0101010#7 rm rn rd]
  | .ldrsbReg rd rn rm => [word333 0b0101011#7 rm rn rd]
  | .ldrReg rd rn rm => [word333 0b0101100#7 rm rn rd]
  | .ldrhReg rd rn rm => [word333 0b0101101#7 rm rn rd]
  | .ldrbReg rd rn rm => [word333 0b0101110#7 rm rn rd]
  | .ldrshReg rd rn rm => [word333 0b0101111#7 rm rn rd]
  | .strImm rd rn imm5 => [word533 0b01100#5 imm5 rn rd]
  | .ldrImm rd rn imm5 => [word533 0b01101#5 imm5 rn rd]
  | .strbImm rd rn imm5 => [word533 0b01110#5 imm5 rn rd]
  | .ldrbImm rd rn imm5 => [word533 0b01111#5 imm5 rn rd]
  | .strhImm rd rn imm5 => [word533 0b10000#5 imm5 rn rd]
  | .ldrhImm rd rn imm5 => [word533 0b10001#5 imm5 rn rd]
  | .strSp rd imm8 => [word38 0b10010#5 rd imm8]
  | .ldrSp rd imm8 => [word38 0b10011#5 rd imm8]
  | .addRdSp rd imm8 => [word38 0b10101#5 rd imm8]
  | .addSp imm7 => [(0b101100000#9 ++ imm7 : Half)]
  | .subSp imm7 => [(0b101100001#9 ++ imm7 : Half)]
  | .sxth rd rm => [wordExtend 0b00#2 rm rd]
  | .sxtb rd rm => [wordExtend 0b01#2 rm rd]
  | .uxth rd rm => [wordExtend 0b10#2 rm rd]
  | .uxtb rd rm => [wordExtend 0b11#2 rm rd]
  | .push rlist => [(0b10110100#8 ++ rlist : Half)]
  | .pushLr rlist => [(0b10110101#8 ++ rlist : Half)]
  | .pop rlist => [(0b10111100#8 ++ rlist : Half)]
  | .popPc rlist => [(0b10111101#8 ++ rlist : Half)]
  | .bCond cond imm8 => [(0b1101#4 ++ cond.code ++ imm8 : Half)]
  | .b imm11 => [(0b11100#5 ++ imm11 : Half)]
  | .bl immhi immlo => [(0b11110#5 ++ immhi : Half), (0b11111#5 ++ immlo : Half)]

/-- An instruction's bytes as they lie in memory (R60; 20_memory R41). -/
def encodeBytes (i : Instr) : List Byte := (encode i).flatMap bytesOfHalf

/-- The length in bytes of an instruction: 2, and 4 for `bl` (30_encoding R60). -/
def Instr.byteLength : Instr → Nat
  | .bl _ _ => 4
  | .movLo _ _ | .lslImm _ _ _ | .lsrImm _ _ _ | .asrImm _ _ _ => 2
  | .addLo _ _ _ | .subLo _ _ _ | .addImm3 _ _ _ | .subImm3 _ _ _ => 2
  | .movImm _ _ | .cmpImm _ _ | .addImm8 _ _ | .subImm8 _ _ => 2
  | .andReg _ _ | .eorReg _ _ | .lslReg _ _ | .lsrReg _ _ | .asrReg _ _ | .rorReg _ _ => 2
  | .tst _ _ | .neg _ _ | .cmpLo _ _ | .cmn _ _ => 2
  | .orrReg _ _ | .mul _ _ | .bicReg _ _ | .mvnReg _ _ => 2
  | .addHi _ _ | .cmpHi _ _ | .movHi _ _ => 2
  | .ldrPc _ _ | .strReg _ _ _ | .strhReg _ _ _ | .strbReg _ _ _ | .ldrsbReg _ _ _ => 2
  | .ldrReg _ _ _ | .ldrhReg _ _ _ | .ldrbReg _ _ _ | .ldrshReg _ _ _ => 2
  | .strImm _ _ _ | .ldrImm _ _ _ | .strbImm _ _ _ | .ldrbImm _ _ _ => 2
  | .strhImm _ _ _ | .ldrhImm _ _ _ | .strSp _ _ | .ldrSp _ _ => 2
  | .addRdSp _ _ | .addSp _ | .subSp _ => 2
  | .sxth _ _ | .sxtb _ _ | .uxth _ _ | .uxtb _ _ => 2
  | .push _ | .pushLr _ | .pop _ | .popPc _ => 2
  | .bCond _ _ | .b _ => 2

end Sys2Proof
end

