-- ==== Sys2Proof/Config.lean ====
section
/-! DEFINITION. What an implementation fixes: the parameters of 00_scope R7 that the spec leaves OPEN
(`MAPPED`, `TEXT`, `ENTRY`, `INITIAL_SP`, `HALT_ADDR`, `LR_BIT0`), and the model's own named choices. -/

namespace Sys2Proof

/-- A run of byte addresses: `size` bytes from `base`. -/
structure Region where
  base : Nat
  size : Nat
deriving DecidableEq, Repr

/-- The OPEN parameters of 00_scope R7, as plain data. `MAPPED` is the union of `text` and `data`, so
that "`TEXT` is a subset of `MAPPED`" (20_memory R49) holds by construction (log 4). -/
structure Platform where
  /-- `TEXT`: the byte addresses that hold program text (20_memory R49). -/
  text : List Region
  /-- The byte addresses of `MAPPED` beside those of `TEXT` (20_memory R40, R46). -/
  data : List Region
  /-- `ENTRY`: the initial PC (70 R260). -/
  entry : Word
  /-- `INITIAL_SP`: the initial SP (70 R261). -/
  initialSp : Word
  /-- `HALT_ADDR`: the PC value at which a run ends (70 R263). -/
  haltAddr : Word
  /-- `LR_BIT0`: bit 0 of the value `bl` writes to LR (47 R214, log 14). -/
  lrBit0 : BitVec 1
deriving DecidableEq, Repr

/-- DESIGN CHOICE, unsafe (log 6): the platform of `State.reset`. The spec leaves every one of these
OPEN (00_scope R7). ENTRY is the address 95_test_vectors places its instructions at, INITIAL_SP and
LR_BIT0 are those of its programs. -/
def Config.resetPlatform : Platform where
  text := [⟨0x100, 0x1000⟩]
  data := [⟨0, 0x100000000⟩]
  entry := 0x100#32
  initialSp := 0x3000#32
  haltAddr := 0xFFFFFFFE#32
  lrBit0 := 0#1

/-- DESIGN CHOICE, unsafe (log 7): what a byte of memory that nothing has written reads as. The spec
says "unspecified: any value, fixed at launch" (70 R262). -/
def Config.unlistedByte : Byte := 0#8

/-- DESIGN CHOICE, unsafe (log 5): the value at reset of `r0`-`r12` and `LR`, which 70 R262 leaves
unspecified. -/
def Config.launchReg : Word := 0#32

/-- DESIGN CHOICE, unsafe (log 5): the value at reset of the four flags, which 70 R262 leaves
unspecified. -/
def Config.launchFlag : Bool := false

/-- A free value (log 24): the padding byte that `.align` and `.balign` emit at an address is not stated
(30_encoding R97). -/
opaque Config.padByte : Nat → Byte

end Sys2Proof
end

