-- ==== Sys2Proof/Machine/State.lean ====
section
/-! DEFINITION. The machine's state as plain data: the complete architectural state of 10_state R35, the
configuration the step reads (00_scope R7), the reasons a step can stop (60 R240 to R242), and the
launch state that stands in for reset (70 R260 to R262). -/

namespace Sys2Proof.Machine

/-- The four status flags, independent bits (10_state R28). -/
structure Flags where
  /-- N, negative -/
  n : Bool
  /-- Z, zero -/
  z : Bool
  /-- C, carry -/
  c : Bool
  /-- V, overflow -/
  v : Bool
deriving DecidableEq, Repr

/-- Memory: the bytes that differ from `Config.unlistedByte`, by address, addresses strictly rising
(the canonical form is `Memory.wf`, in Machine/Ops.lean). It covers the whole address space of
20_memory R40. -/
abbrev Memory := List Host.Cell

/-- The state of the machine (10_state R35). -/
structure State where
  /-- `x[0]` to `x[14]`: r0-r12, SP (13), LR (14) (10_state R20, R35). -/
  regs : Vector Word 15
  /-- The address of the next instruction to execute (10_state R24). -/
  pc : Word
  /-- N, Z, C, V (10_state R28). -/
  flags : Flags
  /-- The bytes of memory (10_state R33). -/
  mem : Memory
  /-- Configuration, not state (10_state R35): the OPEN parameters of 00_scope R7. No step changes it
  (log 4). -/
  platform : Platform
deriving DecidableEq, Repr

/-- `Fault(reason)`: hardware would take an exception the card does not describe; the run stops and
nothing is changed (60 R240, R241). Each is raised as the spec says, and stopping is safe. -/
inductive Fault where
  /-- A data access at an address that is not a multiple of its size. Raised by every halfword and word
  load and store, `push` and `pop` (20_memory R44). Safe. -/
  | alignment (addr : Word) (n : Nat)
  /-- A data access that touches a byte outside `MAPPED`. Raised by every load, store, `push` and `pop`
  (20_memory R46). Safe. -/
  | unmapped (addr : Word) (n : Nat)
  /-- A fetch of a halfword outside `TEXT`. Raised by instruction fetch (20_memory R46). Safe. -/
  | fetchUnmapped (a : Word)
  /-- A fetch at an odd address. Raised by instruction fetch; no rule leads there (20_memory R45). Safe. -/
  | fetchAlignment (a : Word)
deriving DecidableEq, Repr

/-- The operand combinations that the spec refuses as `Unpredictable(...)` (60 R242). -/
inductive Unpredictable where
  /-- "cmp with PC" (42 R133) -/
  | cmpWithPc
  /-- "add pc, pc, pc" (41 R113) -/
  | addPcPcPc
  /-- "empty register list" (46 R200) -/
  | emptyRegisterList
  /-- "pop pc: bit 0 of the loaded value" (46 R204) -/
  | popPcBit0
deriving DecidableEq, Repr

/-- `Refuse(reason)`: the spec gives the instruction or operand combination no meaning and a model must
not continue (60 R240, R242). Stopping is safe. -/
inductive Refusal where
  /-- The halfword selects no row of the opcode table (30_encoding R92). Raised by the decoder in
  `step`. Safe. -/
  | notInCard (hw1 : Half)
  /-- The pair selects no row: a first half of `bl` not followed by a second half (30_encoding R61,
  R92). Raised by the decoder in `step`. Safe. -/
  | notInCardPair (hw1 hw2 : Half)
  /-- Unpredictable on ARM hardware (60 R242). Raised by `cmp` and `add` with a high register, `push`,
  `pop`. Safe. -/
  | unpredictable (what : Unpredictable)
  /-- A store with a byte in `TEXT` (20_memory R53). Raised by every store and `push`. Safe. -/
  | storeToText (addr : Word)
  /-- An instruction that has no meaning in the model yet. Raised by no instruction: every arm of `exec`
  has its meaning. Safe. -/
  | notModelled (mnemonic : String)
deriving DecidableEq, Repr

/-- The launch of a program (70 R260 to R262): `pc = ENTRY`, `SP = INITIAL_SP`, everything else the
values given, which the spec leaves unspecified ("any value, fixed at launch"). -/
def State.launch (p : Platform) (regs : Vector Word 15) (flags : Flags) (mem : Memory) : State where
  regs := regs.set 13 p.initialSp
  pc := p.entry
  flags := flags
  mem := mem
  platform := p

/-- The machine right after reset: the launch on the named platform with the named values (log 5, 6, 7),
and no byte of memory listed. The spec models no hardware reset (70 R260). -/
def State.reset : State :=
  State.launch Config.resetPlatform (Vector.replicate 15 Config.launchReg)
    ⟨Config.launchFlag, Config.launchFlag, Config.launchFlag, Config.launchFlag⟩ []

end Sys2Proof.Machine
end

