-- ==== Sys2Proof/Machine/Ops.lean ====
section
/-! DEFINITION. The named operations over memory, registers and the program counter: `MemRead`,
`MemWrite`, `FetchHalf` (20_memory R43), register reads and writes (00_scope R10, 10_state R25, R26),
the stop of a step (60 R240), and the block transfers of `push` and `pop` (46 R200). -/

namespace Sys2Proof.Machine

/-- What a meaning answers: one of the three outcomes of a step (60 R240). -/
abbrev Result := Host.Outcome State Fault Refusal

/-- A stop of the machine: there is no next state, nothing is saved, no handler is entered (60 R240,
R247). This is all there is of exception entry on this hardware. -/
inductive Stop where
  | fault (r : Fault)
  | refuse (r : Refusal)
deriving DecidableEq, Repr

/-- Taking a stop: the one way a step ends without a next state (60 R240). -/
def Stop.take : Stop → Result
  | .fault r => .fault r
  | .refuse r => .refused r

/-! ### Bytes of memory -/

/-- The byte at an address; an unlisted address reads as `Config.unlistedByte` (log 7). -/
def Memory.read : Memory → Nat → Byte
  | [], _ => Config.unlistedByte
  | (k, v) :: m, a => if k = a then v else Memory.read m a

/-- A cell put at its place among rising addresses. -/
def Memory.insert : Memory → Host.Cell → Memory
  | [], c => [c]
  | d :: m, c => if c.1 < d.1 then c :: d :: m else d :: Memory.insert m c

/-- A byte written: a byte that an unlisted address reads as anyway is not listed. -/
def Memory.write (m : Memory) (a : Nat) (v : Byte) : Memory :=
  let m' := m.filter (fun c => c.1 != a)
  if v = Config.unlistedByte then m' else Memory.insert m' (a, v)

/-- The canonical form: addresses rising, inside the address space, no cell that an unlisted address
reads as. -/
abbrev Memory.wf (m : Memory) : Prop :=
  m.Pairwise (fun c d => c.1 < d.1) ∧ ∀ c ∈ m, c.1 < 2 ^ 32 ∧ c.2 ≠ Config.unlistedByte

/-- The `n` byte addresses from `a` on, modulo 2^32 (20_memory R57). -/
def footprint (a : Word) (n : Nat) : List Word :=
  (List.range n).map (fun i => a + BitVec.ofNat 32 i)

/-- The `n`-byte datum at `a`, little-endian, with zeros above (20_memory R41, R43). -/
def Memory.loadBytes (m : Memory) (a : Word) : Nat → Word
  | 0 => 0#32
  | n + 1 => (Memory.loadBytes m (a + 1#32) n <<< 8) ||| (Memory.read m a.toNat).setWidth 32

/-- The low `8n` bits of `v` put at `a`, little-endian: byte `i` is `v[8i+7:8i]` (20_memory R43). -/
def Memory.storeBytes (m : Memory) (a : Word) : Nat → Word → Memory
  | 0, _ => m
  | n + 1, v => Memory.storeBytes (Memory.write m a.toNat (v.setWidth 8)) (a + 1#32) n (v >>> 8)

/-- The byte of memory at an address, as a program sees it. -/
def State.byte (s : State) (a : Word) : Byte := Memory.read s.mem a.toNat

/-! ### The address map -/

/-- An address is one of a region's. -/
def Region.contains (r : Region) (a : Word) : Bool :=
  decide (r.base ≤ a.toNat) && decide (a.toNat < r.base + r.size)

/-- `TEXT`: the address holds program text (20_memory R49). -/
def State.isText (s : State) (a : Word) : Bool := s.platform.text.any (fun r => Region.contains r a)

/-- `MAPPED`: the address exists (20_memory R46); `TEXT` is a part of it (R49). -/
def State.isMapped (s : State) (a : Word) : Bool :=
  s.isText a || s.platform.data.any (fun r => Region.contains r a)

/-! ### The access primitives of 20_memory R43 -/

/-- The checks of `MemRead`: alignment first, then mapping (R44, R46; order 60 R243). -/
def State.checkRead (s : State) (addr : Word) (n : Nat) : Except Stop Unit :=
  if addr.toNat % n ≠ 0 then .error (.fault (.alignment addr n))
  else if (footprint addr n).all s.isMapped then .ok ()
  else .error (.fault (.unmapped addr n))

/-- The checks of `MemWrite`: those of `MemRead`, then that no byte lies in `TEXT` (R53). -/
def State.checkWrite (s : State) (addr : Word) (n : Nat) : Except Stop Unit :=
  match s.checkRead addr n with
  | .error e => .error e
  | .ok _ =>
    if (footprint addr n).any s.isText then .error (.refuse (.storeToText addr)) else .ok ()

/-- `MemRead(addr, n)`, its datum with zeros above (20_memory R43). -/
def State.memRead (s : State) (addr : Word) (n : Nat) : Except Stop Word :=
  match s.checkRead addr n with
  | .error e => .error e
  | .ok _ => .ok (Memory.loadBytes s.mem addr n)

/-- `MemWrite(addr, n, v)` (20_memory R43). -/
def State.memWrite (s : State) (addr : Word) (n : Nat) (v : Word) : Except Stop State :=
  match s.checkWrite addr n with
  | .error e => .error e
  | .ok _ => .ok { s with mem := Memory.storeBytes s.mem addr n v }

/-- `FetchHalf(a)`: as `MemRead(a, 2)` under its own fault names, and inside `TEXT` (20_memory R43, R45,
R46). -/
def State.fetchHalf (s : State) (a : Word) : Except Stop Half :=
  if a.toNat % 2 ≠ 0 then .error (.fault (.fetchAlignment a))
  else if (footprint a 2).all s.isText then
    .ok (halfOfBytes (s.byte a) (s.byte (a + 1#32)))
  else .error (.fault (.fetchUnmapped a))

/-- The instruction at `pc`, by the decision of 30_encoding R61: the second halfword is fetched only
after a first half of `bl` (60 R243 items 1 to 3). -/
def State.fetchInstr (s : State) : Except Stop Instr :=
  match s.fetchHalf s.pc with
  | .error e => .error e
  | .ok hw1 =>
    match (if isBlFirst hw1 then s.fetchHalf (s.pc + 2#32) else .ok 0#16) with
    | .error e => .error e
    | .ok hw2 =>
      match decode hw1 hw2 with
      | .ok i => .ok i
      | .error (.notInCardPair h1 h2) => .error (.refuse (.notInCardPair h1 h2))
      | .error _ => .error (.refuse (.notInCard hw1))

/-! ### Registers and the program counter -/

/-- `x[i]` (00_scope R10): register 15 reads as the instruction's address plus 4 (10_state R25). -/
def State.reg (s : State) (r : Reg) : Word :=
  if h : r.toNat < 15 then s.regs[r.toNat] else s.pc + 4#32

/-- `x[i] <- v` for `i` other than 15 (00_scope R10); a write of the PC is `State.jump`. -/
def State.setReg (s : State) (r : Reg) (v : Word) : State :=
  if h : r.toNat < 15 then { s with regs := s.regs.set r.toNat v } else s

/-- The low register of a 3-bit field. -/
def State.lo (s : State) (r : LoReg) : Word := s.reg r.reg

/-- Write the low register of a 3-bit field. -/
def State.setLo (s : State) (r : LoReg) (v : Word) : State := s.setReg r.reg v

/-- `v[31:1] : 0`: bit 0 of a value written to the PC is ignored (10_state R26). -/
def clearBit0 (v : Word) : Word := v.extractLsb' 1 31 ++ 0#1

/-- `pc <- t`. -/
def State.jump (s : State) (t : Word) : State := { s with pc := t }

/-- `pc <- (a + 2) mod 2^32`: what a 16-bit instruction that does not write the PC does (10_state R27). -/
def State.advance (s : State) : State := s.jump (s.pc + 2#32)

/-! ### Block transfers -/

/-- The addresses of `n` words from `base` up, modulo 2^32 (46 R200 item 3). -/
def slots (base : Word) : Nat → List Word
  | 0 => []
  | n + 1 => base :: slots (base + 4#32) n

/-- Every check in order; the first that fails decides (60 R243 item 5, 46 R200 item 6). -/
def checkAll (check : Word → Except Stop Unit) : List Word → Except Stop Unit
  | [] => .ok ()
  | a :: as =>
    match check a with
    | .error e => .error e
    | .ok _ => checkAll check as

/-- Words stored from `base` up, the first at the lowest address (46 R200 item 3). -/
def Memory.storeWords (m : Memory) (base : Word) : List Word → Memory
  | [] => m
  | v :: vs => Memory.storeWords (Memory.storeBytes m base 4 v) (base + 4#32) vs

/-- `n` words loaded from `base` up, the one at the lowest address first (46 R200 item 3). -/
def Memory.loadWords (m : Memory) (base : Word) : Nat → List Word
  | 0 => []
  | n + 1 => Memory.loadBytes m base 4 :: Memory.loadWords m (base + 4#32) n

/-- Registers written in order, each with its value. -/
def State.setRegs (s : State) : List Reg → List Word → State
  | r :: rs, v :: vs => (s.setReg r v).setRegs rs vs
  | _, _ => s

/-! ### Loading a program from outside the machine -/

/-- The halfword at `a` is inside `TEXT`: the region it needs is added where it is not. -/
def State.coverText (s : State) (a : Word) : State :=
  if (footprint a 2).all s.isText then s
  else
    { s with platform :=
        { s.platform with
          text := ⟨a.toNat, 1⟩ :: ⟨(a + 1#32).toNat, 1⟩ :: s.platform.text } }

/-- A halfword of program text put at `a` by whatever loads the program (70 R262, log 8). -/
def State.placeHalf (s : State) (a : Word) (h : Half) : State :=
  { s.coverText a with mem := Memory.storeBytes s.mem a 2 (h.setWidth 32) }

end Sys2Proof.Machine
end

