-- ==== Sys2Proof/Machine/Flags.lean ====
section
/-! DEFINITION. Every flag computation the spec gives: `AddWithCarry` (00_scope R11), `SetNZ` (R12),
`Shift_C` (44 R150) and `ConditionPassed` (47 R211). -/

namespace Sys2Proof.Machine

/-- What `AddWithCarry` returns (00_scope R11). -/
structure AddResult where
  result : Word
  carry : Bool
  overflow : Bool
deriving DecidableEq, Repr

/-- `AddWithCarry(x, y, cin)`: exact sums over the unbounded integers, then compared with the 32-bit
result (00_scope R11). -/
def addWithCarry (x y : Word) (cin : Bool) : AddResult :=
  let usum : Nat := x.toNat + y.toNat + cin.toNat
  let ssum : Int := x.toInt + y.toInt + (cin.toNat : Int)
  let result : Word := BitVec.ofNat 32 usum
  { result := result
    carry := decide (result.toNat ≠ usum)
    overflow := decide (result.toInt ≠ ssum) }

/-- `x + y` (00_scope R11). -/
def addFlags (x y : Word) : AddResult := addWithCarry x y false

/-- `x - y`: `AddWithCarry(x, NOT y, 1)` (00_scope R11). -/
def subFlags (x y : Word) : AddResult := addWithCarry x (~~~y) true

/-- `SetNZ(r)`: N is bit 31, Z says that `r` is zero (00_scope R12). -/
def State.setNZ (s : State) (r : Word) : State :=
  { s with flags := { s.flags with n := r.getLsbD 31, z := r == 0#32 } }

/-- `SetNZ(r); C <- c; V <- v` for the result of an `AddWithCarry` (41 R110 and the like). -/
def State.setNZCV (s : State) (a : AddResult) : State :=
  { s with flags :=
      { n := a.result.getLsbD 31, z := a.result == 0#32, c := a.carry, v := a.overflow } }

/-- The kinds of shift (44 R150). -/
inductive ShiftKind where
  | lsl | lsr | asr | ror
deriving DecidableEq, Repr

/-- What `Shift_C` returns: the carry is a bit, or `none` for "unchanged" (44 R150). -/
structure ShiftResult where
  result : Word
  carry : Option Bool
deriving DecidableEq, Repr

/-- 32 copies of bit 31. -/
def signWord (v : Word) : Word := if v.getLsbD 31 then 0xFFFFFFFF#32 else 0#32

/-- `Shift_C(kind, v, n)`, column by column the table of 44 R150, for an amount `n` in 0..255. -/
def shiftC (kind : ShiftKind) (v : Word) (n : Nat) : ShiftResult :=
  if n = 0 then ⟨v, none⟩
  else
    match kind with
    | .lsl =>
      if n ≤ 31 then ⟨v <<< n, some (v.getLsbD (32 - n))⟩
      else if n = 32 then ⟨0#32, some (v.getLsbD 0)⟩
      else ⟨0#32, some false⟩
    | .lsr =>
      if n ≤ 31 then ⟨v >>> n, some (v.getLsbD (n - 1))⟩
      else if n = 32 then ⟨0#32, some (v.getLsbD 31)⟩
      else ⟨0#32, some false⟩
    | .asr =>
      if n ≤ 31 then ⟨v.sshiftRight n, some (v.getLsbD (n - 1))⟩
      else ⟨signWord v, some (v.getLsbD 31)⟩
    | .ror =>
      if n % 32 = 0 then ⟨v, some (v.getLsbD 31)⟩
      else ⟨v.rotateRight (n % 32), some (v.getLsbD (n % 32 - 1))⟩

/-- `SetNZ(result); if carry != unchanged then C <- carry` (44 R150). V is never written. -/
def State.setShift (s : State) (r : ShiftResult) : State :=
  { s with flags :=
      { n := r.result.getLsbD 31, z := r.result == 0#32, c := r.carry.getD s.flags.c,
        v := s.flags.v } }

/-- `ConditionPassed(cond)`, the corrected table of 47 R211 (90_conflicts C3, C4, C5). -/
def conditionPassed (f : Flags) : Cond → Bool
  | .eq => f.z
  | .ne => !f.z
  | .cs => f.c
  | .cc => !f.c
  | .mi => f.n
  | .pl => !f.n
  | .vs => f.v
  | .vc => !f.v
  | .hi => f.c && !f.z
  | .ls => !f.c || f.z
  | .ge => f.n == f.v
  | .lt => f.n != f.v
  | .gt => !f.z && f.n == f.v
  | .le => f.z || f.n != f.v

end Sys2Proof.Machine
end

