-- ==== Sys2Proof/Machine/Operands.lean ====
section
/-! DEFINITION. Every operand form: immediates (30_encoding R81), effective addresses (45 R170), shift
amounts (44 R151 to R157), register lists (46 R200) and branch targets (47 R212 to R214). -/

namespace Sys2Proof.Machine

/-- `zext_32(imm)`: an immediate used as it is (30_encoding R81). -/
def immPlain {w : Nat} (imm : BitVec w) : Word := imm.setWidth 32

/-- `zext_32(imm : 0)`: an immediate scaled by 2 (30_encoding R81). -/
def immHalves {w : Nat} (imm : BitVec w) : Word := (imm ++ 0#1).setWidth 32

/-- `zext_32(imm : 00)`: an immediate scaled by 4 (30_encoding R81). -/
def immWords {w : Nat} (imm : BitVec w) : Word := (imm ++ 0#2).setWidth 32

/-- `sext_32(imm : 0)`: a branch offset (30_encoding R77, R78, R79, R81). -/
def branchOffset {w : Nat} (imm : BitVec w) : Word := (imm ++ 0#1).signExtend 32

/-- `[Rn, #Inm]`: register base plus immediate, modulo 2^32 (45 R170). -/
def State.eaImm (s : State) (rn : LoReg) (inm : Word) : Word := s.lo rn + inm

/-- `[Rn, Rm]`: register base plus register, modulo 2^32 (45 R170). -/
def State.eaReg (s : State) (rn rm : LoReg) : Word := s.lo rn + s.lo rm

/-- `[PC, #Inm]`: `((a + 4) AND 0xFFFFFFFC) + Inm`, modulo 2^32 (45 R170, R179). -/
def State.eaPc (s : State) (inm : Word) : Word := (s.reg Reg.pc &&& 0xFFFFFFFC#32) + inm

/-- `[SP, #Inm]`, modulo 2^32 (45 R170). -/
def State.eaSp (s : State) (inm : Word) : Word := s.reg Reg.sp + inm

/-- The amount of `lsr` and `asr` by immediate: a field of 0 means 32 (30_encoding R91, log 15). -/
def rightShiftAmount (imm5 : BitVec 5) : Nat := if imm5 = 0#5 then 32 else imm5.toNat

/-- The amount of a shift by register: bits 7:0 of `Rs` (44, "Shifts by register"; 90_conflicts C12). -/
def State.shiftAmount (s : State) (rs : LoReg) : Nat := ((s.lo rs).extractLsb' 0 8).toNat

/-- The low registers of a list, ascending: bit `i` of `rlist` names `r<i>` (30_encoding R76, 46 R200). -/
def loRegList (rlist : BitVec 8) : List Reg :=
  ((List.range 8).filter (fun i => rlist.getLsbD i)).map (fun i => BitVec.ofNat 4 i)

/-- Where a branch goes: its offset is applied to `a + 4` (47 R212 to R214, 10_state R25). -/
def State.branchTarget (s : State) (offset : Word) : Word := s.reg Reg.pc + offset

end Sys2Proof.Machine
end

