-- ==== Sys2Proof/Machine/AddSub.lean ====
section
/-! DEFINITION. Add, subtract, negate (spec/41_add_sub.md; the arithmetic law is R121). -/

namespace Sys2Proof.Machine

/-- The shared tail of the flag-setting forms: `x[Rd] <- r; SetNZ(r); C <- c; V <- v` (R110). -/
def State.writeAdd (s : State) (rd : LoReg) (a : AddResult) : State :=
  ((s.setLo rd a.result).setNZCV a).advance

/-- `add Rd, Rn, #Inm3` (R110). -/
def execAddImm3 (rd rn : LoReg) (imm3 : BitVec 3) (s : State) : Result :=
  .next (s.writeAdd rd (addFlags (s.lo rn) (immPlain imm3)))

/-- `add Rd, Rd, #Inm8` (R111). -/
def execAddImm8 (rd : LoReg) (imm8 : BitVec 8) (s : State) : Result :=
  .next (s.writeAdd rd (addFlags (s.lo rd) (immPlain imm8)))

/-- `add Rd, Rn, Rm` (R112). -/
def execAddLo (rd rn rm : LoReg) (s : State) : Result :=
  .next (s.writeAdd rd (addFlags (s.lo rn) (s.lo rm)))

/-- `add Rd, Rd, Rm` with a high register (R113): no flag; `add pc, pc, pc` is refused; a write of the PC
ignores bit 0 (10_state R26). -/
def execAddHi (rd rm : Reg) (s : State) : Result :=
  if rd = Reg.pc ∧ rm = Reg.pc then (Stop.refuse (.unpredictable .addPcPcPc)).take
  else
    let r := s.reg rd + s.reg rm
    if rd = Reg.pc then .next (s.jump (clearBit0 r)) else .next (s.setReg rd r).advance

/-- `add SP, SP, #Inm` (R114). -/
def execAddSp (imm7 : BitVec 7) (s : State) : Result :=
  .next (s.setReg Reg.sp (s.reg Reg.sp + immWords imm7)).advance

/-- `add Rd, SP, #Inm` (R115). -/
def execAddRdSp (rd : LoReg) (imm8 : BitVec 8) (s : State) : Result :=
  .next (s.setLo rd (s.reg Reg.sp + immWords imm8)).advance

/-- `sub Rd, Rn, #Inm3` (R116). -/
def execSubImm3 (rd rn : LoReg) (imm3 : BitVec 3) (s : State) : Result :=
  .next (s.writeAdd rd (subFlags (s.lo rn) (immPlain imm3)))

/-- `sub Rd, Rd, #Inm8` (R117). -/
def execSubImm8 (rd : LoReg) (imm8 : BitVec 8) (s : State) : Result :=
  .next (s.writeAdd rd (subFlags (s.lo rd) (immPlain imm8)))

/-- `sub Rd, Rn, Rm` (R118). -/
def execSubLo (rd rn rm : LoReg) (s : State) : Result :=
  .next (s.writeAdd rd (subFlags (s.lo rn) (s.lo rm)))

/-- `sub SP, SP, #Inm` (R119). -/
def execSubSp (imm7 : BitVec 7) (s : State) : Result :=
  .next (s.setReg Reg.sp (s.reg Reg.sp - immWords imm7)).advance

/-- `neg Rd, Rn` (R120): `AddWithCarry(NOT Rn, 0, 1)`, the subtraction `0 - Rn`. -/
def execNeg (rd rn : LoReg) (s : State) : Result :=
  .next (s.writeAdd rd (addWithCarry (~~~(s.lo rn)) 0#32 true))

end Sys2Proof.Machine
end

