-- ==== Sys2Proof/Machine/Branch.lean ====
section
/-! DEFINITION. The branches (spec/47_branch.md). No flag is written and there is no delay slot (R215). -/

namespace Sys2Proof.Machine

/-- `b{cond} <label>` (R212). -/
def execBCond (cond : Cond) (imm8 : BitVec 8) (s : State) : Result :=
  if conditionPassed s.flags cond then .next (s.jump (s.branchTarget (branchOffset imm8)))
  else .next s.advance

/-- `b <label>` (R213). -/
def execB (imm11 : BitVec 11) (s : State) : Result :=
  .next (s.jump (s.branchTarget (branchOffset imm11)))

/-- `((a + 4) mod 2^32) OR LR_BIT0`: what `bl` writes to LR (R214, log 14). -/
def State.linkValue (s : State) : Word := s.reg Reg.pc ||| s.platform.lrBit0.setWidth 32

/-- `bl <label>` (R214). -/
def execBl (immhi immlo : BitVec 11) (s : State) : Result :=
  .next ((s.setReg Reg.lr s.linkValue).jump (s.branchTarget (branchOffset (immhi ++ immlo))))

end Sys2Proof.Machine
end

