-- ==== Sys2Proof/Machine/Extend.lean ====
section
/-! DEFINITION. The extend instructions (spec/48_extend.md), and the extensions of narrow data that the
loads share with them. No flag is written and none can fault. -/

namespace Sys2Proof.Machine

/-- `sext_32(v[15:0])`: "Bits 31:16 igual al bit 15". -/
def signExtendHalf (v : Word) : Word := (v.extractLsb' 0 16).signExtend 32

/-- `sext_32(v[7:0])`: "Bits 31:8 igual al bit 7". -/
def signExtendByte (v : Word) : Word := (v.extractLsb' 0 8).signExtend 32

/-- `zext_32(v[15:0])`: "Bits 31:16 a 0". -/
def zeroExtendHalf (v : Word) : Word := (v.extractLsb' 0 16).setWidth 32

/-- `zext_32(v[7:0])`: "Bits 31:8 a 0". -/
def zeroExtendByte (v : Word) : Word := (v.extractLsb' 0 8).setWidth 32

/-- `sxth Rd, Rm` (R230). -/
def execSxth (rd rm : LoReg) (s : State) : Result :=
  .next (s.setLo rd (signExtendHalf (s.lo rm))).advance

/-- `sxtb Rd, Rm` (R231). -/
def execSxtb (rd rm : LoReg) (s : State) : Result :=
  .next (s.setLo rd (signExtendByte (s.lo rm))).advance

/-- `uxth Rd, Rm` (R232). -/
def execUxth (rd rm : LoReg) (s : State) : Result :=
  .next (s.setLo rd (zeroExtendHalf (s.lo rm))).advance

/-- `uxtb Rd, Rm` (R233). -/
def execUxtb (rd rm : LoReg) (s : State) : Result :=
  .next (s.setLo rd (zeroExtendByte (s.lo rm))).advance

end Sys2Proof.Machine
end

