-- ==== Sys2Proof/Machine/LoadStore.lean ====
section
/-! DEFINITION. Loads and stores (spec/45_load_store.md): the effective address of R170, the access of
20_memory R43, the widths and extensions of 20_memory R47. No flag and no base register is written. -/

namespace Sys2Proof.Machine

/-- `x[Rd] <- extend(MemRead(ea, n))`; a fault changes nothing (R170). -/
def State.loadTo (s : State) (rd : LoReg) (ea : Word) (n : Nat) (extend : Word → Word) : Result :=
  match s.memRead ea n with
  | .error e => e.take
  | .ok v => .next (s.setLo rd (extend v)).advance

/-- `MemWrite(ea, n, x[Rd])`: only the low `8n` bits of the register are stored (R170, 20_memory R43). -/
def State.storeFrom (s : State) (rd : LoReg) (ea : Word) (n : Nat) : Result :=
  match s.memWrite ea n (s.lo rd) with
  | .error e => e.take
  | .ok t => .next t.advance

/-- `ldr Rd, [Rn, #Inm]` (R171). -/
def execLdrImm (rd rn : LoReg) (imm5 : BitVec 5) (s : State) : Result :=
  s.loadTo rd (s.eaImm rn (immWords imm5)) 4 id

/-- `ldrh Rd, [Rn, #Inm]` (R172). -/
def execLdrhImm (rd rn : LoReg) (imm5 : BitVec 5) (s : State) : Result :=
  s.loadTo rd (s.eaImm rn (immHalves imm5)) 2 zeroExtendHalf

/-- `ldrb Rd, [Rn, #Inm]` (R173). -/
def execLdrbImm (rd rn : LoReg) (imm5 : BitVec 5) (s : State) : Result :=
  s.loadTo rd (s.eaImm rn (immPlain imm5)) 1 zeroExtendByte

/-- `ldr Rd, [Rn, Rm]` (R174). -/
def execLdrReg (rd rn rm : LoReg) (s : State) : Result :=
  s.loadTo rd (s.eaReg rn rm) 4 id

/-- `ldrh Rd, [Rn, Rm]` (R175). -/
def execLdrhReg (rd rn rm : LoReg) (s : State) : Result :=
  s.loadTo rd (s.eaReg rn rm) 2 zeroExtendHalf

/-- `ldrsh Rd, [Rn, Rm]` (R176). -/
def execLdrshReg (rd rn rm : LoReg) (s : State) : Result :=
  s.loadTo rd (s.eaReg rn rm) 2 signExtendHalf

/-- `ldrb Rd, [Rn, Rm]` (R177). -/
def execLdrbReg (rd rn rm : LoReg) (s : State) : Result :=
  s.loadTo rd (s.eaReg rn rm) 1 zeroExtendByte

/-- `ldrsb Rd, [Rn, Rm]` (R178; the card's `ldrnb` is a misprint, 90_conflicts C1). -/
def execLdrsbReg (rd rn rm : LoReg) (s : State) : Result :=
  s.loadTo rd (s.eaReg rn rm) 1 signExtendByte

/-- `ldr Rd, [PC, #Inm]` (R179). -/
def execLdrPc (rd : LoReg) (imm8 : BitVec 8) (s : State) : Result :=
  s.loadTo rd (s.eaPc (immWords imm8)) 4 id

/-- `ldr Rd, [SP, #Inm]` (R180; a load, 90_conflicts C2). -/
def execLdrSp (rd : LoReg) (imm8 : BitVec 8) (s : State) : Result :=
  s.loadTo rd (s.eaSp (immWords imm8)) 4 id

/-- `str Rd, [Rn, #Inm]` (R181). -/
def execStrImm (rd rn : LoReg) (imm5 : BitVec 5) (s : State) : Result :=
  s.storeFrom rd (s.eaImm rn (immWords imm5)) 4

/-- `strh Rd, [Rn, #Inm]` (R182). -/
def execStrhImm (rd rn : LoReg) (imm5 : BitVec 5) (s : State) : Result :=
  s.storeFrom rd (s.eaImm rn (immHalves imm5)) 2

/-- `strb Rd, [Rn, #Inm]` (R183). -/
def execStrbImm (rd rn : LoReg) (imm5 : BitVec 5) (s : State) : Result :=
  s.storeFrom rd (s.eaImm rn (immPlain imm5)) 1

/-- `str Rd, [Rn, Rm]` (R184). -/
def execStrReg (rd rn rm : LoReg) (s : State) : Result :=
  s.storeFrom rd (s.eaReg rn rm) 4

/-- `strh Rd, [Rn, Rm]` (R185). -/
def execStrhReg (rd rn rm : LoReg) (s : State) : Result :=
  s.storeFrom rd (s.eaReg rn rm) 2

/-- `strb Rd, [Rn, Rm]` (R186). -/
def execStrbReg (rd rn rm : LoReg) (s : State) : Result :=
  s.storeFrom rd (s.eaReg rn rm) 1

/-- `str Rd, [SP, #Inm]` (R187). -/
def execStrSp (rd : LoReg) (imm8 : BitVec 8) (s : State) : Result :=
  s.storeFrom rd (s.eaSp (immWords imm8)) 4

end Sys2Proof.Machine
end

