-- ==== Sys2Proof/Machine/Logic.lean ====
section
/-! DEFINITION. The logical instructions (spec/43_logic.md): N and Z from the result, C and V kept. -/

namespace Sys2Proof.Machine

/-- The shared tail of R140 to R144: `x[Rd] <- r; SetNZ(r)`. -/
def State.writeLogic (s : State) (rd : LoReg) (r : Word) : State :=
  ((s.setLo rd r).setNZ r).advance

/-- `and Rd, Rm` (R140). -/
def execAndReg (rd rm : LoReg) (s : State) : Result :=
  .next (s.writeLogic rd (s.lo rd &&& s.lo rm))

/-- `bic Rd, Rm` (R141). -/
def execBicReg (rd rm : LoReg) (s : State) : Result :=
  .next (s.writeLogic rd (s.lo rd &&& ~~~(s.lo rm)))

/-- `orr Rd, Rm` (R142). -/
def execOrrReg (rd rm : LoReg) (s : State) : Result :=
  .next (s.writeLogic rd (s.lo rd ||| s.lo rm))

/-- `eor Rd, Rm` (R143). -/
def execEorReg (rd rm : LoReg) (s : State) : Result :=
  .next (s.writeLogic rd (s.lo rd ^^^ s.lo rm))

/-- `mvn Rd, Rm` (R144). -/
def execMvnReg (rd rm : LoReg) (s : State) : Result :=
  .next (s.writeLogic rd (~~~(s.lo rm)))

/-- `tst Rn, Rm` (R145): no register written. -/
def execTst (rn rm : LoReg) (s : State) : Result :=
  .next (s.setNZ (s.lo rn &&& s.lo rm)).advance

end Sys2Proof.Machine
end

