-- ==== Sys2Proof/Machine/Move.lean ====
section
/-! DEFINITION. The move instructions (spec/40_move.md). -/

namespace Sys2Proof.Machine

/-- `mov Rd, #Inm8` (R100). -/
def execMovImm (rd : LoReg) (imm8 : BitVec 8) (s : State) : Result :=
  let r := immPlain imm8
  .next ((s.setLo rd r).setNZ r).advance

/-- `mov Rd, Rm` with both registers low (R101). -/
def execMovLo (rd rm : LoReg) (s : State) : Result :=
  let r := s.lo rm
  .next ((s.setLo rd r).setNZ r).advance

/-- `mov Rd, Rm` with a high register (R102): no flag; a write of the PC ignores bit 0 (10_state R26). -/
def execMovHi (rd rm : Reg) (s : State) : Result :=
  let v := s.reg rm
  if rd = Reg.pc then .next (s.jump (clearBit0 v)) else .next (s.setReg rd v).advance

end Sys2Proof.Machine
end

