-- ==== Sys2Proof/Machine/MultiplyCompare.lean ====
section
/-! DEFINITION. Multiply and compare (spec/42_multiply_compare.md). A compare writes no register (R132). -/

namespace Sys2Proof.Machine

/-- `mul Rd, Rm, Rd` (R130): the low 32 bits; C and V keep their values (log 17). -/
def execMul (rd rm : LoReg) (s : State) : Result :=
  let r : Word := BitVec.ofNat 32 ((s.lo rm).toNat * (s.lo rd).toNat)
  .next ((s.setLo rd r).setNZ r).advance

/-- `cmp Rn, Rm`, both low (R131). -/
def execCmpLo (rn rm : LoReg) (s : State) : Result :=
  .next (s.setNZCV (subFlags (s.lo rn) (s.lo rm))).advance

/-- `cmp Rn, Rm`, at least one high (R133): refused with the PC as either operand. -/
def execCmpHi (rn rm : Reg) (s : State) : Result :=
  if rn = Reg.pc ∨ rm = Reg.pc then (Stop.refuse (.unpredictable .cmpWithPc)).take
  else .next (s.setNZCV (subFlags (s.reg rn) (s.reg rm))).advance

/-- `cmn Rn, Rm` (R134). -/
def execCmn (rn rm : LoReg) (s : State) : Result :=
  .next (s.setNZCV (addFlags (s.lo rn) (s.lo rm))).advance

/-- `cmp Rn, #Inm8` (R135). -/
def execCmpImm (rn : LoReg) (imm8 : BitVec 8) (s : State) : Result :=
  .next (s.setNZCV (subFlags (s.lo rn) (immPlain imm8))).advance

end Sys2Proof.Machine
end

