-- ==== Sys2Proof/Machine/PushPop.lean ====
section
/-! DEFINITION. The stack instructions (spec/46_push_pop.md). All checks come before any change (R200
item 6, 20_memory R56). -/

namespace Sys2Proof.Machine

/-- Where a `push` of `n` registers puts the lowest word: `SP - 4n`, modulo 2^32 (R200 items 3, 4). -/
def State.pushBase (s : State) (n : Nat) : Word := s.reg Reg.sp - BitVec.ofNat 32 (4 * n)

/-- Where a `pop` of `n` registers leaves SP: `SP + 4n`, modulo 2^32 (R200 item 4). -/
def State.popEnd (s : State) (n : Nat) : Word := s.reg Reg.sp + BitVec.ofNat 32 (4 * n)

/-- `push` of the registers of an ascending list (R200, R201, R202). -/
def State.pushRegs (s : State) (l : List Reg) : Result :=
  let base := s.pushBase l.length
  match checkAll (fun a => s.checkWrite a 4) (slots base l.length) with
  | .error e => e.take
  | .ok _ =>
    let t : State := { s with mem := Memory.storeWords s.mem base (l.map s.reg) }
    .next (t.setReg Reg.sp base).advance

/-- `push <loreglist>` (R201): an empty list is refused. -/
def execPush (rlist : BitVec 8) (s : State) : Result :=
  if rlist = 0#8 then (Stop.refuse (.unpredictable .emptyRegisterList)).take
  else s.pushRegs (loRegList rlist)

/-- `push <loreglist+LR>` (R202): LR lies highest. -/
def execPushLr (rlist : BitVec 8) (s : State) : Result :=
  s.pushRegs (loRegList rlist ++ [Reg.lr])

/-- `pop <loreglist>` (R203): an empty list is refused. -/
def execPop (rlist : BitVec 8) (s : State) : Result :=
  if rlist = 0#8 then (Stop.refuse (.unpredictable .emptyRegisterList)).take
  else
    let l := loRegList rlist
    let base := s.reg Reg.sp
    match checkAll (fun a => s.checkRead a 4) (slots base l.length) with
    | .error e => e.take
    | .ok _ =>
      let t := s.setRegs l (Memory.loadWords s.mem base l.length)
      .next (t.setReg Reg.sp (s.popEnd l.length)).advance

/-- `pop <loreglist+PC>` (R204): the word for the PC lies highest; its bit 0 must be `LR_BIT0`, and the
jump clears it. -/
def execPopPc (rlist : BitVec 8) (s : State) : Result :=
  let l := loRegList rlist
  let n := l.length + 1
  let base := s.reg Reg.sp
  match checkAll (fun a => s.checkRead a 4) (slots base n) with
  | .error e => e.take
  | .ok _ =>
    let t := Memory.loadBytes s.mem (base + BitVec.ofNat 32 (4 * l.length)) 4
    if t.extractLsb' 0 1 ≠ s.platform.lrBit0 then (Stop.refuse (.unpredictable .popPcBit0)).take
    else
      let u := s.setRegs l (Memory.loadWords s.mem base l.length)
      .next ((u.setReg Reg.sp (s.popEnd n)).jump (clearBit0 t))

end Sys2Proof.Machine
end

