-- ==== Sys2Proof/Machine/Shift.lean ====
section
/-! DEFINITION. Shifts and rotates (spec/44_shift.md): the value and carry of `Shift_C` (R150). -/

namespace Sys2Proof.Machine

/-- The shared tail of R151 to R157: `x[Rd] <- r; SetNZ(r)`, and C unless it is unchanged. -/
def State.writeShift (s : State) (rd : LoReg) (r : ShiftResult) : State :=
  ((s.setLo rd r.result).setShift r).advance

/-- `lsl Rd, Rm, #Shift` (R151). -/
def execLslImm (rd rm : LoReg) (imm5 : BitVec 5) (s : State) : Result :=
  .next (s.writeShift rd (shiftC .lsl (s.lo rm) imm5.toNat))

/-- `lsr Rd, Rm, #Shift` (R153): a field of 0 is an amount of 32 (30_encoding R91). -/
def execLsrImm (rd rm : LoReg) (imm5 : BitVec 5) (s : State) : Result :=
  .next (s.writeShift rd (shiftC .lsr (s.lo rm) (rightShiftAmount imm5)))

/-- `asr Rd, Rm, #Shift` (R155): a field of 0 is an amount of 32 (30_encoding R91). -/
def execAsrImm (rd rm : LoReg) (imm5 : BitVec 5) (s : State) : Result :=
  .next (s.writeShift rd (shiftC .asr (s.lo rm) (rightShiftAmount imm5)))

/-- `lsl Rd, Rd, Rs` (R152). -/
def execLslReg (rd rs : LoReg) (s : State) : Result :=
  .next (s.writeShift rd (shiftC .lsl (s.lo rd) (s.shiftAmount rs)))

/-- `lsr Rd, Rd, Rs` (R154). -/
def execLsrReg (rd rs : LoReg) (s : State) : Result :=
  .next (s.writeShift rd (shiftC .lsr (s.lo rd) (s.shiftAmount rs)))

/-- `asr Rd, Rd, Rs` (R156). -/
def execAsrReg (rd rs : LoReg) (s : State) : Result :=
  .next (s.writeShift rd (shiftC .asr (s.lo rd) (s.shiftAmount rs)))

/-- `ror Rd, Rd, Rs` (R157). -/
def execRorReg (rd rs : LoReg) (s : State) : Result :=
  .next (s.writeShift rd (shiftC .ror (s.lo rd) (s.shiftAmount rs)))

end Sys2Proof.Machine
end

