-- ==== Sys2Proof/Machine/Dispatch.lean ====
section
/-! DEFINITION. One arm per instruction, each a direct call of its meaning. -/

namespace Sys2Proof.Machine

/-- The meaning of an instruction (00_scope R14). -/
def exec (i : Instr) (s : State) : Host.Outcome State Fault Refusal :=
  match i with
  | .movLo rd rm => Sys2Proof.Machine.execMovLo rd rm s
  | .lslImm rd rm imm5 => Sys2Proof.Machine.execLslImm rd rm imm5 s
  | .lsrImm rd rm imm5 => Sys2Proof.Machine.execLsrImm rd rm imm5 s
  | .asrImm rd rm imm5 => Sys2Proof.Machine.execAsrImm rd rm imm5 s
  | .addLo rd rn rm => Sys2Proof.Machine.execAddLo rd rn rm s
  | .subLo rd rn rm => Sys2Proof.Machine.execSubLo rd rn rm s
  | .addImm3 rd rn imm3 => Sys2Proof.Machine.execAddImm3 rd rn imm3 s
  | .subImm3 rd rn imm3 => Sys2Proof.Machine.execSubImm3 rd rn imm3 s
  | .movImm rd imm8 => Sys2Proof.Machine.execMovImm rd imm8 s
  | .cmpImm rn imm8 => Sys2Proof.Machine.execCmpImm rn imm8 s
  | .addImm8 rd imm8 => Sys2Proof.Machine.execAddImm8 rd imm8 s
  | .subImm8 rd imm8 => Sys2Proof.Machine.execSubImm8 rd imm8 s
  | .andReg rd rm => Sys2Proof.Machine.execAndReg rd rm s
  | .eorReg rd rm => Sys2Proof.Machine.execEorReg rd rm s
  | .lslReg rd rs => Sys2Proof.Machine.execLslReg rd rs s
  | .lsrReg rd rs => Sys2Proof.Machine.execLsrReg rd rs s
  | .asrReg rd rs => Sys2Proof.Machine.execAsrReg rd rs s
  | .rorReg rd rs => Sys2Proof.Machine.execRorReg rd rs s
  | .tst rn rm => Sys2Proof.Machine.execTst rn rm s
  | .neg rd rn => Sys2Proof.Machine.execNeg rd rn s
  | .cmpLo rn rm => Sys2Proof.Machine.execCmpLo rn rm s
  | .cmn rn rm => Sys2Proof.Machine.execCmn rn rm s
  | .orrReg rd rm => Sys2Proof.Machine.execOrrReg rd rm s
  | .mul rd rm => Sys2Proof.Machine.execMul rd rm s
  | .bicReg rd rm => Sys2Proof.Machine.execBicReg rd rm s
  | .mvnReg rd rm => Sys2Proof.Machine.execMvnReg rd rm s
  | .addHi rd rm => Sys2Proof.Machine.execAddHi rd rm s
  | .cmpHi rn rm => Sys2Proof.Machine.execCmpHi rn rm s
  | .movHi rd rm => Sys2Proof.Machine.execMovHi rd rm s
  | .ldrPc rd imm8 => Sys2Proof.Machine.execLdrPc rd imm8 s
  | .strReg rd rn rm => Sys2Proof.Machine.execStrReg rd rn rm s
  | .strhReg rd rn rm => Sys2Proof.Machine.execStrhReg rd rn rm s
  | .strbReg rd rn rm => Sys2Proof.Machine.execStrbReg rd rn rm s
  | .ldrsbReg rd rn rm => Sys2Proof.Machine.execLdrsbReg rd rn rm s
  | .ldrReg rd rn rm => Sys2Proof.Machine.execLdrReg rd rn rm s
  | .ldrhReg rd rn rm => Sys2Proof.Machine.execLdrhReg rd rn rm s
  | .ldrbReg rd rn rm => Sys2Proof.Machine.execLdrbReg rd rn rm s
  | .ldrshReg rd rn rm => Sys2Proof.Machine.execLdrshReg rd rn rm s
  | .strImm rd rn imm5 => Sys2Proof.Machine.execStrImm rd rn imm5 s
  | .ldrImm rd rn imm5 => Sys2Proof.Machine.execLdrImm rd rn imm5 s
  | .strbImm rd rn imm5 => Sys2Proof.Machine.execStrbImm rd rn imm5 s
  | .ldrbImm rd rn imm5 => Sys2Proof.Machine.execLdrbImm rd rn imm5 s
  | .strhImm rd rn imm5 => Sys2Proof.Machine.execStrhImm rd rn imm5 s
  | .ldrhImm rd rn imm5 => Sys2Proof.Machine.execLdrhImm rd rn imm5 s
  | .strSp rd imm8 => Sys2Proof.Machine.execStrSp rd imm8 s
  | .ldrSp rd imm8 => Sys2Proof.Machine.execLdrSp rd imm8 s
  | .addRdSp rd imm8 => Sys2Proof.Machine.execAddRdSp rd imm8 s
  | .addSp imm7 => Sys2Proof.Machine.execAddSp imm7 s
  | .subSp imm7 => Sys2Proof.Machine.execSubSp imm7 s
  | .sxth rd rm => Sys2Proof.Machine.execSxth rd rm s
  | .sxtb rd rm => Sys2Proof.Machine.execSxtb rd rm s
  | .uxth rd rm => Sys2Proof.Machine.execUxth rd rm s
  | .uxtb rd rm => Sys2Proof.Machine.execUxtb rd rm s
  | .push rlist => Sys2Proof.Machine.execPush rlist s
  | .pushLr rlist => Sys2Proof.Machine.execPushLr rlist s
  | .pop rlist => Sys2Proof.Machine.execPop rlist s
  | .popPc rlist => Sys2Proof.Machine.execPopPc rlist s
  | .bCond cond imm8 => Sys2Proof.Machine.execBCond cond imm8 s
  | .b imm11 => Sys2Proof.Machine.execB imm11 s
  | .bl immhi immlo => Sys2Proof.Machine.execBl immhi immlo s

end Sys2Proof.Machine
end

