-- ==== Sys2Proof/Machine/Step.lean ====
section
/-! DEFINITION. One step of the machine (00_scope R14, 60 R240): fetch the instruction at `pc`, decode it,
execute its rule. -/

namespace Sys2Proof.Machine

/-- A step: three outcomes (60 R240). The end of a run is no outcome of a step (70 R263; see `run`). -/
def step (s : State) : Host.Outcome State Fault Refusal :=
  match s.fetchInstr with
  | .error e => e.take
  | .ok i => exec i s

/-- The instruction whose bits spec/opcode_table.json writes as `w`, stored where `step` fetches: its
first halfword at `pc`, the one after it at `pc + 2`, both in `TEXT` (log 8). -/
def State.withFetchWord (s : State) (nbits w : Nat) : State :=
  let hs := tableHalfwords nbits w
  (s.placeHalf s.pc hs.1).placeHalf (s.pc + 2#32) hs.2

end Sys2Proof.Machine
end

