-- ==== Sys2Proof/Machine/Assembler.lean ====
section
/-! DEFINITION. The assembler level of the card, above the machine: operand ranges (30_encoding R81), the
choice of a line's form by the registers written (40 R101, 42 R131) and of its encoding (R90, R91, R96),
the register list as a set (46 R200) and the 18 directives (R97). None of it is machine state; it makes the memory a program is launched with (70 R262).
Source text is taken already split into lines and operands (R95). What R97 leaves open about the
directives, the zones and the names is the model's choice (log 24, log 31), as is said where it is
settled. -/

namespace Sys2Proof.Machine

/-- A register operand as written: by number, or an alias defined with `.req` (R95, R97). -/
inductive RegOp where
  | num (r : Reg)
  | named (name : String)
deriving DecidableEq, Repr

/-- A value as written: a number, or a symbol (a label, or a name given by `.equ` and the like). DESIGN
CHOICE, safe (log 33): every `expr` and `valor` of a directive, every immediate and every label operand is
one of these, with no operators; the spec gives no grammar of expressions (R95, R97; 91 N16). -/
inductive Expr where
  | num (v : Int)
  | sym (name : String)
deriving DecidableEq, Repr

/-- The card's instruction rows as source lines: registers, immediates and labels as written (R95), a
repeated register (`add Rd, Rd, #Inm8`, `mul Rd, Rm, Rd`) both times (R96). Rows of one spelling are one
line, whose form the assembler picks by the registers written: `mov Rd, Rm` (40 R101, R102), `add` and `sub`
(41 R110 to R119), `cmp Rn, Rm` (42 R131, R133), `ldr` and `str` with an immediate offset (45 R171, R179 to
R181, R187), `push` and `pop` (46 R201 to R204). -/
inductive AsmInstr where
  | movImm (rd : RegOp) (imm : Expr)
  | mov (rd rm : RegOp)
  | addImm (rd rn : RegOp) (imm : Expr)
  | add (rd rn rm : RegOp)
  | subImm (rd rn : RegOp) (imm : Expr)
  | sub (rd rn rm : RegOp)
  | neg (rd rn : RegOp)
  | mul (rd rm rd' : RegOp)
  | cmp (rn rm : RegOp)
  | cmn (rn rm : RegOp)
  | cmpImm (rn : RegOp) (imm : Expr)
  | andReg (rd rm : RegOp)
  | bicReg (rd rm : RegOp)
  | orrReg (rd rm : RegOp)
  | eorReg (rd rm : RegOp)
  | mvnReg (rd rm : RegOp)
  | tst (rn rm : RegOp)
  | lslImm (rd rm : RegOp) (shift : Expr)
  | lslReg (rd rd' rs : RegOp)
  | lsrImm (rd rm : RegOp) (shift : Expr)
  | lsrReg (rd rd' rs : RegOp)
  | asrImm (rd rm : RegOp) (shift : Expr)
  | asrReg (rd rd' rs : RegOp)
  | rorReg (rd rd' rs : RegOp)
  | ldrImm (rd rn : RegOp) (imm : Expr)
  | ldrhImm (rd rn : RegOp) (imm : Expr)
  | ldrbImm (rd rn : RegOp) (imm : Expr)
  | ldrReg (rd rn rm : RegOp)
  | ldrhReg (rd rn rm : RegOp)
  | ldrshReg (rd rn rm : RegOp)
  | ldrbReg (rd rn rm : RegOp)
  | ldrsbReg (rd rn rm : RegOp)
  | strImm (rd rn : RegOp) (imm : Expr)
  | strhImm (rd rn : RegOp) (imm : Expr)
  | strbImm (rd rn : RegOp) (imm : Expr)
  | strReg (rd rn rm : RegOp)
  | strhReg (rd rn rm : RegOp)
  | strbReg (rd rn rm : RegOp)
  | push (list : List RegOp)
  | pop (list : List RegOp)
  | bCond (cond : Cond) (label : Expr)
  | b (label : Expr)
  | bl (label : Expr)
  | sxth (rd rm : RegOp)
  | sxtb (rd rm : RegOp)
  | uxth (rd rm : RegOp)
  | uxtb (rd rm : RegOp)
deriving DecidableEq, Repr

/-- The names the assembler knows: symbols given by `.equ` and the like with their values, newest first,
labels with their addresses, and register aliases. While labels are being collected, a name not known yet
may be a label that comes later. DESIGN CHOICE, safe (log 31): aliases are names of their own kind, and of
two `.req` of one alias, or two `.equ` of one symbol, the newest counts, and `.unreq` of a name
that is no alias does nothing; the spec states none of this (91 N16). -/
structure AsmEnv where
  symbols : List (String × Int)
  labels : List (String × Nat)
  aliases : List (String × Reg)
  collecting : Bool
deriving DecidableEq, Repr

/-- The first entry of a name. -/
def findName {β : Type} (name : String) : List (String × β) → Option β
  | [] => none
  | (k, v) :: rest => if k = name then some v else findName name rest

/-- The value of an expression; an unknown name is an assembly error, once the labels are known. DESIGN
CHOICE, safe (log 33): a symbol of `.equ` and the like is known from its line on, so its use on an earlier
line is such an error, while a label that comes later is found; the spec states neither (R97, 91 N16). -/
def AsmEnv.value (env : AsmEnv) : Expr → Option Int
  | .num v => some v
  | .sym n =>
    match findName n env.symbols, findName n env.labels with
    | some v, _ => some v
    | none, some a => some a
    | none, none => if env.collecting then some 0 else none

/-- A name is already a symbol or a label. -/
def AsmEnv.defines (env : AsmEnv) (name : String) : Bool :=
  (findName name env.symbols).isSome || (findName name env.labels).isSome

/-- The register of an operand. -/
def AsmEnv.reg (env : AsmEnv) : RegOp → Option Reg
  | .num r => some r
  | .named n => findName n env.aliases

/-- A low register operand; a high one is an assembly error (10_state R21). -/
def AsmEnv.low (env : AsmEnv) (r : RegOp) : Option LoReg :=
  match env.reg r with
  | some q => if q.isLow then some (q.setWidth 3) else none
  | none => none

/-- A low register written twice: "the two written registers must be the same" (R96). -/
def AsmEnv.twice (env : AsmEnv) (r r' : RegOp) : Option LoReg :=
  if env.reg r = env.reg r' then env.low r else none

/-- The field of an unsigned immediate: in range and a multiple of the step, or an assembly error
(R81). -/
def immField (w step : Nat) (v : Int) : Option (BitVec w) :=
  if 0 ≤ v ∧ v % step = 0 ∧ v / step < 2 ^ w then some (BitVec.ofNat w (v / step).toNat) else none

/-- The field of an immediate operand. -/
def AsmEnv.imm (env : AsmEnv) (w step : Nat) (e : Expr) : Option (BitVec w) :=
  match env.value e with
  | some v => immField w step v
  | none => none

/-- The field of a branch at `a` to `label`: `((label - (a + 4)) / 2)[w-1:0]`, both addresses even (47 R212
to R214, 20_memory R45) and the offset inside the signed field (R81; 90_conflicts C7). The distance is
taken modulo 2^32, as the branch takes it (log 27). -/
def offsetField (w : Nat) (a label : Word) : Option (BitVec w) :=
  let off := label - (a + 4#32)
  if a.toNat % 2 = 0 ∧ label.toNat % 2 = 0 ∧
      -(2 ^ w : Int) ≤ off.toInt ∧ off.toInt < (2 ^ w : Int) then
    some (BitVec.ofInt w (off.toInt / 2))
  else none

/-- The address that a value stands for: one of the 2^32 of 20_memory R40, or an assembly error (R81). -/
def addressOf (v : Int) : Option Word :=
  if 0 ≤ v ∧ v < 2 ^ 32 then some (BitVec.ofInt 32 v) else none

/-- The field of a branch operand. -/
def AsmEnv.offset (env : AsmEnv) (w : Nat) (a : Word) (e : Expr) : Option (BitVec w) :=
  match (env.value e).bind addressOf with
  | some label => offsetField w a label
  | none => none

/-- A register list as a set, in no order (46 R200 item 2): whether `extra` (LR or PC) is in it, and the
`rlist` field of its low registers. Any other high register is an assembly error. -/
def AsmEnv.regList (env : AsmEnv) (extra : Reg) : List RegOp → Option (Bool × BitVec 8)
  | [] => some (false, 0#8)
  | r :: rs =>
    match env.reg r, env.regList extra rs with
    | some q, some (e, l) =>
      if q = extra then some (true, l)
      else if q.isLow then some (e, l ||| BitVec.twoPow 8 q.toNat)
      else none
    | _, _ => none

/-- An instruction the opcode table has a word for, or an assembly error (00_scope R15). -/
def checked (i : Instr) : Option Instr := if i.wellFormed then some i else none

/-- `lsr` and `asr` by `#0` are assembled as `lsl Rd, Rm, #0`, which is `mov Rd, Rm` (R90, R91, R96). -/
def shiftImm (mk : BitVec 5 → Instr) (rd rm : LoReg) (n : BitVec 5) : Instr :=
  if n = 0#5 then .movLo rd rm else mk n

/-! ### The form of a line, by the registers written -/

/-- `mov Rd, Rm`: "both low: this rule; at least one high: rule R102" (40 R101). -/
def pickMov (rd rm : Reg) : Instr :=
  if rd.isLow && rm.isLow then .movLo (rd.setWidth 3) (rm.setWidth 3) else .movHi rd rm

/-- `cmp Rn, Rm`: both low (42 R131), or at least one high and neither the PC (R133). -/
def pickCmp (rn rm : Reg) : Option Instr :=
  if rn.isLow && rm.isLow then some (.cmpLo (rn.setWidth 3) (rm.setWidth 3))
  else if rn = Reg.pc ∨ rm = Reg.pc then none
  else some (.cmpHi rn rm)

/-- `add Rd, Rn, Rm`: all low (41 R112), or `Rd` written twice and at least one high (R113). -/
def pickAdd (rd rn rm : Reg) : Option Instr :=
  if rd.isLow && rn.isLow && rm.isLow then
    some (.addLo (rd.setWidth 3) (rn.setWidth 3) (rm.setWidth 3))
  else if rd = rn then some (.addHi rd rm)
  else none

/-- `add` with an immediate: to SP (41 R114), from SP to a low register (R115), or between low registers.
DEDUCED, safe (log 33): a low register written twice takes the 8-bit form (R111) and not the 3-bit one
(R110), as the words of 95_test_vectors do (`add r0, r0, #1` is 0x3001); their effects are the same. -/
def AsmEnv.pickAddImm (env : AsmEnv) (rd rn : Reg) (n : Expr) : Option Instr :=
  if rn = Reg.sp then
    if rd = Reg.sp then (env.imm 7 4 n).map .addSp
    else if rd.isLow then (env.imm 8 4 n).map (.addRdSp (rd.setWidth 3))
    else none
  else if rd.isLow && rn.isLow then
    if rd = rn then (env.imm 8 1 n).map (.addImm8 (rd.setWidth 3))
    else (env.imm 3 1 n).map (.addImm3 (rd.setWidth 3) (rn.setWidth 3))
  else none

/-- `sub` with an immediate: from SP (41 R119), or between low registers, the 8-bit form (R117) where one is
written twice and the 3-bit form (R116) where not (log 33, as for `add`). -/
def AsmEnv.pickSubImm (env : AsmEnv) (rd rn : Reg) (n : Expr) : Option Instr :=
  if rd = Reg.sp ∧ rn = Reg.sp then (env.imm 7 4 n).map .subSp
  else if rd.isLow && rn.isLow then
    if rd = rn then (env.imm 8 1 n).map (.subImm8 (rd.setWidth 3))
    else (env.imm 3 1 n).map (.subImm3 (rd.setWidth 3) (rn.setWidth 3))
  else none

/-- `ldr Rd, [base, #Inm]`: relative to the PC (45 R179), to SP (R180), or to a low register (R171). -/
def AsmEnv.pickLdrImm (env : AsmEnv) (rd : LoReg) (base : Reg) (n : Expr) : Option Instr :=
  if base = Reg.pc then (env.imm 8 4 n).map (.ldrPc rd)
  else if base = Reg.sp then (env.imm 8 4 n).map (.ldrSp rd)
  else if base.isLow then (env.imm 5 4 n).map (.ldrImm rd (base.setWidth 3))
  else none

/-- `str Rd, [base, #Inm]`: relative to SP (45 R187), or to a low register (R181). -/
def AsmEnv.pickStrImm (env : AsmEnv) (rd : LoReg) (base : Reg) (n : Expr) : Option Instr :=
  if base = Reg.sp then (env.imm 8 4 n).map (.strSp rd)
  else if base.isLow then (env.imm 5 4 n).map (.strImm rd (base.setWidth 3))
  else none

/-- `push`: with LR (46 R202) or without (R201); without it an empty list has no word. -/
def pickPush (lr : Bool) (rlist : BitVec 8) : Option Instr :=
  if lr then some (.pushLr rlist) else checked (.push rlist)

/-- `pop`: with PC (46 R204) or without (R203); without it an empty list has no word. -/
def pickPop (pc : Bool) (rlist : BitVec 8) : Option Instr :=
  if pc then some (.popPc rlist) else checked (.pop rlist)

/-- The instruction a source line at address `a` stands for; `none` is an assembly error: "the form does
not exist" (R81). -/
def assembleInstr (env : AsmEnv) (a : Word) : AsmInstr → Option Instr
  | .movImm rd n => do return .movImm (← env.low rd) (← env.imm 8 1 n)
  | .mov rd rm => do return pickMov (← env.reg rd) (← env.reg rm)
  | .addImm rd rn n => do env.pickAddImm (← env.reg rd) (← env.reg rn) n
  | .add rd rn rm => do pickAdd (← env.reg rd) (← env.reg rn) (← env.reg rm)
  | .subImm rd rn n => do env.pickSubImm (← env.reg rd) (← env.reg rn) n
  | .sub rd rn rm => do return .subLo (← env.low rd) (← env.low rn) (← env.low rm)
  | .neg rd rn => do return .neg (← env.low rd) (← env.low rn)
  | .mul rd rm rd' => do return .mul (← env.twice rd rd') (← env.low rm)
  | .cmp rn rm => do pickCmp (← env.reg rn) (← env.reg rm)
  | .cmn rn rm => do return .cmn (← env.low rn) (← env.low rm)
  | .cmpImm rn n => do return .cmpImm (← env.low rn) (← env.imm 8 1 n)
  | .andReg rd rm => do return .andReg (← env.low rd) (← env.low rm)
  | .bicReg rd rm => do return .bicReg (← env.low rd) (← env.low rm)
  | .orrReg rd rm => do return .orrReg (← env.low rd) (← env.low rm)
  | .eorReg rd rm => do return .eorReg (← env.low rd) (← env.low rm)
  | .mvnReg rd rm => do return .mvnReg (← env.low rd) (← env.low rm)
  | .tst rn rm => do return .tst (← env.low rn) (← env.low rm)
  | .lslImm rd rm n => do
    let x ← env.low rd
    let y ← env.low rm
    return shiftImm (.lslImm x y) x y (← env.imm 5 1 n)
  | .lslReg rd rd' rs => do return .lslReg (← env.twice rd rd') (← env.low rs)
  | .lsrImm rd rm n => do
    let x ← env.low rd
    let y ← env.low rm
    return shiftImm (.lsrImm x y) x y (← env.imm 5 1 n)
  | .lsrReg rd rd' rs => do return .lsrReg (← env.twice rd rd') (← env.low rs)
  | .asrImm rd rm n => do
    let x ← env.low rd
    let y ← env.low rm
    return shiftImm (.asrImm x y) x y (← env.imm 5 1 n)
  | .asrReg rd rd' rs => do return .asrReg (← env.twice rd rd') (← env.low rs)
  | .rorReg rd rd' rs => do return .rorReg (← env.twice rd rd') (← env.low rs)
  | .ldrImm rd rn n => do env.pickLdrImm (← env.low rd) (← env.reg rn) n
  | .ldrhImm rd rn n => do return .ldrhImm (← env.low rd) (← env.low rn) (← env.imm 5 2 n)
  | .ldrbImm rd rn n => do return .ldrbImm (← env.low rd) (← env.low rn) (← env.imm 5 1 n)
  | .ldrReg rd rn rm => do return .ldrReg (← env.low rd) (← env.low rn) (← env.low rm)
  | .ldrhReg rd rn rm => do return .ldrhReg (← env.low rd) (← env.low rn) (← env.low rm)
  | .ldrshReg rd rn rm => do return .ldrshReg (← env.low rd) (← env.low rn) (← env.low rm)
  | .ldrbReg rd rn rm => do return .ldrbReg (← env.low rd) (← env.low rn) (← env.low rm)
  | .ldrsbReg rd rn rm => do return .ldrsbReg (← env.low rd) (← env.low rn) (← env.low rm)
  | .strImm rd rn n => do env.pickStrImm (← env.low rd) (← env.reg rn) n
  | .strhImm rd rn n => do return .strhImm (← env.low rd) (← env.low rn) (← env.imm 5 2 n)
  | .strbImm rd rn n => do return .strbImm (← env.low rd) (← env.low rn) (← env.imm 5 1 n)
  | .strReg rd rn rm => do return .strReg (← env.low rd) (← env.low rn) (← env.low rm)
  | .strhReg rd rn rm => do return .strhReg (← env.low rd) (← env.low rn) (← env.low rm)
  | .strbReg rd rn rm => do return .strbReg (← env.low rd) (← env.low rn) (← env.low rm)
  | .push l => do
    let (lr, rlist) ← env.regList Reg.lr l
    pickPush lr rlist
  | .pop l => do
    let (pc, rlist) ← env.regList Reg.pc l
    pickPop pc rlist
  | .bCond c t => do return .bCond c (← env.offset 8 a t)
  | .b t => do return .b (← env.offset 11 a t)
  | .bl t => do
    let f ← env.offset 22 a t
    return .bl (f.extractLsb' 11 11) (f.extractLsb' 0 11)
  | .sxth rd rm => do return .sxth (← env.low rd) (← env.low rm)
  | .sxtb rd rm => do return .sxtb (← env.low rd) (← env.low rm)
  | .uxth rd rm => do return .uxth (← env.low rd) (← env.low rm)
  | .uxtb rd rm => do return .uxtb (← env.low rd) (← env.low rm)

/-- The bytes a source instruction takes: 2, and 4 for `bl` (R60). -/
def AsmInstr.size : AsmInstr → Nat
  | .bl _ => 4
  | _ => 2

/-- The 18 directives of the card (R97). DESIGN CHOICE, safe (log 33): the `N` of `.align`, `.balign` and
`.space` is a literal number, and a directive takes one value; the spec gives no grammar of operands. -/
inductive Directive where
  | align (n : Nat)
  | ascii (text : String)
  | asciz (text : String)
  | balign (n : Nat)
  | byte (v : Expr)
  | text
  | data
  | endOfSource
  | equ (name : String) (v : Expr)
  | equiv (name : String) (v : Expr)
  | eqv (name : String) (v : Expr)
  | hword (v : Expr)
  | quad (v : Expr)
  | req (name : String) (rd : RegOp)
  | set (name : String) (v : Expr)
  | space (n : Nat)
  | unreq (name : String)
  | word (v : Expr)
deriving DecidableEq, Repr

/-- A source line: a label, a directive or an instruction. -/
inductive Line where
  | label (name : String)
  | directive (d : Directive)
  | instr (i : AsmInstr)
deriving DecidableEq, Repr

/-- The assembler between two lines: the names known, the next address of each zone, which zone is open,
the bytes emitted, and whether `.end` has been read. -/
structure AsmState where
  env : AsmEnv
  inText : Bool
  textPos : Nat
  dataPos : Nat
  textBytes : List Host.Cell
  dataBytes : List Host.Cell
  ended : Bool
deriving DecidableEq, Repr

/-- The next address of the open zone. -/
def AsmState.pos (s : AsmState) : Nat := if s.inText then s.textPos else s.dataPos

/-- Bytes put at consecutive addresses. -/
def placeBytes (a : Nat) : List Byte → List Host.Cell
  | [] => []
  | b :: bs => (a, b) :: placeBytes (a + 1) bs

/-- Bytes emitted into the open zone. -/
def AsmState.emit (s : AsmState) (bs : List Byte) : AsmState :=
  if s.inText then
    { s with textPos := s.textPos + bs.length
             textBytes := s.textBytes ++ placeBytes s.textPos bs }
  else
    { s with dataPos := s.dataPos + bs.length
             dataBytes := s.dataBytes ++ placeBytes s.dataPos bs }

/-- The `n` bytes of a value, little-endian (R97, 20_memory R41). -/
def littleEndian (v : Int) : Nat → List Byte
  | 0 => []
  | n + 1 => BitVec.ofInt 8 v :: littleEndian (v / 256) n

/-- Emit an `n`-byte value. DESIGN CHOICE, safe (log 24): a value that fits neither the unsigned nor the
signed range is an assembly error; the card states no treatment (R97). DESIGN CHOICE, safe (log 31):
`.hword`, `.word` and `.quad` do not align themselves, they emit at the next address of the open zone
whatever it is; the card does not state whether they align (R97, 91 N16). -/
def AsmState.emitValue (s : AsmState) (n : Nat) (e : Expr) : Option AsmState :=
  match s.env.value e with
  | some v =>
    if -(2 ^ (8 * n - 1) : Int) ≤ v ∧ v < (2 ^ (8 * n) : Int) then some (s.emit (littleEndian v n))
    else none
  | none => none

/-- Pad the open zone up to a multiple of `n`; the padding bytes are free values (R97, log 24). DESIGN
CHOICE, safe (log 31): `.balign 0` is an assembly error; the spec does not say what it does. -/
def AsmState.pad (s : AsmState) (n : Nat) : Option AsmState :=
  if n = 0 then none
  else
    some (s.emit ((List.range ((n - s.pos % n) % n)).map (fun i => Config.padByte (s.pos + i))))

/-- `.equ` and `.set`. DESIGN CHOICE, safe (log 31): they may give a symbol another value, and giving a
label's name a value is an assembly error; the spec states no redefinition rule (91 N16). -/
def AsmState.assign (s : AsmState) (name : String) (e : Expr) : Option AsmState :=
  if (findName name s.env.labels).isSome then none
  else
    match s.env.value e with
    | some v => some { s with env := { s.env with symbols := (name, v) :: s.env.symbols } }
    | none => none

/-- `.equiv` and `.eqv`: an error if the symbol is already defined. -/
def AsmState.assignNew (s : AsmState) (name : String) (e : Expr) : Option AsmState :=
  if s.env.defines name then none else s.assign name e

/-- A label names the next address of the open zone; it is found while labels are being collected. DESIGN
CHOICE, safe (log 31): a label whose name is already a label or a symbol is an assembly error; the spec
does not say. -/
def AsmState.defineLabel (s : AsmState) (name : String) : Option AsmState :=
  if s.env.collecting then
    if s.env.defines name then none
    else some { s with env := { s.env with labels := (name, s.pos) :: s.env.labels } }
  else some s

/-- The UTF-8 bytes of a string (R97). -/
def utf8 (text : String) : List Byte :=
  text.toList.flatMap fun c => (String.utf8EncodeChar c).map fun b => BitVec.ofNat 8 b.toNat

/-- A directive (R97); `none` is an assembly error. -/
def assembleDirective (s : AsmState) : Directive → Option AsmState
  | .align n => s.pad (2 ^ n)
  | .ascii t => some (s.emit (utf8 t))
  | .asciz t => some (s.emit (utf8 t ++ [0#8]))
  | .balign n => s.pad n
  | .byte v => s.emitValue 1 v
  | .text => some { s with inText := true }
  | .data => some { s with inText := false }
  | .endOfSource => some { s with ended := true }
  | .equ name v => s.assign name v
  | .equiv name v => s.assignNew name v
  | .eqv name v => s.assignNew name v
  | .hword v => s.emitValue 2 v
  | .quad v => s.emitValue 8 v
  | .req name rd =>
    match s.env.reg rd with
    | some r => some { s with env := { s.env with aliases := (name, r) :: s.env.aliases } }
    | none => none
  | .set name v => s.assign name v
  | .space n => some (s.emit (List.replicate n 0#8))
  | .unreq name =>
    some { s with env := { s.env with aliases := s.env.aliases.filter (fun p => p.1 != name) } }
  | .word v => s.emitValue 4 v

/-- An instruction line. While labels are being collected it only takes its space: its operands may name a
label that comes later. DESIGN CHOICE, safe (log 31): at an odd address, as after `.byte` or `.ascii`, it
is an assembly error; "Every instruction starts at an even address" (20_memory R45, 00_scope R14), and the
spec does not say whether the assembler pads or rejects. -/
def AsmState.emitInstr (s : AsmState) (i : AsmInstr) : Option AsmState :=
  if s.pos % 2 ≠ 0 then none
  else if s.env.collecting then some (s.emit (List.replicate i.size 0#8))
  else
    match assembleInstr s.env (BitVec.ofNat 32 s.pos) i with
    | some j => some (s.emit (encodeBytes j))
    | none => none

/-- A line. -/
def assembleLine (s : AsmState) : Line → Option AsmState
  | .label name => s.defineLabel name
  | .directive d => assembleDirective s d
  | .instr i => s.emitInstr i

/-- The lines in order, up to `.end`: nothing after it is read (R97). -/
def assembleLines : AsmState → List Line → Option AsmState
  | s, [] => some s
  | s, l :: ls =>
    if s.ended then some s
    else
      match assembleLine s l with
      | some t => assembleLines t ls
      | none => none

/-- Before the first line. DESIGN CHOICE, safe (log 31): the code zone is open before the first `.text` or
`.data`; the spec does not say which is. -/
def AsmState.start (textBase dataBase : Nat) (env : AsmEnv) : AsmState where
  env := env
  inText := true
  textPos := textBase
  dataPos := dataBase
  textBytes := []
  dataBytes := []
  ended := false

/-- The zones are where memory can hold them: inside the address space (20_memory R40), no address in
both. DESIGN CHOICE, safe (log 31): a source that does not fit is an assembly error; "the initial placement
of the zones" is not stated (R97). -/
def AsmState.fits (s : AsmState) (textBase dataBase : Nat) : Bool :=
  decide (s.textPos ≤ 2 ^ 32) && decide (s.dataPos ≤ 2 ^ 32) &&
    (decide (s.textPos ≤ dataBase) || decide (s.dataPos ≤ textBase) ||
      decide (s.textPos = textBase) || decide (s.dataPos = dataBase))

/-- Assemble a source into the two zones, placed at `TEXT_BASE` and `DATA_BASE` (20_memory R49): first the
labels, then the bytes. The second pass starts with the labels and no symbol (log 33). -/
def assemble (textBase dataBase : Nat) (src : List Line) : Option AsmState :=
  match assembleLines (.start textBase dataBase ⟨[], [], [], true⟩) src with
  | none => none
  | some s =>
    match assembleLines (.start textBase dataBase ⟨[], s.env.labels, [], false⟩) src with
    | none => none
    | some t => if t.fits textBase dataBase then some t else none

/-- The memory a program is launched with: the emitted bytes of both zones, and every other byte what it
is in `mem`, which the spec leaves unspecified, "any value" (70 R262). -/
def AsmState.memory (s : AsmState) (mem : Memory) : Memory :=
  (s.textBytes ++ s.dataBytes).foldl (fun m c => Memory.write m c.1 c.2) mem

/-- The `size` bytes below `sp` (70 R261). DEDUCED (log 32): below address 0 they go on at the top of the
address space, modulo 2^32, as the addresses of a `push` do (46 R200, 20_memory R57). -/
def stackRegions (sp size : Nat) : List Region :=
  if size ≤ sp then [⟨sp - size, size⟩] else [⟨0, sp⟩, ⟨2 ^ 32 + sp - size, size - sp⟩]

/-- A program launched: `TEXT` is the code zone; the data zone and the stack bytes below `INITIAL_SP` are
mapped beside it, with what else the platform maps (70 R260 to R262, log 32). Registers, flags and the
bytes that the program does not emit are any (R262). -/
def AsmState.launch (s : AsmState) (textBase dataBase stackSize : Nat) (p : Platform)
    (regs : Vector Word 15) (flags : Flags) (mem : Memory) : State :=
  State.launch
    { p with
      text := [⟨textBase, s.textPos - textBase⟩]
      data := ⟨dataBase, s.dataPos - dataBase⟩ :: stackRegions p.initialSp.toNat stackSize ++ p.data }
    regs flags (s.memory mem)

end Sys2Proof.Machine
end

