-- ==== Sys2Proof/Machine/Run.lean ====
section
/-! DEFINITION. A run (70 R263): steps until `pc` is `HALT_ADDR` before a fetch. -/

namespace Sys2Proof.Machine

/-- How a run goes, up to a number of steps (70 R263): `running` is a run that has not ended within
them, as a diverging run never does. -/
inductive RunResult where
  | final (s : State)
  | fault (r : Fault)
  | refused (r : Refusal)
  | running (s : State)
deriving DecidableEq, Repr

/-- "before each fetch, if `pc = HALT_ADDR` the run has ended" (70 R263). -/
def State.halted (s : State) : Bool := s.pc == s.platform.haltAddr

/-- `Run(s)` for at most `k` steps (70 R263). -/
def run : Nat → State → RunResult
  | 0, s => if s.halted then .final s else .running s
  | k + 1, s =>
    if s.halted then .final s
    else
      match step s with
      | .next t => run k t
      | .fault r => .fault r
      | .refused r => .refused r

end Sys2Proof.Machine
end

