-- ==== Sys2Proof/Safety.lean ====
section
/-! DEFINITION. The terms statements are written in: the machine's invariant, what a step leaves
unchanged, and what counts as a safe run. -/

namespace Sys2Proof.Machine

/-- What every state between instructions keeps: `pc[0] = 0` (10_state R24, R26; 20_memory R45), and the
memory's canonical form. -/
structure State.Inv (s : State) : Prop where
  pcEven : s.pc.toNat % 2 = 0
  memWf : Memory.wf s.mem

/-- The constraints the spec puts on the parameters (20_memory R49; 70 R260, R261, R263), for a program
whose stack goes at most `depth` bytes deep. `TEXT` being a part of `MAPPED` holds by construction. -/
structure State.PlatformOk (s : State) (depth : Nat) : Prop where
  entryEven : s.platform.entry.toNat % 2 = 0
  entryText : s.isText s.platform.entry
  spAligned : s.platform.initialSp.toNat % 4 = 0
  stackMapped : ∀ i, 0 < i → i ≤ depth → s.isMapped (s.platform.initialSp - BitVec.ofNat 32 i)
  stackNotText : ∀ i, 0 < i → i ≤ depth → s.isText (s.platform.initialSp - BitVec.ofNat 32 i) = false
  haltEven : s.platform.haltAddr.toNat % 2 = 0

/-- Every register but the PC and those listed holds what it held. -/
def State.RegsKept (s t : State) (written : List Reg) : Prop :=
  ∀ r : Reg, r ≠ Reg.pc → r ∉ written → t.reg r = s.reg r

/-- Every byte of memory outside the listed addresses reads as it read. -/
def State.BytesKept (s t : State) (stored : List Word) : Prop :=
  ∀ a : Word, a ∉ stored → t.byte a = s.byte a

/-- The frame of an instruction: registers but those written, memory but the bytes stored, and the
configuration are as before. -/
structure State.Frame (s t : State) (written : List Reg) (stored : List Word) : Prop where
  regs : s.RegsKept t written
  bytes : s.BytesKept t stored
  config : t.platform = s.platform

/-- Bytes at the addresses of a data access that may be read: all in `MAPPED` (20_memory R46). -/
def State.CanRead (s : State) (a : Word) (n : Nat) : Prop :=
  a.toNat % n = 0 ∧ ∀ i, i < n → s.isMapped (a + BitVec.ofNat 32 i)

/-- Bytes at the addresses of a data access that may be written: all in `MAPPED`, none in `TEXT`
(20_memory R46, R53). -/
def State.CanWrite (s : State) (a : Word) (n : Nat) : Prop :=
  s.CanRead a n ∧ ∀ i, i < n → s.isText (a + BitVec.ofNat 32 i) = false

/-- Where an instruction that reads `n` bytes at `a` stops: a misaligned address is reported before an
unmapped byte (20_memory R44, R46; order 60 R243 item 5). -/
structure State.ReadStops (s : State) (r : Result) (a : Word) (n : Nat) : Prop where
  alignment : a.toNat % n ≠ 0 → r = .fault (.alignment a n)
  unmapped : a.toNat % n = 0 → (∃ k, k < n ∧ s.isMapped (a + BitVec.ofNat 32 k) = false) →
    r = .fault (.unmapped a n)

/-- Where an instruction that writes `n` bytes at `a` stops: as one that reads them, and then for a byte in
`TEXT` (20_memory R53). -/
structure State.WriteStops (s : State) (r : Result) (a : Word) (n : Nat) : Prop where
  access : s.ReadStops r a n
  text : s.CanRead a n → (∃ k, k < n ∧ s.isText (a + BitVec.ofNat 32 k) = true) →
    r = .refused (.storeToText a)

/-! ### What data reads as -/

/-- The halfword at an address: `mem[a+1] : mem[a]` (20_memory R43). -/
def State.halfAt (s : State) (a : Word) : Half := s.byte (a + 1#32) ++ s.byte a

/-- The word at an address: `mem[a+3] : mem[a+2] : mem[a+1] : mem[a]` (20_memory R43). -/
def State.wordAt (s : State) (a : Word) : Word :=
  s.byte (a + 3#32) ++ s.byte (a + 2#32) ++ s.byte (a + 1#32) ++ s.byte a

/-! ### What flags say, in the words of 00_scope R11, R12 and 42 R132 -/

/-- N is bit 31 of the value and Z says that it is zero (00_scope R12). -/
structure Flags.NZOf (f : Flags) (r : Word) : Prop where
  n : f.n = r.msb
  z : f.z = decide (r = 0#32)

/-- The flags of the sum `x + y`: C is the unsigned carry, V the signed overflow (00_scope R11). -/
structure Flags.SumOf (f : Flags) (x y : Word) : Prop where
  nz : f.NZOf (x + y)
  c : f.c = decide (2 ^ 32 ≤ x.toNat + y.toNat)
  v : f.v = decide (x.toInt + y.toInt < -2 ^ 31 ∨ 2 ^ 31 ≤ x.toInt + y.toInt)

/-- The flags of the difference `x - y`: C is 1 exactly when there is no borrow, V exactly when the
signed difference does not fit in 32 bits (00_scope R11). -/
structure Flags.DiffOf (f : Flags) (x y : Word) : Prop where
  nz : f.NZOf (x - y)
  c : f.c = decide (y.toNat ≤ x.toNat)
  v : f.v = decide (x.toInt - y.toInt < -2 ^ 31 ∨ 2 ^ 31 ≤ x.toInt - y.toInt)

/-- What the conditions read after a compare of `x` with `y` (42 R132). -/
structure Flags.ComparesAs (f : Flags) (x y : Word) : Prop where
  eq : conditionPassed f .eq = decide (x = y)
  ne : conditionPassed f .ne = decide (x ≠ y)
  cs : conditionPassed f .cs = decide (x.toNat ≥ y.toNat)
  cc : conditionPassed f .cc = decide (x.toNat < y.toNat)
  hi : conditionPassed f .hi = decide (x.toNat > y.toNat)
  ls : conditionPassed f .ls = decide (x.toNat ≤ y.toNat)
  ge : conditionPassed f .ge = decide (x.toInt ≥ y.toInt)
  lt : conditionPassed f .lt = decide (x.toInt < y.toInt)
  gt : conditionPassed f .gt = decide (x.toInt > y.toInt)
  le : conditionPassed f .le = decide (x.toInt ≤ y.toInt)
  mi : conditionPassed f .mi = (x - y).msb
  pl : conditionPassed f .pl = !(x - y).msb
  vs : conditionPassed f .vs = decide (x.toInt - y.toInt < -2 ^ 31 ∨ 2 ^ 31 ≤ x.toInt - y.toInt)
  vc : conditionPassed f .vc = !decide (x.toInt - y.toInt < -2 ^ 31 ∨ 2 ^ 31 ≤ x.toInt - y.toInt)

/-! ### What a data-processing instruction does, with its frame -/

/-- A result in a low register with N and Z from it; C and V are kept. -/
structure State.WritesNZ (s t : State) (rd : LoReg) (r : Word) : Prop where
  result : t.lo rd = r
  nz : t.flags.NZOf r
  c : t.flags.c = s.flags.c
  v : t.flags.v = s.flags.v
  pc : t.pc = s.pc + 2#32
  frame : s.Frame t [rd.reg] []

/-- The sum of two values in a low register, with all four flags. -/
structure State.WritesSum (s t : State) (rd : LoReg) (x y : Word) : Prop where
  result : t.lo rd = x + y
  flags : t.flags.SumOf x y
  pc : t.pc = s.pc + 2#32
  frame : s.Frame t [rd.reg] []

/-- The difference of two values in a low register, with all four flags. -/
structure State.WritesDiff (s t : State) (rd : LoReg) (x y : Word) : Prop where
  result : t.lo rd = x - y
  flags : t.flags.DiffOf x y
  pc : t.pc = s.pc + 2#32
  frame : s.Frame t [rd.reg] []

/-- A value in a register other than the PC, no flag written. -/
structure State.WritesOnly (s t : State) (rd : Reg) (r : Word) : Prop where
  result : t.reg rd = r
  flags : t.flags = s.flags
  pc : t.pc = s.pc + 2#32
  frame : s.Frame t [rd] []

/-- A jump: nothing but the PC changes. -/
structure State.JumpsTo (s t : State) (target : Word) : Prop where
  pc : t.pc = target
  flags : t.flags = s.flags
  frame : s.Frame t [] []

/-- The low `8n` bits of a value stored at `a`, little-endian; no other byte, no register and no flag
changes. -/
structure State.Stores (s t : State) (a : Word) (n : Nat) (v : Word) : Prop where
  bytes : ∀ i, i < n → t.byte (a + BitVec.ofNat 32 i) = v.extractLsb' (8 * i) 8
  flags : t.flags = s.flags
  pc : t.pc = s.pc + 2#32
  frame : s.Frame t [] (footprint a n)

/-- The result and carry of a shift by `n` places as arithmetic on the whole value, for every amount:
the carry is the last bit shifted out (44 R150, "In words"). -/
def ShiftLaw (kind : ShiftKind) (v : Word) (n : Nat) (r : ShiftResult) : Prop :=
  match kind with
  | .lsl =>
    r.result.toNat = v.toNat * 2 ^ n % 2 ^ 32 ∧
      r.carry = if n = 0 then none else some (decide (v.toNat * 2 ^ n / 2 ^ 32 % 2 = 1))
  | .lsr =>
    r.result.toNat = v.toNat / 2 ^ n ∧
      r.carry = if n = 0 then none else some (decide (v.toNat / 2 ^ (n - 1) % 2 = 1))
  | .asr =>
    r.result.toInt = v.toInt / 2 ^ n ∧
      r.carry = if n = 0 then none else some (decide (v.toInt / 2 ^ (n - 1) % 2 = 1))
  | .ror =>
    (∀ i, i < 32 → r.result.getLsbD i = v.getLsbD ((i + n) % 32)) ∧
      r.carry = if n = 0 then none else some r.result.msb

/-- A shift of `v` by `n` places into a low register: N and Z from the result, C only where the amount is
not 0, V kept (44 R150). -/
structure State.WritesShift (s t : State) (rd : LoReg) (kind : ShiftKind) (v : Word) (n : Nat) :
    Prop where
  value : ∃ r, ShiftLaw kind v n r ∧ t.lo rd = r.result ∧ t.flags.c = r.carry.getD s.flags.c
  nz : t.flags.NZOf (t.lo rd)
  v : t.flags.v = s.flags.v
  pc : t.pc = s.pc + 2#32
  frame : s.Frame t [rd.reg] []

/-! ### What an instruction stores -/

/-- The address and width of a store (45 R181 to R187). -/
def State.storeAccess (s : State) : Instr → Option (Word × Nat)
  | .strImm _ rn imm5 => some (s.eaImm rn (immWords imm5), 4)
  | .strhImm _ rn imm5 => some (s.eaImm rn (immHalves imm5), 2)
  | .strbImm _ rn imm5 => some (s.eaImm rn (immPlain imm5), 1)
  | .strReg _ rn rm => some (s.eaReg rn rm, 4)
  | .strhReg _ rn rm => some (s.eaReg rn rm, 2)
  | .strbReg _ rn rm => some (s.eaReg rn rm, 1)
  | .strSp _ imm8 => some (s.eaSp (immWords imm8), 4)
  | _ => none

/-- The registers a `push` stores, the one for the lowest address first (46 R200 to R202). -/
def pushList : Instr → Option (List Reg)
  | .push rlist => some (loRegList rlist)
  | .pushLr rlist => some (loRegList rlist ++ [Reg.lr])
  | _ => none

/-- The registers a `pop` loads, the PC last (46 R200, R203, R204). -/
def popList : Instr → Option (List Reg)
  | .pop rlist => some (loRegList rlist)
  | .popPc rlist => some (loRegList rlist ++ [Reg.pc])
  | _ => none

/-! ### The tables of the spec that quantify over instructions -/

/-- The "flags" column of the opcode table and of 10_state R29: which of N, Z, C, V the form writes. -/
def flagColumn : Instr → Flags
  | .movImm _ _ | .movLo _ _ | .mul _ _ => ⟨true, true, false, false⟩
  | .andReg _ _ | .bicReg _ _ | .orrReg _ _ | .eorReg _ _ | .mvnReg _ _ | .tst _ _ =>
    ⟨true, true, false, false⟩
  | .lslImm _ _ _ | .lsrImm _ _ _ | .asrImm _ _ _ | .lslReg _ _ | .lsrReg _ _ | .asrReg _ _
  | .rorReg _ _ => ⟨true, true, true, false⟩
  | .addImm3 _ _ _ | .addImm8 _ _ | .addLo _ _ _ | .subImm3 _ _ _ | .subImm8 _ _ | .subLo _ _ _
  | .neg _ _ | .cmpLo _ _ | .cmpHi _ _ | .cmn _ _ | .cmpImm _ _ => ⟨true, true, true, true⟩
  | _ => ⟨false, false, false, false⟩

/-- The amount of a shift instruction (44 R151 to R157). -/
def State.shiftBy (s : State) : Instr → Option Nat
  | .lslImm _ _ imm5 => some imm5.toNat
  | .lsrImm _ _ imm5 => some (rightShiftAmount imm5)
  | .asrImm _ _ imm5 => some (rightShiftAmount imm5)
  | .lslReg _ rs => some (s.shiftAmount rs)
  | .lsrReg _ rs => some (s.shiftAmount rs)
  | .asrReg _ rs => some (s.shiftAmount rs)
  | .rorReg _ rs => some (s.shiftAmount rs)
  | _ => none

/-- The flags after an instruction: those that it writes from one value, those that it keeps from another
(10_state R29; a shift by 0 keeps C). -/
def State.flagsAfter (s : State) (i : Instr) (written kept : Flags) : Flags where
  n := if (flagColumn i).n then written.n else kept.n
  z := if (flagColumn i).z then written.z else kept.z
  c := if (flagColumn i).c && s.shiftBy i != some 0 then written.c else kept.c
  v := if (flagColumn i).v then written.v else kept.v

/-- The forms that change `pc` other than by falling through: the complete list of 47 R215. -/
def writesPc : Instr → Bool
  | .bCond _ _ | .b _ | .bl _ _ | .popPc _ => true
  | .movHi rd _ | .addHi rd _ => rd == Reg.pc
  | _ => false

/-- The forms that write SP (10_state R21). -/
def writesSp : Instr → Bool
  | .movHi rd _ | .addHi rd _ => rd == Reg.sp
  | .addSp _ | .subSp _ | .push _ | .pushLr _ | .pop _ | .popPc _ => true
  | _ => false

/-- The forms that write LR (10_state R21). -/
def writesLr : Instr → Bool
  | .movHi rd _ | .addHi rd _ => rd == Reg.lr
  | .bl _ _ => true
  | _ => false

/-- A row of spec/opcode_table.json for a 16-bit word: `mask`, `match` and the `exclude` list, each
entry a mask and its match (30_encoding R62). -/
structure CardRow where
  mask : Half
  match' : Half
  exclude : List (Half × Half)
deriving DecidableEq, Repr

/-- "a halfword `h` selects the row when `h AND mask == match` and no entry of the row's `exclude` list
matches" (30_encoding R62). -/
def CardRow.selects (r : CardRow) (h : Half) : Bool :=
  h &&& r.mask == r.match' && r.exclude.all (fun e => h &&& e.1 != e.2)

/-- Rows of spec/opcode_table.json, part 1 of 4. -/
def cardRows0 : List CardRow :=
  [ ⟨0xffc0#16, 0x0000#16, []⟩,
    ⟨0xf800#16, 0x0000#16, []⟩,
    ⟨0xf800#16, 0x0800#16, []⟩,
    ⟨0xf800#16, 0x1000#16, []⟩,
    ⟨0xfe00#16, 0x1800#16, []⟩,
    ⟨0xfe00#16, 0x1a00#16, []⟩,
    ⟨0xfe00#16, 0x1c00#16, []⟩,
    ⟨0xfe00#16, 0x1e00#16, []⟩,
    ⟨0xf800#16, 0x2000#16, []⟩,
    ⟨0xf800#16, 0x2800#16, []⟩,
    ⟨0xf800#16, 0x3000#16, []⟩,
    ⟨0xf800#16, 0x3800#16, []⟩,
    ⟨0xffc0#16, 0x4000#16, []⟩,
    ⟨0xffc0#16, 0x4040#16, []⟩,
    ⟨0xffc0#16, 0x4080#16, []⟩ ]

/-- Rows of spec/opcode_table.json, part 2 of 4. -/
def cardRows1 : List CardRow :=
  [ ⟨0xffc0#16, 0x40c0#16, []⟩,
    ⟨0xffc0#16, 0x4100#16, []⟩,
    ⟨0xffc0#16, 0x41c0#16, []⟩,
    ⟨0xffc0#16, 0x4200#16, []⟩,
    ⟨0xffc0#16, 0x4240#16, []⟩,
    ⟨0xffc0#16, 0x4280#16, []⟩,
    ⟨0xffc0#16, 0x42c0#16, []⟩,
    ⟨0xffc0#16, 0x4300#16, []⟩,
    ⟨0xffc0#16, 0x4340#16, []⟩,
    ⟨0xffc0#16, 0x4380#16, []⟩,
    ⟨0xffc0#16, 0x43c0#16, []⟩,
    ⟨0xff00#16, 0x4400#16, [(0xffc0#16, 0x4400#16)]⟩,
    ⟨0xff00#16, 0x4500#16, [(0xffc0#16, 0x4500#16)]⟩,
    ⟨0xff00#16, 0x4600#16, [(0xffc0#16, 0x4600#16)]⟩,
    ⟨0xf800#16, 0x4800#16, []⟩ ]

/-- Rows of spec/opcode_table.json, part 3 of 4. -/
def cardRows2 : List CardRow :=
  [ ⟨0xfe00#16, 0x5000#16, []⟩,
    ⟨0xfe00#16, 0x5200#16, []⟩,
    ⟨0xfe00#16, 0x5400#16, []⟩,
    ⟨0xfe00#16, 0x5600#16, []⟩,
    ⟨0xfe00#16, 0x5800#16, []⟩,
    ⟨0xfe00#16, 0x5a00#16, []⟩,
    ⟨0xfe00#16, 0x5c00#16, []⟩,
    ⟨0xfe00#16, 0x5e00#16, []⟩,
    ⟨0xf800#16, 0x6000#16, []⟩,
    ⟨0xf800#16, 0x6800#16, []⟩,
    ⟨0xf800#16, 0x7000#16, []⟩,
    ⟨0xf800#16, 0x7800#16, []⟩,
    ⟨0xf800#16, 0x8000#16, []⟩,
    ⟨0xf800#16, 0x8800#16, []⟩,
    ⟨0xf800#16, 0x9000#16, []⟩ ]

/-- Rows of spec/opcode_table.json, part 4 of 4. -/
def cardRows3 : List CardRow :=
  [ ⟨0xf800#16, 0x9800#16, []⟩,
    ⟨0xf800#16, 0xa800#16, []⟩,
    ⟨0xff80#16, 0xb000#16, []⟩,
    ⟨0xff80#16, 0xb080#16, []⟩,
    ⟨0xffc0#16, 0xb200#16, []⟩,
    ⟨0xffc0#16, 0xb240#16, []⟩,
    ⟨0xffc0#16, 0xb280#16, []⟩,
    ⟨0xffc0#16, 0xb2c0#16, []⟩,
    ⟨0xff00#16, 0xb400#16, [(0xffff#16, 0xb400#16)]⟩,
    ⟨0xff00#16, 0xb500#16, []⟩,
    ⟨0xff00#16, 0xbc00#16, [(0xffff#16, 0xbc00#16)]⟩,
    ⟨0xff00#16, 0xbd00#16, []⟩,
    ⟨0xf000#16, 0xd000#16, [(0xff00#16, 0xde00#16), (0xff00#16, 0xdf00#16)]⟩,
    ⟨0xf800#16, 0xe000#16, []⟩ ]

/-- The 59 rows of spec/opcode_table.json for 16-bit words, transcribed in its order. -/
def cardRows : List CardRow := cardRows0 ++ cardRows1 ++ cardRows2 ++ cardRows3

/-- The first row of the opcode table that selects the halfword, by its place among the 16-bit rows
("where two rows overlap the more specific comes first", 30_encoding R62). -/
def firstRow (h : Half) : Option Nat := cardRows.findIdx? (fun r => r.selects h)

/-- The place in spec/opcode_table.json of an instruction's row: `Instr` lists its constructors in the
table's order. -/
def rowOf (i : Instr) : Nat := i.ctorIdx

/-- A run is safe for `k` steps: it meets no fault and no refusal (60 R240). -/
def State.SafeFor (s : State) (k : Nat) : Prop :=
  (∃ t, run k s = .final t) ∨ (∃ t, run k s = .running t)

end Sys2Proof.Machine
end

