-- ==== Sys2Proof/Certificates/Slice0/Obligations.lean ====
section
/-! DEFINITION. The statements for the provers, family by family. A statement about an instruction says
its encoding, its result, its flags and its frame, for every operand and every state. The encodings are
the ones each rule of the spec writes out, which the spec marks as general knowledge (log 1). -/

open Sys2Proof Sys2Proof.Machine

/-! ### Encoding -/

/-- Decode and encode agree on every well-formed instruction of every family, whatever bytes follow. The
one word with two names, `lsl Rd, Rm, #0`, decodes as `mov Rd, Rm` (30_encoding R62, R90). -/
def Obligations.DecodeEncodeRoundTrip : Prop :=
  (∀ (i : Instr) (rest : List Byte), i.wellFormed = true → (∀ rd rm, i ≠ .lslImm rd rm 0#5) →
    decodeBytes (encodeBytes i ++ rest) = .ok (i, rest)) ∧
  (∀ (rd rm : LoReg) (rest : List Byte),
    decodeBytes (encodeBytes (.lslImm rd rm 0#5) ++ rest) = .ok (.movLo rd rm, rest))

/-- No two words of the instruction set decode to one instruction, and the decoder answers only
well-formed instructions: encoding what was decoded gives the words back (30_encoding R61, R62). -/
def Obligations.DecodedWordsEncodeBack : Prop :=
  ∀ (hw1 hw2 : Half) (i : Instr), decode hw1 hw2 = .ok i →
    i.wellFormed = true ∧ encode i = if isBlFirst hw1 then [hw1, hw2] else [hw1]

/-- The decoder against the opcode table itself: a halfword that is no first half of a `bl` decodes to the
instruction of the first row that selects it, and where no row selects it, it is refused as not in the
card; a first half of a `bl` decodes with a second half after it, and is refused without one (30_encoding
R61, R62, R92). -/
def Obligations.DecoderFollowsOpcodeTable : Prop :=
  ∀ hw1 hw2 : Half,
    (isBlFirst hw1 = false →
      match decode hw1 hw2 with
      | .ok i => firstRow hw1 = some (rowOf i)
      | .error e => e = .notInCard hw1 ∧ firstRow hw1 = none) ∧
    (hw1 &&& 0xF800#16 = 0xF000#16 → hw2 &&& 0xF800#16 = 0xF800#16 →
      decode hw1 hw2 = .ok (.bl (hw1.setWidth 11) (hw2.setWidth 11))) ∧
    (hw1 &&& 0xF800#16 = 0xF000#16 → hw2 &&& 0xF800#16 ≠ 0xF800#16 →
      decode hw1 hw2 = .error (.notInCardPair hw1 hw2))

/-- Words of the spec, at least one per format of 30_encoding R63 to R79, decode to the instruction they
stand for (examples of 40 to 48); a word outside the table and an empty list are refused. -/
def Obligations.SpecWordsDecode : Prop :=
  decodeTableWord 16 0x2000 = some (.movImm 0 0) ∧
  decodeTableWord 16 0x4688 = some (.movHi 8 1) ∧
  decodeTableWord 16 0x1DC8 = some (.addImm3 0 1 7) ∧
  decodeTableWord 16 0x4348 = some (.mul 0 1) ∧
  decodeTableWord 16 0x17C8 = some (.asrImm 0 1 31) ∧
  decodeTableWord 16 0x4801 = some (.ldrPc 0 1) ∧
  decodeTableWord 16 0x5688 = some (.ldrsbReg 0 1 2) ∧
  decodeTableWord 16 0x6FC8 = some (.ldrImm 0 1 31) ∧
  decodeTableWord 16 0x70C8 = some (.strbImm 0 1 3) ∧
  decodeTableWord 16 0x8048 = some (.strhImm 0 1 1) ∧
  decodeTableWord 16 0x9A02 = some (.ldrSp 2 2) ∧
  decodeTableWord 16 0xAFFF = some (.addRdSp 7 255) ∧
  decodeTableWord 16 0xB082 = some (.subSp 2) ∧
  decodeTableWord 16 0xB510 = some (.pushLr 0x10) ∧
  decodeTableWord 16 0xB2D2 = some (.uxtb 2 2) ∧
  decodeTableWord 16 0xD106 = some (.bCond .ne 6) ∧
  decodeTableWord 16 0xE3FF = some (.b 0x3FF) ∧
  decodeTableWord 32 0xF000F87E = some (.bl 0 0x7E) ∧
  decodeTableWord 16 0xDF00 = none ∧ decodeTableWord 16 0xB400 = none

/-! ### The step -/

/-- A step runs the decoded instruction: where the bytes at an even `pc`, all in `TEXT`, decode to `i`,
the step is `exec i` (00_scope R14). -/
def Obligations.StepRunsDecodedInstruction : Prop :=
  ∀ (s : State) (i : Instr),
    s.pc.toNat % 2 = 0 →
    (∀ k, k < i.byteLength → s.isText (s.pc + BitVec.ofNat 32 k) = true) →
    decodeBytes ((List.range i.byteLength).map (fun k => s.byte (s.pc + BitVec.ofNat 32 k))) =
      .ok (i, []) →
    step s = exec i s

/-- The checks of a step before execution, in their order: alignment of the fetch, `TEXT` for the first
halfword, `TEXT` for the second half of a `bl`, then the decoder's refusal (60 R243 items 1 to 3). -/
def Obligations.FetchChecksInOrder : Prop :=
  ∀ s : State,
    (s.pc.toNat % 2 ≠ 0 → step s = .fault (.fetchAlignment s.pc)) ∧
    (s.pc.toNat % 2 = 0 → (s.isText s.pc && s.isText (s.pc + 1#32)) = false →
      step s = .fault (.fetchUnmapped s.pc)) ∧
    (s.pc.toNat % 2 = 0 → (s.isText s.pc && s.isText (s.pc + 1#32)) = true →
      isBlFirst (s.halfAt s.pc) = true →
      ((s.isText (s.pc + 2#32) && s.isText (s.pc + 3#32)) = false →
        step s = .fault (.fetchUnmapped (s.pc + 2#32))) ∧
      ((s.isText (s.pc + 2#32) && s.isText (s.pc + 3#32)) = true →
        isBlSecond (s.halfAt (s.pc + 2#32)) = false →
        step s = .refused (.notInCardPair (s.halfAt s.pc) (s.halfAt (s.pc + 2#32))))) ∧
    (s.pc.toNat % 2 = 0 → (s.isText s.pc && s.isText (s.pc + 1#32)) = true →
      isBlFirst (s.halfAt s.pc) = false → decode16 (s.halfAt s.pc) = none →
      step s = .refused (.notInCard (s.halfAt s.pc)))

/-! ### Invariants and whole-machine rules -/

/-- Every step keeps `pc` even and the memory in its canonical form, from every state that has both. -/
def Obligations.StepKeepsInvariant : Prop :=
  ∀ s t : State, s.Inv → step s = .next t → t.Inv

/-- The reset state has the invariant: its even `pc` and its memory are the model's choice (log 6, 7). -/
def Obligations.ResetHasInvariant : Prop := State.reset.Inv

/-- The program text is fixed for the whole run, and the configuration with it: however far a run goes,
every byte of `TEXT` reads as it did (20_memory R53; the configuration is carried in the state, log 4). -/
def Obligations.RunNeverChangesText : Prop :=
  ∀ (k : Nat) (s t : State), run k s = .final t ∨ run k s = .running t →
    t.platform = s.platform ∧ ∀ a, s.isText a = true → t.byte a = s.byte a

/-- A step changes bytes only where a store is allowed: in `MAPPED` and outside `TEXT` (20_memory R46,
R53). -/
def Obligations.StepWritesOnlyMappedData : Prop :=
  ∀ (s t : State) (a : Word), step s = .next t → t.byte a ≠ s.byte a →
    s.isMapped a = true ∧ s.isText a = false

/-- Only the stores and `push` change memory: every other instruction keeps every byte (20_memory R47). -/
def Obligations.OnlyStoresChangeMemory : Prop :=
  ∀ (i : Instr) (s t : State), exec i s = .next t → s.storeAccess i = none → pushList i = none →
    ∀ a, t.byte a = s.byte a

/-- Every way to change `pc` other than falling through: a form not on the list of 47 R215 leaves `pc` at
the next halfword. -/
def Obligations.ControlFlowComplete : Prop :=
  ∀ (i : Instr) (s t : State), exec i s = .next t → writesPc i = false → t.pc = s.pc + 2#32

/-- The complete table of flag writers (10_state R29): a flag that a form's row does not list keeps its
value, and a shift by 0 keeps C. -/
def Obligations.FlagWritersComplete : Prop :=
  ∀ (i : Instr) (s t : State), exec i s = .next t →
    ((flagColumn i).n = false → t.flags.n = s.flags.n) ∧
    ((flagColumn i).z = false → t.flags.z = s.flags.z) ∧
    ((flagColumn i).c = false → t.flags.c = s.flags.c) ∧
    ((flagColumn i).v = false → t.flags.v = s.flags.v) ∧
    (s.shiftBy i = some 0 → t.flags.c = s.flags.c)

/-- Only `b{cond}` reads flags, through `ConditionPassed` (10_state R30). For any other instruction, starting
with other flags gives the same stop, or the same next state but for flags: a flag that the instruction
writes has the same value, and one that it keeps has the value it started with. A `b{cond}` does the same
for any flags under which its condition has the same truth. -/
def Obligations.OnlyCondBranchReadsFlags : Prop :=
  (∀ (i : Instr) (s : State) (f : Flags), (∀ c imm8, i ≠ .bCond c imm8) →
    (∀ t, exec i s = .next t →
      exec i { s with flags := f } = .next { t with flags := s.flagsAfter i t.flags f }) ∧
    (∀ r, exec i s = .fault r → exec i { s with flags := f } = .fault r) ∧
    (∀ r, exec i s = .refused r → exec i { s with flags := f } = .refused r)) ∧
  (∀ (c : Cond) (imm8 : BitVec 8) (s t : State) (f : Flags),
    conditionPassed f c = conditionPassed s.flags c → exec (.bCond c imm8) s = .next t →
    exec (.bCond c imm8) { s with flags := f } = .next { t with flags := f })

/-- The writers of the high registers (10_state R21): SP and LR change only by their listed forms, and
`r8`-`r12` only by the `mov` and `add` forms that name them as destination. -/
def Obligations.HighRegisterWritersComplete : Prop :=
  ∀ (i : Instr) (s t : State), exec i s = .next t →
    (writesSp i = false → t.reg Reg.sp = s.reg Reg.sp) ∧
    (writesLr i = false → t.reg Reg.lr = s.reg Reg.lr) ∧
    (∀ r : Reg, 8 ≤ r.toNat → r.toNat ≤ 12 → (∀ q, i ≠ .movHi r q ∧ i ≠ .addHi r q) →
      t.reg r = s.reg r)

/-! ### Move -/

/-- `mov Rd, #Inm8` (40 R100): its word; the register holds the immediate with zeros above, N is 0, Z says
whether it is 0, C and V are kept, and nothing else changes. -/
def Obligations.MovImmediate : Prop :=
  ∀ (rd : LoReg) (imm8 : BitVec 8) (s : State),
    encode (.movImm rd imm8) = [0b00100#5 ++ rd ++ imm8] ∧
    ∃ t, exec (.movImm rd imm8) s = .next t ∧ s.WritesNZ t rd (BitVec.ofNat 32 imm8.toNat) ∧
      t.flags.n = false

/-- `mov Rd, Rm`, both low (40 R101): the word and the effect of `lsl Rd, Rm, #0`; the value moved, N and Z
from it, C and V kept, and nothing else changed. -/
def Obligations.MovLowRegisters : Prop :=
  ∀ (rd rm : LoReg) (s : State),
    encode (.movLo rd rm) = [0b0000000000#10 ++ rm ++ rd] ∧
    encode (.movLo rd rm) = encode (.lslImm rd rm 0#5) ∧
    exec (.movLo rd rm) s = exec (.lslImm rd rm 0#5) s ∧
    ∃ t, exec (.movLo rd rm) s = .next t ∧ s.WritesNZ t rd (s.lo rm)

/-- `mov Rd, Rm` with a high register (40 R102): no flag is written; a PC operand reads `a + 4`; a write of
the PC clears bit 0; the word with both registers low is not in the card. -/
def Obligations.MovHighRegisters : Prop :=
  ∀ (rd rm : Reg) (s : State),
    encode (.movHi rd rm) =
      [0b01000110#8 ++ rd.extractLsb' 3 1 ++ rm ++ rd.extractLsb' 0 3] ∧
    (rd ≠ Reg.pc → rm ≠ Reg.pc →
      ∃ t, exec (.movHi rd rm) s = .next t ∧ s.WritesOnly t rd (s.reg rm)) ∧
    (rd ≠ Reg.pc →
      ∃ t, exec (.movHi rd Reg.pc) s = .next t ∧ s.WritesOnly t rd (s.pc + 4#32)) ∧
    (rm ≠ Reg.pc →
      ∃ t, exec (.movHi Reg.pc rm) s = .next t ∧ s.JumpsTo t (s.reg rm &&& ~~~1#32)) ∧
    (∃ t, exec (.movHi Reg.pc Reg.pc) s = .next t ∧ s.JumpsTo t ((s.pc + 4#32) &&& ~~~1#32)) ∧
    (rd.isLow = true → rm.isLow = true → ∀ hw1 hw2, encode (.movHi rd rm) = [hw1] →
      decode hw1 hw2 = .error (.notInCard hw1))

/-! ### Add, subtract, negate -/

/-- `add` with a 3-bit immediate, an 8-bit immediate and three low registers (41 R110, R111, R112): the
sum, and all four flags of it. -/
def Obligations.AddLowForms : Prop :=
  (∀ (rd rn : LoReg) (imm3 : BitVec 3) (s : State),
    encode (.addImm3 rd rn imm3) = [0b0001110#7 ++ imm3 ++ rn ++ rd] ∧
    ∃ t, exec (.addImm3 rd rn imm3) s = .next t ∧
      s.WritesSum t rd (s.lo rn) (BitVec.ofNat 32 imm3.toNat)) ∧
  (∀ (rd : LoReg) (imm8 : BitVec 8) (s : State),
    encode (.addImm8 rd imm8) = [0b00110#5 ++ rd ++ imm8] ∧
    ∃ t, exec (.addImm8 rd imm8) s = .next t ∧
      s.WritesSum t rd (s.lo rd) (BitVec.ofNat 32 imm8.toNat)) ∧
  (∀ (rd rn rm : LoReg) (s : State),
    encode (.addLo rd rn rm) = [0b0001100#7 ++ rm ++ rn ++ rd] ∧
    ∃ t, exec (.addLo rd rn rm) s = .next t ∧ s.WritesSum t rd (s.lo rn) (s.lo rm))

/-- `sub` with a 3-bit immediate, an 8-bit immediate and three low registers, and `neg` (41 R116, R117,
R118, R120): the difference, and all four flags of it. -/
def Obligations.SubtractLowForms : Prop :=
  (∀ (rd rn : LoReg) (imm3 : BitVec 3) (s : State),
    encode (.subImm3 rd rn imm3) = [0b0001111#7 ++ imm3 ++ rn ++ rd] ∧
    ∃ t, exec (.subImm3 rd rn imm3) s = .next t ∧
      s.WritesDiff t rd (s.lo rn) (BitVec.ofNat 32 imm3.toNat)) ∧
  (∀ (rd : LoReg) (imm8 : BitVec 8) (s : State),
    encode (.subImm8 rd imm8) = [0b00111#5 ++ rd ++ imm8] ∧
    ∃ t, exec (.subImm8 rd imm8) s = .next t ∧
      s.WritesDiff t rd (s.lo rd) (BitVec.ofNat 32 imm8.toNat)) ∧
  (∀ (rd rn rm : LoReg) (s : State),
    encode (.subLo rd rn rm) = [0b0001101#7 ++ rm ++ rn ++ rd] ∧
    ∃ t, exec (.subLo rd rn rm) s = .next t ∧ s.WritesDiff t rd (s.lo rn) (s.lo rm)) ∧
  (∀ (rd rn : LoReg) (s : State),
    encode (.neg rd rn) = [0b0100001001#10 ++ rn ++ rd] ∧
    ∃ t, exec (.neg rd rn) s = .next t ∧ s.WritesDiff t rd 0#32 (s.lo rn))

/-- `add Rd, Rd, Rm` with a high register (41 R113): no flag; the PC reads `a + 4`; a write of the PC
clears bit 0; `add pc, pc, pc` is refused; the word with both registers low is not in the card. -/
def Obligations.AddHighRegisters : Prop :=
  ∀ (rd rm : Reg) (s : State),
    encode (.addHi rd rm) =
      [0b01000100#8 ++ rd.extractLsb' 3 1 ++ rm ++ rd.extractLsb' 0 3] ∧
    (rd ≠ Reg.pc → rm ≠ Reg.pc →
      ∃ t, exec (.addHi rd rm) s = .next t ∧ s.WritesOnly t rd (s.reg rd + s.reg rm)) ∧
    (rd ≠ Reg.pc →
      ∃ t, exec (.addHi rd Reg.pc) s = .next t ∧ s.WritesOnly t rd (s.reg rd + (s.pc + 4#32))) ∧
    (rm ≠ Reg.pc →
      ∃ t, exec (.addHi Reg.pc rm) s = .next t ∧
        s.JumpsTo t ((s.pc + 4#32 + s.reg rm) &&& ~~~1#32)) ∧
    exec (.addHi Reg.pc Reg.pc) s = .refused (.unpredictable .addPcPcPc) ∧
    (rd.isLow = true → rm.isLow = true → ∀ hw1 hw2, encode (.addHi rd rm) = [hw1] →
      decode hw1 hw2 = .error (.notInCard hw1))

/-- `add SP, SP, #Inm`, `add Rd, SP, #Inm` and `sub SP, SP, #Inm` (41 R114, R115, R119): immediates in
words, modulo 2^32, no flag, no other register and no byte of memory changed. -/
def Obligations.StackPointerArithmetic : Prop :=
  (∀ (imm7 : BitVec 7) (s : State),
    encode (.addSp imm7) = [0b101100000#9 ++ imm7] ∧
    ∃ t, exec (.addSp imm7) s = .next t ∧
      s.WritesOnly t Reg.sp (s.reg Reg.sp + BitVec.ofNat 32 (4 * imm7.toNat))) ∧
  (∀ (rd : LoReg) (imm8 : BitVec 8) (s : State),
    encode (.addRdSp rd imm8) = [0b10101#5 ++ rd ++ imm8] ∧
    ∃ t, exec (.addRdSp rd imm8) s = .next t ∧
      s.WritesOnly t rd.reg (s.reg Reg.sp + BitVec.ofNat 32 (4 * imm8.toNat))) ∧
  (∀ (imm7 : BitVec 7) (s : State),
    encode (.subSp imm7) = [0b101100001#9 ++ imm7] ∧
    ∃ t, exec (.subSp imm7) s = .next t ∧
      s.WritesOnly t Reg.sp (s.reg Reg.sp - BitVec.ofNat 32 (4 * imm7.toNat)))

/-! ### Multiply and compare -/

/-- `mul Rd, Rm, Rd` (42 R130): its word; the product modulo 2^32, N and Z from it; C and V kept; nothing else
changes. -/
def Obligations.MultiplyLowWord : Prop :=
  ∀ (rd rm : LoReg) (s : State),
    encode (.mul rd rm) = [0b0100001101#10 ++ rm ++ rd] ∧
    ∃ t, exec (.mul rd rm) s = .next t ∧ s.WritesNZ t rd (s.lo rm * s.lo rd) ∧
      (t.lo rd).toNat = (s.lo rm).toNat * (s.lo rd).toNat % 2 ^ 32

/-- `cmp` in its three forms and `cmn` (42 R131, R133, R134, R135): all four flags, no register; `cmp` with
the PC is refused, and the high-register word with both registers low is not in the card. -/
def Obligations.CompareForms : Prop :=
  (∀ (rn rm : LoReg) (s : State),
    encode (.cmpLo rn rm) = [0b0100001010#10 ++ rm ++ rn] ∧
    ∃ t, exec (.cmpLo rn rm) s = .next t ∧ t.flags.DiffOf (s.lo rn) (s.lo rm) ∧
      t.pc = s.pc + 2#32 ∧ s.Frame t [] []) ∧
  (∀ (rn rm : Reg) (s : State),
    encode (.cmpHi rn rm) =
      [0b01000101#8 ++ rn.extractLsb' 3 1 ++ rm ++ rn.extractLsb' 0 3] ∧
    (rn ≠ Reg.pc → rm ≠ Reg.pc →
      ∃ t, exec (.cmpHi rn rm) s = .next t ∧ t.flags.DiffOf (s.reg rn) (s.reg rm) ∧
        t.pc = s.pc + 2#32 ∧ s.Frame t [] []) ∧
    (rn = Reg.pc ∨ rm = Reg.pc →
      exec (.cmpHi rn rm) s = .refused (.unpredictable .cmpWithPc)) ∧
    (rn.isLow = true → rm.isLow = true → ∀ hw1 hw2, encode (.cmpHi rn rm) = [hw1] →
      decode hw1 hw2 = .error (.notInCard hw1))) ∧
  (∀ (rn : LoReg) (imm8 : BitVec 8) (s : State),
    encode (.cmpImm rn imm8) = [0b00101#5 ++ rn ++ imm8] ∧
    ∃ t, exec (.cmpImm rn imm8) s = .next t ∧
      t.flags.DiffOf (s.lo rn) (BitVec.ofNat 32 imm8.toNat) ∧
      t.pc = s.pc + 2#32 ∧ s.Frame t [] []) ∧
  (∀ (rn rm : LoReg) (s : State),
    encode (.cmn rn rm) = [0b0100001011#10 ++ rm ++ rn] ∧
    ∃ t, exec (.cmn rn rm) s = .next t ∧ t.flags.SumOf (s.lo rn) (s.lo rm) ∧
      t.pc = s.pc + 2#32 ∧ s.Frame t [] [])

/-- After a compare the fourteen conditions read the relation of the operands, unsigned and signed; the flags
are those of the subtraction and of the addition of low registers, and no register is written (42, Compare;
the reading of the conditions is marked derived there). -/
def Obligations.ConditionsAfterCompare : Prop :=
  (∀ (rd rn rm : LoReg) (s t u : State), exec (.cmpLo rn rm) s = .next t →
    exec (.subLo rd rn rm) s = .next u →
    t.flags.ComparesAs (s.lo rn) (s.lo rm) ∧ t.flags = u.flags ∧ s.RegsKept t []) ∧
  (∀ (rn rm : Reg) (s t : State), exec (.cmpHi rn rm) s = .next t →
    t.flags.ComparesAs (s.reg rn) (s.reg rm) ∧ s.RegsKept t []) ∧
  (∀ (rn : LoReg) (imm8 : BitVec 8) (s t : State), exec (.cmpImm rn imm8) s = .next t →
    t.flags.ComparesAs (s.lo rn) (BitVec.ofNat 32 imm8.toNat) ∧ s.RegsKept t []) ∧
  (∀ (rd rn rm : LoReg) (s t u : State), exec (.cmn rn rm) s = .next t →
    exec (.addLo rd rn rm) s = .next u → t.flags = u.flags ∧ s.RegsKept t [])

/-! ### Logic -/

/-- `and`, `bic`, `orr`, `eor`, `mvn` (43 R140 to R144) and `tst` (R145): their words; bit by bit, N and Z from
the result, C and V kept; no other register and no byte of memory changes, and `tst` writes no register. -/
def Obligations.LogicForms : Prop :=
  ∀ (rd rm : LoReg) (s : State),
    (encode (.andReg rd rm) = [0b0100000000#10 ++ rm ++ rd] ∧
      ∃ t, exec (.andReg rd rm) s = .next t ∧ s.WritesNZ t rd (s.lo rd &&& s.lo rm)) ∧
    (encode (.bicReg rd rm) = [0b0100001110#10 ++ rm ++ rd] ∧
      ∃ t, exec (.bicReg rd rm) s = .next t ∧ s.WritesNZ t rd (s.lo rd &&& ~~~(s.lo rm))) ∧
    (encode (.orrReg rd rm) = [0b0100001100#10 ++ rm ++ rd] ∧
      ∃ t, exec (.orrReg rd rm) s = .next t ∧ s.WritesNZ t rd (s.lo rd ||| s.lo rm)) ∧
    (encode (.eorReg rd rm) = [0b0100000001#10 ++ rm ++ rd] ∧
      ∃ t, exec (.eorReg rd rm) s = .next t ∧ s.WritesNZ t rd (s.lo rd ^^^ s.lo rm)) ∧
    (encode (.mvnReg rd rm) = [0b0100001111#10 ++ rm ++ rd] ∧
      ∃ t, exec (.mvnReg rd rm) s = .next t ∧ s.WritesNZ t rd (~~~(s.lo rm))) ∧
    (encode (.tst rd rm) = [0b0100001000#10 ++ rm ++ rd] ∧
      ∃ t, exec (.tst rd rm) s = .next t ∧ t.flags.NZOf (s.lo rd &&& s.lo rm) ∧
        t.flags.c = s.flags.c ∧ t.flags.v = s.flags.v ∧ t.pc = s.pc + 2#32 ∧ s.Frame t [] [])

/-! ### Shift -/

/-- `Shift_C` (44 R150) is arithmetic on the whole value for every amount 0 to 255, and its carry is the
last bit shifted out; an amount of 0 leaves the carry unchanged. -/
def Obligations.ShiftFunctionIsArithmetic : Prop :=
  ∀ (kind : ShiftKind) (v : Word) (n : Nat), n ≤ 255 → ShiftLaw kind v n (shiftC kind v n)

/-- The shifts by immediate (44 R151, R153, R155): N and Z from the result, C only where the amount is not 0,
nothing else changed; the source forms with `#0` are assembled as `lsl Rd, Rm, #0`. That a field of 0 is an
amount of 32 for `lsr` and `asr` is a form the card does not list and the spec marks INFERRED (30_encoding
R91; log 15): a stricter model may refuse those words. -/
def Obligations.ShiftImmediateForms : Prop :=
  ∀ (rd rm : LoReg) (imm5 : BitVec 5) (s : State),
    (encode (.lslImm rd rm imm5) = [0b00000#5 ++ imm5 ++ rm ++ rd] ∧
      ∃ t, exec (.lslImm rd rm imm5) s = .next t ∧ s.WritesShift t rd .lsl (s.lo rm) imm5.toNat) ∧
    (encode (.lsrImm rd rm imm5) = [0b00001#5 ++ imm5 ++ rm ++ rd] ∧
      ∃ t, exec (.lsrImm rd rm imm5) s = .next t ∧
        s.WritesShift t rd .lsr (s.lo rm) (if imm5.toNat = 0 then 32 else imm5.toNat)) ∧
    (encode (.asrImm rd rm imm5) = [0b00010#5 ++ imm5 ++ rm ++ rd] ∧
      ∃ t, exec (.asrImm rd rm imm5) s = .next t ∧
        s.WritesShift t rd .asr (s.lo rm) (if imm5.toNat = 0 then 32 else imm5.toNat)) ∧
    (∀ (env : AsmEnv) (a : Word), encode (.movLo rd rm) = encode (.lslImm rd rm 0#5) ∧
      assembleInstr env a (.lslImm (.num rd.reg) (.num rm.reg) (.num imm5.toNat)) =
        some (if imm5 = 0#5 then .movLo rd rm else .lslImm rd rm imm5) ∧
      assembleInstr env a (.lsrImm (.num rd.reg) (.num rm.reg) (.num imm5.toNat)) =
        some (if imm5 = 0#5 then .movLo rd rm else .lsrImm rd rm imm5) ∧
      assembleInstr env a (.asrImm (.num rd.reg) (.num rm.reg) (.num imm5.toNat)) =
        some (if imm5 = 0#5 then .movLo rd rm else .asrImm rd rm imm5))

/-- The shifts and the rotate by register (44 R152, R154, R156, R157): the amount is bits 7:0 of `Rs`,
read before `Rd` is written; N and Z from the result, C only where the amount is not 0, nothing else
changed. -/
def Obligations.ShiftRegisterForms : Prop :=
  ∀ (rd rs : LoReg) (s : State),
    (encode (.lslReg rd rs) = [0b0100000010#10 ++ rs ++ rd] ∧
      ∃ t, exec (.lslReg rd rs) s = .next t ∧
        s.WritesShift t rd .lsl (s.lo rd) ((s.lo rs).toNat % 256)) ∧
    (encode (.lsrReg rd rs) = [0b0100000011#10 ++ rs ++ rd] ∧
      ∃ t, exec (.lsrReg rd rs) s = .next t ∧
        s.WritesShift t rd .lsr (s.lo rd) ((s.lo rs).toNat % 256)) ∧
    (encode (.asrReg rd rs) = [0b0100000100#10 ++ rs ++ rd] ∧
      ∃ t, exec (.asrReg rd rs) s = .next t ∧
        s.WritesShift t rd .asr (s.lo rd) ((s.lo rs).toNat % 256)) ∧
    (encode (.rorReg rd rs) = [0b0100000111#10 ++ rs ++ rd] ∧
      ∃ t, exec (.rorReg rd rs) s = .next t ∧
        s.WritesShift t rd .ror (s.lo rd) ((s.lo rs).toNat % 256))

/-! ### Load and store -/

/-- The four addressing modes (45 R170), with every immediate's scaling (30_encoding R81). -/
def Obligations.EffectiveAddresses : Prop :=
  ∀ s : State,
    (∀ (rn : LoReg) (imm5 : BitVec 5),
      s.eaImm rn (immWords imm5) = s.lo rn + BitVec.ofNat 32 (4 * imm5.toNat) ∧
      s.eaImm rn (immHalves imm5) = s.lo rn + BitVec.ofNat 32 (2 * imm5.toNat) ∧
      s.eaImm rn (immPlain imm5) = s.lo rn + BitVec.ofNat 32 imm5.toNat) ∧
    (∀ rn rm : LoReg, s.eaReg rn rm = s.lo rn + s.lo rm) ∧
    (∀ imm8 : BitVec 8,
      (s.eaPc (immWords imm8)).toNat =
        (4 * (((s.pc.toNat + 4) % 2 ^ 32) / 4) + 4 * imm8.toNat) % 2 ^ 32 ∧
      (s.eaPc (immWords imm8)).toNat % 4 = 0 ∧
      s.eaSp (immWords imm8) = s.reg Reg.sp + BitVec.ofNat 32 (4 * imm8.toNat))

/-- The word loads (45 R171, R174, R179, R180): where the word can be read, the register holds its bytes,
the one at the lowest address least significant; no flag, no base register and no byte of memory
changes; where it cannot, the instruction faults, PC-relative never for alignment. -/
def Obligations.LoadWordForms : Prop :=
  (∀ (rd rn : LoReg) (imm5 : BitVec 5) (s : State),
    encode (.ldrImm rd rn imm5) = [0b01101#5 ++ imm5 ++ rn ++ rd] ∧
    s.ReadStops (exec (.ldrImm rd rn imm5) s) (s.eaImm rn (immWords imm5)) 4 ∧
    (s.CanRead (s.eaImm rn (immWords imm5)) 4 → ∃ t, exec (.ldrImm rd rn imm5) s = .next t ∧
      s.WritesOnly t rd.reg (s.wordAt (s.eaImm rn (immWords imm5))))) ∧
  (∀ (rd rn rm : LoReg) (s : State),
    encode (.ldrReg rd rn rm) = [0b0101100#7 ++ rm ++ rn ++ rd] ∧
    s.ReadStops (exec (.ldrReg rd rn rm) s) (s.eaReg rn rm) 4 ∧
    (s.CanRead (s.eaReg rn rm) 4 → ∃ t, exec (.ldrReg rd rn rm) s = .next t ∧
      s.WritesOnly t rd.reg (s.wordAt (s.eaReg rn rm)))) ∧
  (∀ (rd : LoReg) (imm8 : BitVec 8) (s : State),
    encode (.ldrPc rd imm8) = [0b01001#5 ++ rd ++ imm8] ∧
    s.eaPc (immWords imm8) =
      ((s.pc + 4#32) &&& 0xFFFFFFFC#32) + BitVec.ofNat 32 (4 * imm8.toNat) ∧
    (s.eaPc (immWords imm8)).toNat % 4 = 0 ∧
    s.ReadStops (exec (.ldrPc rd imm8) s) (s.eaPc (immWords imm8)) 4 ∧
    (s.CanRead (s.eaPc (immWords imm8)) 4 → ∃ t, exec (.ldrPc rd imm8) s = .next t ∧
      s.WritesOnly t rd.reg (s.wordAt (s.eaPc (immWords imm8))))) ∧
  (∀ (rd : LoReg) (imm8 : BitVec 8) (s : State),
    encode (.ldrSp rd imm8) = [0b10011#5 ++ rd ++ imm8] ∧
    s.ReadStops (exec (.ldrSp rd imm8) s) (s.eaSp (immWords imm8)) 4 ∧
    (s.CanRead (s.eaSp (immWords imm8)) 4 → ∃ t, exec (.ldrSp rd imm8) s = .next t ∧
      s.WritesOnly t rd.reg (s.wordAt (s.eaSp (immWords imm8)))))

/-- The narrow loads (45 R172, R173, R175 to R178): zero or sign extension of the halfword or
byte read, and the fault where it cannot be read. -/
def Obligations.LoadNarrowForms : Prop :=
  (∀ (rd rn : LoReg) (imm5 : BitVec 5) (s : State),
    (encode (.ldrhImm rd rn imm5) = [0b10001#5 ++ imm5 ++ rn ++ rd] ∧
      s.ReadStops (exec (.ldrhImm rd rn imm5) s) (s.eaImm rn (immHalves imm5)) 2 ∧
      (s.CanRead (s.eaImm rn (immHalves imm5)) 2 → ∃ t, exec (.ldrhImm rd rn imm5) s = .next t ∧
        s.WritesOnly t rd.reg ((s.halfAt (s.eaImm rn (immHalves imm5))).setWidth 32))) ∧
    (encode (.ldrbImm rd rn imm5) = [0b01111#5 ++ imm5 ++ rn ++ rd] ∧
      s.ReadStops (exec (.ldrbImm rd rn imm5) s) (s.eaImm rn (immPlain imm5)) 1 ∧
      (s.CanRead (s.eaImm rn (immPlain imm5)) 1 → ∃ t, exec (.ldrbImm rd rn imm5) s = .next t ∧
        s.WritesOnly t rd.reg ((s.byte (s.eaImm rn (immPlain imm5))).setWidth 32)))) ∧
  (∀ (rd rn rm : LoReg) (s : State),
    (encode (.ldrhReg rd rn rm) = [0b0101101#7 ++ rm ++ rn ++ rd] ∧
      s.ReadStops (exec (.ldrhReg rd rn rm) s) (s.eaReg rn rm) 2 ∧
      (s.CanRead (s.eaReg rn rm) 2 → ∃ t, exec (.ldrhReg rd rn rm) s = .next t ∧
        s.WritesOnly t rd.reg ((s.halfAt (s.eaReg rn rm)).setWidth 32))) ∧
    (encode (.ldrshReg rd rn rm) = [0b0101111#7 ++ rm ++ rn ++ rd] ∧
      s.ReadStops (exec (.ldrshReg rd rn rm) s) (s.eaReg rn rm) 2 ∧
      (s.CanRead (s.eaReg rn rm) 2 → ∃ t, exec (.ldrshReg rd rn rm) s = .next t ∧
        s.WritesOnly t rd.reg ((s.halfAt (s.eaReg rn rm)).signExtend 32))) ∧
    (encode (.ldrbReg rd rn rm) = [0b0101110#7 ++ rm ++ rn ++ rd] ∧
      s.ReadStops (exec (.ldrbReg rd rn rm) s) (s.eaReg rn rm) 1 ∧
      (s.CanRead (s.eaReg rn rm) 1 → ∃ t, exec (.ldrbReg rd rn rm) s = .next t ∧
        s.WritesOnly t rd.reg ((s.byte (s.eaReg rn rm)).setWidth 32))) ∧
    (encode (.ldrsbReg rd rn rm) = [0b0101011#7 ++ rm ++ rn ++ rd] ∧
      s.ReadStops (exec (.ldrsbReg rd rn rm) s) (s.eaReg rn rm) 1 ∧
      (s.CanRead (s.eaReg rn rm) 1 → ∃ t, exec (.ldrsbReg rd rn rm) s = .next t ∧
        s.WritesOnly t rd.reg ((s.byte (s.eaReg rn rm)).signExtend 32))))

/-- The stores (45 R181 to R187): where the bytes can be written, exactly they change, to the low bits of
the register, lowest address least significant; no register and no flag changes; where they cannot, the
instruction faults or, for a byte in `TEXT`, is refused. -/
def Obligations.StoreForms : Prop :=
  (∀ (rd rn : LoReg) (imm5 : BitVec 5) (s : State),
    (encode (.strImm rd rn imm5) = [0b01100#5 ++ imm5 ++ rn ++ rd] ∧
      s.WriteStops (exec (.strImm rd rn imm5) s) (s.eaImm rn (immWords imm5)) 4 ∧
      (s.CanWrite (s.eaImm rn (immWords imm5)) 4 → ∃ t, exec (.strImm rd rn imm5) s = .next t ∧
        s.Stores t (s.eaImm rn (immWords imm5)) 4 (s.lo rd))) ∧
    (encode (.strhImm rd rn imm5) = [0b10000#5 ++ imm5 ++ rn ++ rd] ∧
      s.WriteStops (exec (.strhImm rd rn imm5) s) (s.eaImm rn (immHalves imm5)) 2 ∧
      (s.CanWrite (s.eaImm rn (immHalves imm5)) 2 → ∃ t, exec (.strhImm rd rn imm5) s = .next t ∧
        s.Stores t (s.eaImm rn (immHalves imm5)) 2 (s.lo rd))) ∧
    (encode (.strbImm rd rn imm5) = [0b01110#5 ++ imm5 ++ rn ++ rd] ∧
      s.WriteStops (exec (.strbImm rd rn imm5) s) (s.eaImm rn (immPlain imm5)) 1 ∧
      (s.CanWrite (s.eaImm rn (immPlain imm5)) 1 → ∃ t, exec (.strbImm rd rn imm5) s = .next t ∧
        s.Stores t (s.eaImm rn (immPlain imm5)) 1 (s.lo rd)))) ∧
  (∀ (rd rn rm : LoReg) (s : State),
    (encode (.strReg rd rn rm) = [0b0101000#7 ++ rm ++ rn ++ rd] ∧
      s.WriteStops (exec (.strReg rd rn rm) s) (s.eaReg rn rm) 4 ∧
      (s.CanWrite (s.eaReg rn rm) 4 → ∃ t, exec (.strReg rd rn rm) s = .next t ∧
        s.Stores t (s.eaReg rn rm) 4 (s.lo rd))) ∧
    (encode (.strhReg rd rn rm) = [0b0101001#7 ++ rm ++ rn ++ rd] ∧
      s.WriteStops (exec (.strhReg rd rn rm) s) (s.eaReg rn rm) 2 ∧
      (s.CanWrite (s.eaReg rn rm) 2 → ∃ t, exec (.strhReg rd rn rm) s = .next t ∧
        s.Stores t (s.eaReg rn rm) 2 (s.lo rd))) ∧
    (encode (.strbReg rd rn rm) = [0b0101010#7 ++ rm ++ rn ++ rd] ∧
      s.WriteStops (exec (.strbReg rd rn rm) s) (s.eaReg rn rm) 1 ∧
      (s.CanWrite (s.eaReg rn rm) 1 → ∃ t, exec (.strbReg rd rn rm) s = .next t ∧
        s.Stores t (s.eaReg rn rm) 1 (s.lo rd)))) ∧
  (∀ (rd : LoReg) (imm8 : BitVec 8) (s : State),
    encode (.strSp rd imm8) = [0b10010#5 ++ rd ++ imm8] ∧
    s.WriteStops (exec (.strSp rd imm8) s) (s.eaSp (immWords imm8)) 4 ∧
    (s.CanWrite (s.eaSp (immWords imm8)) 4 → ∃ t, exec (.strSp rd imm8) s = .next t ∧
      s.Stores t (s.eaSp (immWords imm8)) 4 (s.lo rd)))

/-- The mixed-width view of memory (20_memory, Byte order, marked derived there): the bytes and halfwords of a word just written, and
the word after one of its bytes is overwritten. -/
def Obligations.MixedWidthView : Prop :=
  ∀ (s t u : State) (a : Word),
    s.memWrite a 4 0x11223344#32 = .ok t → t.memWrite (a + 1#32) 1 0xAB#32 = .ok u →
    t.memRead a 1 = .ok 0x44#32 ∧ t.memRead (a + 1#32) 1 = .ok 0x33#32 ∧
    t.memRead (a + 2#32) 1 = .ok 0x22#32 ∧ t.memRead (a + 3#32) 1 = .ok 0x11#32 ∧
    t.memRead a 2 = .ok 0x3344#32 ∧ t.memRead (a + 2#32) 2 = .ok 0x1122#32 ∧
    u.memRead a 4 = .ok 0x1122AB44#32

/-- A load of a width sees the latest store of that width to its address (20_memory R50), with zeros above
a narrow datum. -/
def Obligations.LoadSeesLatestStore : Prop :=
  ∀ (s t : State) (a v : Word),
    (s.memWrite a 4 v = .ok t → t.memRead a 4 = .ok v) ∧
    (s.memWrite a 2 v = .ok t → t.memRead a 2 = .ok ((v.extractLsb' 0 16).setWidth 32)) ∧
    (s.memWrite a 1 v = .ok t → t.memRead a 1 = .ok ((v.extractLsb' 0 8).setWidth 32))

/-! ### Push and pop -/

/-- A register list is its set bits in ascending order (30_encoding R76, 46 R200 item 2). -/
def Obligations.RegisterListAscending : Prop :=
  ∀ rlist : BitVec 8,
    (loRegList rlist).Pairwise (fun r q => r.toNat < q.toNat) ∧
    ∀ r : Reg, r ∈ loRegList rlist ↔ (r.toNat < 8 ∧ rlist.getLsbD r.toNat = true)

/-- `push` (46 R201, R202): where every word can be written, the listed registers lie ascending from
`SP - 4n`, SP ends there, and nothing else changes; an empty list is refused. -/
def Obligations.PushForms : Prop :=
  (∀ rlist : BitVec 8, encode (.push rlist) = [0b10110100#8 ++ rlist] ∧
    encode (.pushLr rlist) = [0b10110101#8 ++ rlist]) ∧
  (∀ s : State, exec (.push 0#8) s = .refused (.unpredictable .emptyRegisterList)) ∧
  (∀ (i : Instr) (s : State) (l : List Reg), pushList i = some l → i ≠ .push 0#8 →
    (∀ a ∈ slots (s.reg Reg.sp - BitVec.ofNat 32 (4 * l.length)) l.length, s.CanWrite a 4) →
    ∃ t, exec i s = .next t ∧
      (∀ (k : Nat) (h : k < l.length),
        t.wordAt (s.reg Reg.sp - BitVec.ofNat 32 (4 * l.length) + BitVec.ofNat 32 (4 * k)) =
          s.reg l[k]) ∧
      t.reg Reg.sp = s.reg Reg.sp - BitVec.ofNat 32 (4 * l.length) ∧
      t.flags = s.flags ∧ t.pc = s.pc + 2#32 ∧
      s.Frame t [Reg.sp]
        ((slots (s.reg Reg.sp - BitVec.ofNat 32 (4 * l.length)) l.length).flatMap
          (fun a => footprint a 4)))

/-- `pop <loreglist>` (46 R203): where every word can be read, the listed registers take the words
ascending from SP, SP ends above them, and nothing else changes; an empty list is refused. -/
def Obligations.PopForm : Prop :=
  (∀ rlist : BitVec 8, encode (.pop rlist) = [0b10111100#8 ++ rlist]) ∧
  (∀ s : State, exec (.pop 0#8) s = .refused (.unpredictable .emptyRegisterList)) ∧
  (∀ (rlist : BitVec 8) (s : State), rlist ≠ 0#8 →
    (∀ a ∈ slots (s.reg Reg.sp) (loRegList rlist).length, s.CanRead a 4) →
    ∃ t, exec (.pop rlist) s = .next t ∧
      (∀ (k : Nat) (h : k < (loRegList rlist).length),
        t.reg (loRegList rlist)[k] = s.wordAt (s.reg Reg.sp + BitVec.ofNat 32 (4 * k))) ∧
      t.reg Reg.sp = s.reg Reg.sp + BitVec.ofNat 32 (4 * (loRegList rlist).length) ∧
      t.flags = s.flags ∧ t.pc = s.pc + 2#32 ∧
      s.Frame t (Reg.sp :: loRegList rlist) [])

/-- `pop <loreglist+PC>` (46 R204): as `pop`, with the highest word jumped to, its bit 0 cleared; a bit 0
other than `LR_BIT0` is refused. -/
def Obligations.PopPcForm : Prop :=
  (∀ rlist : BitVec 8, encode (.popPc rlist) = [0b10111101#8 ++ rlist]) ∧
  (∀ (rlist : BitVec 8) (s : State),
    (∀ a ∈ slots (s.reg Reg.sp) ((loRegList rlist).length + 1), s.CanRead a 4) →
    ((s.wordAt (s.reg Reg.sp + BitVec.ofNat 32 (4 * (loRegList rlist).length))).extractLsb' 0 1 ≠
        s.platform.lrBit0 →
      exec (.popPc rlist) s = .refused (.unpredictable .popPcBit0)) ∧
    ((s.wordAt (s.reg Reg.sp + BitVec.ofNat 32 (4 * (loRegList rlist).length))).extractLsb' 0 1 =
        s.platform.lrBit0 →
      ∃ t, exec (.popPc rlist) s = .next t ∧
        (∀ (k : Nat) (h : k < (loRegList rlist).length),
          t.reg (loRegList rlist)[k] = s.wordAt (s.reg Reg.sp + BitVec.ofNat 32 (4 * k))) ∧
        t.reg Reg.sp = s.reg Reg.sp + BitVec.ofNat 32 (4 * ((loRegList rlist).length + 1)) ∧
        t.pc = s.wordAt (s.reg Reg.sp + BitVec.ofNat 32 (4 * (loRegList rlist).length)) &&&
          ~~~1#32 ∧
        t.flags = s.flags ∧ s.Frame t (Reg.sp :: loRegList rlist) []))

/-- Where a `push` or `pop` stops (46 R200 item 6, 60 R243 item 5): the first word whose check fails, in the
order of the slots from the base up, decides, alignment before mapping before `TEXT`. Where the slots do
not wrap that is the lowest failing address; where they wrap modulo 2^32 (0xFFFFFFFC, then 0) the spec does
not say which address is the lowest, and that the order stays the slots' is the model's choice (log 23,
DEDUCED). -/
def Obligations.BlockTransferStops : Prop :=
  (∀ (i : Instr) (s : State) (l : List Reg) (k : Nat) (base a : Word),
    pushList i = some l → i ≠ .push 0#8 → k < l.length →
    base = s.reg Reg.sp - BitVec.ofNat 32 (4 * l.length) →
    a = base + BitVec.ofNat 32 (4 * k) →
    (∀ j, j < k → s.CanWrite (base + BitVec.ofNat 32 (4 * j)) 4) →
    (a.toNat % 4 ≠ 0 → exec i s = .fault (.alignment a 4)) ∧
    (a.toNat % 4 = 0 → (∃ m, m < 4 ∧ s.isMapped (a + BitVec.ofNat 32 m) = false) →
      exec i s = .fault (.unmapped a 4)) ∧
    (s.CanRead a 4 → (∃ m, m < 4 ∧ s.isText (a + BitVec.ofNat 32 m) = true) →
      exec i s = .refused (.storeToText a))) ∧
  (∀ (i : Instr) (s : State) (l : List Reg) (k : Nat) (a : Word),
    popList i = some l → i ≠ .pop 0#8 → k < l.length →
    a = s.reg Reg.sp + BitVec.ofNat 32 (4 * k) →
    (∀ j, j < k → s.CanRead (s.reg Reg.sp + BitVec.ofNat 32 (4 * j)) 4) →
    (a.toNat % 4 ≠ 0 → exec i s = .fault (.alignment a 4)) ∧
    (a.toNat % 4 = 0 → (∃ m, m < 4 ∧ s.isMapped (a + BitVec.ofNat 32 m) = false) →
      exec i s = .fault (.unmapped a 4)))

/-- The call and return round trip (46 R205), where bit 0 of the pushed LR is `LR_BIT0`, as R204 asks of the
word popped to the PC: `push S+LR`, then later `pop S+PC` at the same SP with the pushed words not
overwritten, restores the registers of `S` and SP and jumps to the pushed LR with bit 0 cleared. -/
def Obligations.PushPopRoundTrip : Prop :=
  ∀ (rlist : BitVec 8) (s t u : State),
    exec (.pushLr rlist) s = .next t →
    (s.reg Reg.lr).extractLsb' 0 1 = s.platform.lrBit0 →
    u.reg Reg.sp = t.reg Reg.sp → u.platform = t.platform →
    (∀ a ∈ slots (t.reg Reg.sp) ((loRegList rlist).length + 1), ∀ x ∈ footprint a 4,
      u.byte x = t.byte x) →
    ∃ w, exec (.popPc rlist) u = .next w ∧
      (∀ r ∈ loRegList rlist, w.reg r = s.reg r) ∧
      w.reg Reg.sp = s.reg Reg.sp ∧
      w.pc.toNat = 2 * ((s.reg Reg.lr).toNat / 2)

/-! ### Branch -/

/-- `ConditionPassed` (47 R211): each code, each condition, and that the pairs are complementary. -/
def Obligations.ConditionTable : Prop :=
  (∀ f : Flags,
    (conditionPassed f .eq = true ↔ f.z = true) ∧ (conditionPassed f .ne = true ↔ f.z = false) ∧
    (conditionPassed f .cs = true ↔ f.c = true) ∧ (conditionPassed f .cc = true ↔ f.c = false) ∧
    (conditionPassed f .mi = true ↔ f.n = true) ∧ (conditionPassed f .pl = true ↔ f.n = false) ∧
    (conditionPassed f .vs = true ↔ f.v = true) ∧ (conditionPassed f .vc = true ↔ f.v = false) ∧
    (conditionPassed f .hi = true ↔ f.c = true ∧ f.z = false) ∧
    (conditionPassed f .ls = true ↔ f.c = false ∨ f.z = true) ∧
    (conditionPassed f .ge = true ↔ f.n = f.v) ∧ (conditionPassed f .lt = true ↔ f.n ≠ f.v) ∧
    (conditionPassed f .gt = true ↔ f.z = false ∧ f.n = f.v) ∧
    (conditionPassed f .le = true ↔ f.z = true ∨ f.n ≠ f.v)) ∧
  ([Cond.eq, .ne, .cs, .cc, .mi, .pl, .vs, .vc, .hi, .ls, .ge, .lt, .gt, .le].map Cond.code =
    (List.range 14).map (BitVec.ofNat 4)) ∧
  (∀ (f : Flags) (c d : Cond),
    (c, d) ∈ [(Cond.eq, Cond.ne), (.cs, .cc), (.mi, .pl), (.vs, .vc), (.hi, .ls), (.ge, .lt), (.gt, .le)] →
      conditionPassed f d = !conditionPassed f c) ∧
  (∀ c : Cond, condOfCode c.code = some c) ∧
  condOfCode 0b1110#4 = none ∧ condOfCode 0b1111#4 = none

/-- `b{cond}` and `b` (47 R212, R213): the offset is twice the signed field, applied to `a + 4`; a
condition that fails falls through. -/
def Obligations.BranchForms : Prop :=
  (∀ (c : Cond) (imm8 : BitVec 8) (s : State),
    encode (.bCond c imm8) = [0b1101#4 ++ c.code ++ imm8] ∧
    ∃ t, exec (.bCond c imm8) s = .next t ∧
      s.JumpsTo t (if conditionPassed s.flags c then s.pc + 4#32 + BitVec.ofInt 32 (2 * imm8.toInt)
        else s.pc + 2#32)) ∧
  (∀ (imm11 : BitVec 11) (s : State),
    encode (.b imm11) = [0b11100#5 ++ imm11] ∧
    ∃ t, exec (.b imm11) s = .next t ∧
      s.JumpsTo t (s.pc + 4#32 + BitVec.ofInt 32 (2 * imm11.toInt)))

/-- `bl` (47 R214): LR is the address of the next instruction with `LR_BIT0` for bit 0, and the offset is
twice the signed 22-bit field, applied to `a + 4`; no other register and no flag changes. -/
def Obligations.BranchLink : Prop :=
  ∀ (immhi immlo : BitVec 11) (s : State),
    encode (.bl immhi immlo) = [0b11110#5 ++ immhi, 0b11111#5 ++ immlo] ∧
    ∃ t, exec (.bl immhi immlo) s = .next t ∧
      t.reg Reg.lr = (s.pc + 4#32) ||| s.platform.lrBit0.setWidth 32 ∧
      t.pc = s.pc + 4#32 + BitVec.ofInt 32 (2 * (immhi ++ immlo).toInt) ∧
      t.flags = s.flags ∧ s.Frame t [Reg.lr] []

/-- A call returns to the instruction after it, for either value of `LR_BIT0` (47 R214; 40 R102): from any
later state that has the LR of the call, `mov pc, lr` goes to `a + 4`. -/
def Obligations.CallReturnsAfterIt : Prop :=
  ∀ (immhi immlo : BitVec 11) (s t u : State), s.pc.toNat % 2 = 0 →
    exec (.bl immhi immlo) s = .next t → u.reg Reg.lr = t.reg Reg.lr →
    ∃ w, exec (.movHi Reg.pc Reg.lr) u = .next w ∧ w.pc = s.pc + 4#32

/-! ### Extend -/

/-- `sxth`, `sxtb`, `uxth`, `uxtb` (48 R230 to R233): the signed or unsigned value of the low half or byte;
no flag. -/
def Obligations.ExtendForms : Prop :=
  ∀ (rd rm : LoReg) (s : State),
    (encode (.sxth rd rm) = [0b1011001000#10 ++ rm ++ rd] ∧
      ∃ t, exec (.sxth rd rm) s = .next t ∧
        s.WritesOnly t rd.reg (BitVec.ofInt 32 ((s.lo rm).setWidth 16).toInt)) ∧
    (encode (.sxtb rd rm) = [0b1011001001#10 ++ rm ++ rd] ∧
      ∃ t, exec (.sxtb rd rm) s = .next t ∧
        s.WritesOnly t rd.reg (BitVec.ofInt 32 ((s.lo rm).setWidth 8).toInt)) ∧
    (encode (.uxth rd rm) = [0b1011001010#10 ++ rm ++ rd] ∧
      ∃ t, exec (.uxth rd rm) s = .next t ∧
        s.WritesOnly t rd.reg (BitVec.ofNat 32 ((s.lo rm).toNat % 2 ^ 16))) ∧
    (encode (.uxtb rd rm) = [0b1011001011#10 ++ rm ++ rd] ∧
      ∃ t, exec (.uxtb rd rm) s = .next t ∧
        s.WritesOnly t rd.reg (BitVec.ofNat 32 ((s.lo rm).toNat % 2 ^ 8)))

/-- A signed load is an unsigned load followed by a sign extension of its register (48 R234): the same
register, memory and flags; only `pc` counts two instructions. -/
def Obligations.SignedLoadIsLoadThenExtend : Prop :=
  ∀ (rd rn rm : LoReg) (s t u w : State),
    (exec (.ldrshReg rd rn rm) s = .next t → exec (.ldrhReg rd rn rm) s = .next u →
      exec (.sxth rd rd) u = .next w → w = { t with pc := t.pc + 2#32 }) ∧
    (exec (.ldrsbReg rd rn rm) s = .next t → exec (.ldrbReg rd rn rm) s = .next u →
      exec (.sxtb rd rd) u = .next w → w = { t with pc := t.pc + 2#32 })

/-! ### Launch, reset, run -/

/-- At launch `pc = ENTRY` and `SP = INITIAL_SP`; everything else is as given, whatever it is (70 R260,
R261, R262). -/
def Obligations.LaunchState : Prop :=
  ∀ (p : Platform) (regs : Vector Word 15) (flags : Flags) (mem : Memory),
    (State.launch p regs flags mem).pc = p.entry ∧
    (State.launch p regs flags mem).reg Reg.sp = p.initialSp ∧
    (∀ r : Reg, r ≠ Reg.pc → r ≠ Reg.sp →
      (State.launch p regs flags mem).reg r = regs.getD r.toNat 0#32) ∧
    (State.launch p regs flags mem).flags = flags ∧
    (State.launch p regs flags mem).mem = mem ∧
    (State.launch p regs flags mem).platform = p

/-- The values the model chose for reset (log 5, 6, 7; the spec leaves every one open): the named platform
meets the spec's constraints on the parameters, every unspecified register and flag is zero, and no
byte of memory is listed. -/
def Obligations.ResetValuesChosen : Prop :=
  State.reset.pc = 0x100#32 ∧ State.reset.reg Reg.sp = 0x3000#32 ∧
  (∀ r : Reg, r ≠ Reg.pc → r ≠ Reg.sp → State.reset.reg r = 0#32) ∧
  State.reset.flags = ⟨false, false, false, false⟩ ∧ State.reset.mem = [] ∧
  State.reset.PlatformOk 256

/-- A run ends when `pc` is `HALT_ADDR` before a fetch, and only then (70 R263): a final state stands at
`HALT_ADDR`, a state there is final at once, and a run that has ended goes no further. -/
def Obligations.RunEndsAtHaltAddress : Prop :=
  (∀ (k : Nat) (s : State), s.pc = s.platform.haltAddr → run k s = .final s) ∧
  (∀ (k : Nat) (s t : State), run k s = .final t →
    t.pc = s.platform.haltAddr ∧ ∀ m, run (k + m) s = .final t) ∧
  (∀ (k : Nat) (s t : State), run k s = .running t → t.pc ≠ s.platform.haltAddr)

/-! ### Assembler level -/

/-- A branch line that assembles goes to its label, an even address of the address space. From an even
address, a label at the distance `d` (modulo 2^32, log 27) assembles exactly where `d` is even and in range.
The range of `b{cond}` is the card's; the exact ranges of `b` and `bl` are the ones the spec derives (47
R213, R214; 90_conflicts C7) from the card's round "2 KiB" and "4 MiB". No branch at an odd address
assembles (log 31). -/
def Obligations.AssembledBranchReachesLabel : Prop :=
  (∀ (env : AsmEnv) (line : AsmInstr) (e : Expr) (i : Instr) (s : State),
    (∃ c, line = .bCond c e ∧ conditionPassed s.flags c = true) ∨ line = .b e ∨ line = .bl e →
    assembleInstr env s.pc line = some i →
    ∃ t v, exec i s = .next t ∧ env.value e = some v ∧ (t.pc.toNat : Int) = v ∧ v % 2 = 0) ∧
  (∀ (env : AsmEnv) (a : Word) (c : Cond) (d label : Int), a.toNat % 2 = 0 →
    label = ((a.toNat : Int) + d) % 2 ^ 32 → -2 ^ 31 + 4 ≤ d → d < 2 ^ 31 →
    ((assembleInstr env a (.bCond c (.num label))).isSome ↔ d % 2 = 0 ∧ -252 ≤ d ∧ d ≤ 258) ∧
    ((assembleInstr env a (.b (.num label))).isSome ↔ d % 2 = 0 ∧ -2044 ≤ d ∧ d ≤ 2050) ∧
    ((assembleInstr env a (.bl (.num label))).isSome ↔ d % 2 = 0 ∧ -4194300 ≤ d ∧ d ≤ 4194306)) ∧
  (∀ (env : AsmEnv) (a : Word) (c : Cond) (e : Expr), a.toNat % 2 = 1 →
    assembleInstr env a (.bCond c e) = none ∧ assembleInstr env a (.b e) = none ∧
    assembleInstr env a (.bl e) = none)

/-- Whatever the assembler accepts has a word, and the machine's decoder reads that word back as the
instruction assembled (00_scope R15; 30_encoding R90, R91, R96). -/
def Obligations.AssembledLineDecodesBack : Prop :=
  ∀ (env : AsmEnv) (a : Word) (line : AsmInstr) (i : Instr), assembleInstr env a line = some i →
    decodeBytes (encodeBytes i) = .ok (i, [])

/-- The assembler picks the form of `mov`, `add` and `cmp` by the registers of the line, named by number or by
alias: both low, or at least one high (40 R101, R102; 41 R112, R113; 42 R131, R133). So an assembled `mov`
writes N and Z exactly where both registers are low, and no other flag. -/
def Obligations.RegistersPickTheForm : Prop :=
  ∀ (env : AsmEnv) (a : Word) (x y : RegOp) (rd rm : Reg),
    env.reg x = some rd → env.reg y = some rm →
    assembleInstr env a (.mov x y) =
      some (if rd.isLow && rm.isLow then .movLo (rd.setWidth 3) (rm.setWidth 3) else .movHi rd rm) ∧
    assembleInstr env a (.add x x y) =
      some (if rd.isLow && rm.isLow then .addLo (rd.setWidth 3) (rd.setWidth 3) (rm.setWidth 3)
        else .addHi rd rm) ∧
    assembleInstr env a (.cmp x y) =
      (if rd.isLow && rm.isLow then some (.cmpLo (rd.setWidth 3) (rm.setWidth 3))
        else if rd = Reg.pc ∨ rm = Reg.pc then none else some (.cmpHi rd rm)) ∧
    ∀ (i : Instr) (s : State), assembleInstr env a (.mov x y) = some i →
      ∃ t, exec i s = .next t ∧
        ((rd.isLow && rm.isLow) = false → t.flags = s.flags) ∧
        ((rd.isLow && rm.isLow) = true →
          t.flags.NZOf (s.reg rm) ∧ t.flags.c = s.flags.c ∧ t.flags.v = s.flags.v)

/-- "end of the source; the assembler reads nothing further" (30_encoding R97; 70 R263): what stands after
`.end` changes nothing of what is assembled, and `.end` itself emits nothing. -/
def Obligations.EndOfSourceEndsAssembly : Prop :=
  (∀ (textBase dataBase : Nat) (before after : List Line),
    assemble textBase dataBase (before ++ .directive .endOfSource :: after) =
      assemble textBase dataBase (before ++ [.directive .endOfSource])) ∧
  (∀ (textBase dataBase : Nat) (src : List Line) (s : AsmState),
    assemble textBase dataBase src = some s →
    ∃ t, assemble textBase dataBase (src ++ [.directive .endOfSource]) = some t ∧
      t.textBytes = s.textBytes ∧ t.dataBytes = s.dataBytes)

/-- A program as launched (70 R261, R262; 20_memory R49): every byte that the source emits is where it was
emitted, every other byte is any, as given; `TEXT` is the code zone; the data zone is mapped, and so are the
stack bytes below `INITIAL_SP`, modulo 2^32 where they pass address 0 (log 32); a canonical memory stays
canonical. -/
def Obligations.LaunchedProgramInMemory : Prop :=
  ∀ (textBase dataBase stackSize : Nat) (src : List Line) (prog : AsmState) (p : Platform)
    (regs : Vector Word 15) (flags : Flags) (mem : Memory) (s : State),
    assemble textBase dataBase src = some prog →
    s = prog.launch textBase dataBase stackSize p regs flags mem →
    (∀ c ∈ prog.textBytes ++ prog.dataBytes, Memory.read s.mem c.1 = c.2) ∧
    (∀ x, (∀ c ∈ prog.textBytes ++ prog.dataBytes, c.1 ≠ x) →
      Memory.read s.mem x = Memory.read mem x) ∧
    (∀ x : Word, s.isText x = true ↔ ∃ c ∈ prog.textBytes, c.1 = x.toNat) ∧
    (∀ x : Word, (∃ c ∈ prog.dataBytes, c.1 = x.toNat) → s.isMapped x = true) ∧
    (∀ k, 0 < k → k ≤ stackSize → s.isMapped (p.initialSp - BitVec.ofNat 32 k) = true) ∧
    (Memory.wf mem → Memory.wf s.mem)
end

