-- ==== Sys2Proof/Laws/Memory.lean ====
section
/-! SUPPORT. The laws of memory: a read after a write, what a write leaves alone, and that every memory
operation keeps the canonical form. -/

namespace Sys2Proof.Machine

/-! ### One byte -/

theorem read_insert_same (m : Memory) (a : Nat) (v : Byte) (h : ∀ c ∈ m, c.1 ≠ a) :
    Memory.read (Memory.insert m (a, v)) a = v := by
  induction m with
  | nil => simp [Memory.insert, Memory.read]
  | cons d m ih =>
    have hd : d.1 ≠ a := h d (by simp)
    simp only [Memory.insert]
    split
    · simp [Memory.read]
    · simp only [Memory.read, hd, if_false]
      exact ih (fun c hc => h c (by simp [hc]))

theorem read_insert_other (m : Memory) {a x : Nat} (v : Byte) (h : x ≠ a) :
    Memory.read (Memory.insert m (a, v)) x = Memory.read m x := by
  induction m with
  | nil => simp [Memory.insert, Memory.read, h.symm]
  | cons d m ih =>
    simp only [Memory.insert]
    split
    · simp [Memory.read, h.symm]
    · simp only [Memory.read, ih]

theorem read_erase_same (m : Memory) (a : Nat) :
    Memory.read (m.filter (fun c => c.1 != a)) a = Config.unlistedByte := by
  induction m with
  | nil => rfl
  | cons d m ih =>
    by_cases h : d.1 = a
    · simpa [h] using ih
    · simp [h, Memory.read, ih]

theorem read_erase_other (m : Memory) {a x : Nat} (h : x ≠ a) :
    Memory.read (m.filter (fun c => c.1 != a)) x = Memory.read m x := by
  induction m with
  | nil => rfl
  | cons d m ih =>
    by_cases hd : d.1 = a
    · have : d.1 ≠ x := fun e => h (e.symm.trans hd)
      simp [hd, Memory.read, ih]
      simp [h.symm]
    · simp [hd, Memory.read, ih]

theorem mem_erase {m : Memory} {a : Nat} {c : Host.Cell}
    (h : c ∈ m.filter (fun c => c.1 != a)) : c ∈ m ∧ c.1 ≠ a := by simpa using h

/-- A read after a write to the same address gives the byte written. -/
@[simp] theorem read_write_same (m : Memory) (a : Nat) (v : Byte) :
    Memory.read (Memory.write m a v) a = v := by
  unfold Memory.write
  dsimp only
  split
  · rename_i h; rw [read_erase_same, h]
  · exact read_insert_same _ _ _ (fun c hc => (mem_erase hc).2)

/-- A write leaves every other address alone. -/
theorem read_write_other (m : Memory) {a x : Nat} (v : Byte) (h : x ≠ a) :
    Memory.read (Memory.write m a v) x = Memory.read m x := by
  unfold Memory.write
  dsimp only
  split
  · exact read_erase_other m h
  · rw [read_insert_other _ _ h, read_erase_other m h]

/-! ### The canonical form -/

theorem mem_insert {m : Memory} {c d : Host.Cell} (h : d ∈ Memory.insert m c) : d = c ∨ d ∈ m := by
  induction m with
  | nil => simpa [Memory.insert] using h
  | cons e m ih =>
    simp only [Memory.insert] at h
    split at h
    · simpa using h
    · rcases List.mem_cons.1 h with rfl | h
      · simp
      · rcases ih h with rfl | h <;> simp [*]

theorem insert_pairwise {m : Memory} {c : Host.Cell} (hm : m.Pairwise (fun c d => c.1 < d.1))
    (h : ∀ d ∈ m, d.1 ≠ c.1) : (Memory.insert m c).Pairwise (fun c d => c.1 < d.1) := by
  induction m with
  | nil => simp [Memory.insert]
  | cons e m ih =>
    have he := List.pairwise_cons.1 hm
    simp only [Memory.insert]
    split
    · rename_i hlt
      refine List.pairwise_cons.2 ⟨fun d hd => ?_, hm⟩
      rcases List.mem_cons.1 hd with rfl | hd
      · exact hlt
      · exact lt_trans hlt (he.1 d hd)
    · rename_i hlt
      refine List.pairwise_cons.2 ⟨fun d hd => ?_, ih he.2 (fun d hd => h d (by simp [hd]))⟩
      rcases mem_insert hd with rfl | hd
      · have := h e (by simp)
        omega
      · exact he.1 d hd

/-- A byte write inside the address space keeps the canonical form. -/
theorem wf_write {m : Memory} (hm : Memory.wf m) {a : Nat} (ha : a < 2 ^ 32) (v : Byte) :
    Memory.wf (Memory.write m a v) := by
  have hp := hm.1.filter (fun c => c.1 != a)
  have hb : ∀ c ∈ m.filter (fun c => c.1 != a), c.1 < 2 ^ 32 ∧ c.2 ≠ Config.unlistedByte :=
    fun c hc => hm.2 c (mem_erase hc).1
  unfold Memory.write
  dsimp only
  split
  · exact ⟨hp, hb⟩
  · rename_i hv
    refine ⟨insert_pairwise hp (fun d hd => (mem_erase hd).2), fun c hc => ?_⟩
    rcases mem_insert hc with rfl | hc
    · exact ⟨ha, hv⟩
    · exact hb c hc

/-- A store of any width keeps the canonical form. -/
theorem wf_storeBytes {m : Memory} (hm : Memory.wf m) (a : Word) (n : Nat) (v : Word) :
    Memory.wf (Memory.storeBytes m a n v) := by
  induction n generalizing m a v with
  | zero => exact hm
  | succ n ih => exact ih (wf_write hm a.isLt _) _ _

/-- A block store keeps the canonical form. -/
theorem wf_storeWords {m : Memory} (hm : Memory.wf m) (base : Word) (vs : List Word) :
    Memory.wf (Memory.storeWords m base vs) := by
  induction vs generalizing m base with
  | nil => exact hm
  | cons v vs ih => exact ih (wf_storeBytes hm _ _ _) _

/-! ### Stores of several bytes -/

theorem footprint_succ (a : Word) (n : Nat) :
    footprint a (n + 1) = a :: footprint (a + 1#32) n := by
  simp only [footprint, List.range_succ_eq_map, List.map_cons, List.map_map]
  refine List.cons_eq_cons.2 ⟨by simp, List.map_congr_left fun i _ => ?_⟩
  simp only [Function.comp]
  apply BitVec.eq_of_toNat_eq
  simp [BitVec.toNat_add]
  omega

@[simp] theorem footprint_zero (a : Word) : footprint a 0 = [] := rfl

/-- A store leaves every byte outside its footprint alone. -/
theorem read_storeBytes_other (m : Memory) (a : Word) (n : Nat) (v : Word) {x : Word}
    (h : x ∉ footprint a n) :
    Memory.read (Memory.storeBytes m a n v) x.toNat = Memory.read m x.toNat := by
  induction n generalizing m a v with
  | zero => rfl
  | succ n ih =>
    rw [footprint_succ] at h
    have hx : x.toNat ≠ a.toNat := fun e => h (by simp [BitVec.eq_of_toNat_eq e])
    rw [Memory.storeBytes, ih _ _ _ (fun hm => h (by simp [hm])), read_write_other _ _ hx]

/-- A block store leaves every byte outside its words alone. -/
theorem read_storeWords_other (m : Memory) (base : Word) (vs : List Word) {x : Word}
    (h : ∀ a ∈ slots base vs.length, x ∉ footprint a 4) :
    Memory.read (Memory.storeWords m base vs) x.toNat = Memory.read m x.toNat := by
  induction vs generalizing m base with
  | nil => rfl
  | cons v vs ih =>
    simp only [List.length_cons, slots, List.mem_cons, forall_eq_or_imp] at h
    rw [Memory.storeWords, ih _ _ h.2, read_storeBytes_other _ _ _ _ h.1]

/-! ### The bytes of a datum -/

theorem byteAt_zero (v : Word) : v.setWidth 8 = v.extractLsb' (8 * 0) 8 := by
  simp [BitVec.setWidth_eq_extractLsb']

theorem byteAt_succ (v : Word) (i : Nat) :
    (v >>> 8).extractLsb' (8 * i) 8 = v.extractLsb' (8 * (i + 1)) 8 := by
  ext j hj
  simp only [BitVec.getElem_extractLsb', BitVec.getLsbD_ushiftRight]
  congr 1
  omega

theorem add_ofNat_succ (a : Word) (i : Nat) :
    a + BitVec.ofNat 32 (i + 1) = a + 1#32 + BitVec.ofNat 32 i := by
  apply BitVec.eq_of_toNat_eq
  simp only [BitVec.toNat_add, BitVec.toNat_ofNat]
  omega

/-- A store puts byte `i` of the value at `a + i`. -/
theorem read_storeBytes_at (m : Memory) (a : Word) (n : Nat) (v : Word) {i : Nat} (h : i < n)
    (hn : n ≤ 2 ^ 32) :
    Memory.read (Memory.storeBytes m a n v) (a + BitVec.ofNat 32 i).toNat =
      v.extractLsb' (8 * i) 8 := by
  induction n generalizing m a v i with
  | zero => omega
  | succ n ih =>
    rw [Memory.storeBytes]
    cases i with
    | zero =>
      have hx : a ∉ footprint (a + 1#32) n := by
        simp only [footprint, List.mem_map, List.mem_range, not_exists, not_and]
        intro j hj e
        have := congrArg BitVec.toNat e
        have := a.isLt
        simp only [BitVec.toNat_add, BitVec.toNat_ofNat] at *
        omega
      have e : a + BitVec.ofNat 32 0 = a := by simp
      rw [e, read_storeBytes_other _ _ _ _ hx, read_write_same, byteAt_zero]
    | succ i => rw [add_ofNat_succ a i, ih _ _ _ (by omega) (by omega), byteAt_succ]

theorem mem_slots {base x : Word} {n : Nat} :
    x ∈ slots base n ↔ ∃ k, k < n ∧ x = base + BitVec.ofNat 32 (4 * k) := by
  induction n generalizing base with
  | zero => simp [slots]
  | succ n ih =>
    have hs : ∀ k, base + 4#32 + BitVec.ofNat 32 (4 * k) = base + BitVec.ofNat 32 (4 * (k + 1)) := by
      intro k
      apply BitVec.eq_of_toNat_eq
      simp only [BitVec.toNat_add, BitVec.toNat_ofNat]
      omega
    simp only [slots, List.mem_cons, ih, hs]
    constructor
    · rintro (rfl | ⟨k, hk, rfl⟩)
      · exact ⟨0, by omega, by simp⟩
      · exact ⟨k + 1, by omega, rfl⟩
    · rintro ⟨k, hk, rfl⟩
      cases k with
      | zero => left; simp
      | succ k => exact .inr ⟨k, by omega, rfl⟩

end Sys2Proof.Machine
end

