-- ==== Sys2Proof/Laws/Assembler.lean ====
section
/-! SUPPORT. The laws of the assembler: the forms picked for a line, what each line does to the
two zones, that a source ends at `.end`, and what the memory of a launched program holds. -/

namespace Sys2Proof.Laws

open Sys2Proof Sys2Proof.Machine

/-! ### The forms picked for a line -/

theorem oneHigh_of_not_bothLow {r q : Reg} (h : ¬(r.isLow && q.isLow) = true) : oneHigh r q = true := by
  unfold oneHigh; rw [Bool.eq_false_iff.mpr h]; rfl

/-- The forms with a high register are picked only where one is, so each has a word. -/
theorem pickMov_wellFormed (rd rm : Reg) : (pickMov rd rm).wellFormed = true := by
  unfold pickMov
  split
  · rfl
  · exact oneHigh_of_not_bothLow ‹_›

theorem pickCmp_wellFormed {rn rm : Reg} {i : Instr} (h : pickCmp rn rm = some i) :
    i.wellFormed = true := by
  unfold pickCmp at h
  split at h
  · cases h; rfl
  · rename_i hl
    split at h <;> cases h
    exact oneHigh_of_not_bothLow hl

theorem pickAdd_wellFormed {rd rn rm : Reg} {i : Instr} (h : pickAdd rd rn rm = some i) :
    i.wellFormed = true := by
  unfold pickAdd at h
  split at h
  · cases h; rfl
  · rename_i hl
    split at h <;> cases h
    subst rd
    refine oneHigh_of_not_bothLow fun hb => hl ?_
    rw [Bool.and_eq_true] at hb
    simp [hb]

theorem pickPush_wellFormed {lr : Bool} {l : BitVec 8} {i : Instr} (h : pickPush lr l = some i) :
    i.wellFormed = true := by
  unfold pickPush checked at h
  split at h
  · cases h; rfl
  · split at h <;> cases h; assumption

theorem pickPop_wellFormed {pc : Bool} {l : BitVec 8} {i : Instr} (h : pickPop pc l = some i) :
    i.wellFormed = true := by
  unfold pickPop checked at h
  split at h
  · cases h; rfl
  · split at h <;> cases h; assumption

/-- `add` with an immediate has one of the four forms of 41 R110, R111, R114 and R115. -/
theorem pickAddImm_forms {env : AsmEnv} {rd rn : Reg} {n : Expr} {i : Instr}
    (h : env.pickAddImm rd rn n = some i) :
    (∃ imm, env.imm 7 4 n = some imm ∧ i = .addSp imm) ∨
    (∃ imm, env.imm 8 4 n = some imm ∧ i = .addRdSp (rd.setWidth 3) imm) ∨
    (∃ imm, env.imm 8 1 n = some imm ∧ i = .addImm8 (rd.setWidth 3) imm) ∨
    (∃ imm, env.imm 3 1 n = some imm ∧ i = .addImm3 (rd.setWidth 3) (rn.setWidth 3) imm) := by
  unfold AsmEnv.pickAddImm at h
  (repeat' split at h) <;> simp only [Option.map_eq_some_iff, reduceCtorEq] at h <;>
    obtain ⟨imm, h, rfl⟩ := h <;> simp [h]

/-- `sub` with an immediate has one of the three forms of 41 R116, R117 and R119. -/
theorem pickSubImm_forms {env : AsmEnv} {rd rn : Reg} {n : Expr} {i : Instr}
    (h : env.pickSubImm rd rn n = some i) :
    (∃ imm, env.imm 7 4 n = some imm ∧ i = .subSp imm) ∨
    (∃ imm, env.imm 8 1 n = some imm ∧ i = .subImm8 (rd.setWidth 3) imm) ∨
    (∃ imm, env.imm 3 1 n = some imm ∧ i = .subImm3 (rd.setWidth 3) (rn.setWidth 3) imm) := by
  unfold AsmEnv.pickSubImm at h
  (repeat' split at h) <;> simp only [Option.map_eq_some_iff, reduceCtorEq] at h <;>
    obtain ⟨imm, h, rfl⟩ := h <;> simp [h]

/-- `ldr` with an immediate offset has one of the three forms of 45 R171, R179 and R180. -/
theorem pickLdrImm_forms {env : AsmEnv} {rd : LoReg} {base : Reg} {n : Expr} {i : Instr}
    (h : env.pickLdrImm rd base n = some i) :
    (∃ imm, env.imm 8 4 n = some imm ∧ (i = .ldrPc rd imm ∨ i = .ldrSp rd imm)) ∨
    (∃ imm, env.imm 5 4 n = some imm ∧ i = .ldrImm rd (base.setWidth 3) imm) := by
  unfold AsmEnv.pickLdrImm at h
  (repeat' split at h) <;> simp only [Option.map_eq_some_iff, reduceCtorEq] at h <;>
    obtain ⟨imm, h, rfl⟩ := h <;> simp [h]

/-- `str` with an immediate offset has one of the two forms of 45 R181 and R187. -/
theorem pickStrImm_forms {env : AsmEnv} {rd : LoReg} {base : Reg} {n : Expr} {i : Instr}
    (h : env.pickStrImm rd base n = some i) :
    (∃ imm, env.imm 8 4 n = some imm ∧ i = .strSp rd imm) ∨
    (∃ imm, env.imm 5 4 n = some imm ∧ i = .strImm rd (base.setWidth 3) imm) := by
  unfold AsmEnv.pickStrImm at h
  (repeat' split at h) <;> simp only [Option.map_eq_some_iff, reduceCtorEq] at h <;>
    obtain ⟨imm, h, rfl⟩ := h <;> simp [h]

/-! ### The two zones -/

/-- The bytes of a zone stand at consecutive addresses, from its base up to the next free address. -/
def ZoneFrom (base next : Nat) (bytes : List Host.Cell) : Prop :=
  base ≤ next ∧ bytes.map (·.1) = List.range' base (next - base)

theorem placeBytes_addresses (a : Nat) (bs : List Byte) :
    (placeBytes a bs).map (·.1) = List.range' a bs.length := by
  induction bs generalizing a with
  | nil => rfl
  | cons b bs ih => simp [placeBytes, ih, List.range'_succ]

theorem ZoneFrom.extend {base next : Nat} {bytes : List Host.Cell} (h : ZoneFrom base next bytes)
    (bs : List Byte) : ZoneFrom base (next + bs.length) (bytes ++ placeBytes next bs) := by
  obtain ⟨hle, hmap⟩ := h
  refine ⟨by omega, ?_⟩
  have hnext : next + bs.length - base = (next - base) + bs.length := by omega
  rw [List.map_append, hmap, placeBytes_addresses, hnext, ← List.range'_append_1,
    Nat.add_sub_cancel' hle]

/-- Both zones laid out from their bases. -/
structure Laid (textBase dataBase : Nat) (s : AsmState) : Prop where
  text : ZoneFrom textBase s.textPos s.textBytes
  data : ZoneFrom dataBase s.dataPos s.dataBytes

theorem start_laid (textBase dataBase : Nat) (env : AsmEnv) :
    Laid textBase dataBase (.start textBase dataBase env) :=
  ⟨⟨Nat.le_refl _, by simp [AsmState.start]⟩, ⟨Nat.le_refl _, by simp [AsmState.start]⟩⟩

theorem emit_laid {tb db : Nat} {s : AsmState} (h : Laid tb db s) (bs : List Byte) :
    Laid tb db (s.emit bs) := by
  unfold AsmState.emit
  split
  · exact ⟨h.text.extend bs, h.data⟩
  · exact ⟨h.text, h.data.extend bs⟩

/-- All that a line can do to the zones: nothing, or emit bytes into the open one. -/
theorem assembleLine_zones {s t : AsmState} {l : Line} (h : assembleLine s l = some t) :
    (∃ bs, t = s.emit bs) ∨ (t.textPos = s.textPos ∧ t.dataPos = s.dataPos ∧
      t.textBytes = s.textBytes ∧ t.dataBytes = s.dataBytes) := by
  cases l with
  | label n =>
    simp only [assembleLine, AsmState.defineLabel] at h
    split at h
    · split at h <;> simp at h
      subst h; exact .inr ⟨rfl, rfl, rfl, rfl⟩
    · simp at h; subst h; exact .inr ⟨rfl, rfl, rfl, rfl⟩
  | instr i =>
    simp only [assembleLine, AsmState.emitInstr] at h
    split at h
    · cases h
    · split at h
      · simp at h; exact .inl ⟨_, h.symm⟩
      · split at h <;> simp at h
        exact .inl ⟨_, h.symm⟩
  | directive d =>
    cases d <;>
      simp only [assembleLine, assembleDirective, AsmState.emitValue, AsmState.pad, AsmState.assign,
        AsmState.assignNew] at h <;>
      (repeat' split at h) <;> simp at h <;> subst h <;>
      first
        | exact .inl ⟨_, rfl⟩
        | exact .inr ⟨rfl, rfl, rfl, rfl⟩

theorem assembleLine_laid {tb db : Nat} {s t : AsmState} {l : Line} (hs : Laid tb db s)
    (h : assembleLine s l = some t) : Laid tb db t := by
  obtain ⟨bs, rfl⟩ | ⟨h1, h2, h3, h4⟩ := assembleLine_zones h
  · exact emit_laid hs bs
  · exact ⟨h1 ▸ h3 ▸ hs.text, h2 ▸ h4 ▸ hs.data⟩

theorem assembleLines_laid {tb db : Nat} {s t : AsmState} {ls : List Line} (hs : Laid tb db s)
    (h : assembleLines s ls = some t) : Laid tb db t := by
  induction ls generalizing s with
  | nil => simp only [assembleLines, Option.some.injEq] at h; exact h ▸ hs
  | cons l ls ih =>
    simp only [assembleLines] at h
    split at h
    · simp only [Option.some.injEq] at h; exact h ▸ hs
    · split at h
      · exact ih (assembleLine_laid hs ‹_›) h
      · cases h

/-- Lines in two parts: the first, and then the second from where it left the assembler. -/
theorem assembleLines_append (s : AsmState) (xs ys : List Line) :
    assembleLines s (xs ++ ys) = (assembleLines s xs).bind fun t => assembleLines t ys := by
  induction xs generalizing s with
  | nil => rfl
  | cons x xs ih =>
    simp only [List.cons_append, assembleLines]
    split
    · cases ys <;> simp [assembleLines, *]
    · split
      · exact ih _
      · rfl

/-- Nothing after `.end` is read. -/
theorem assembleLines_end (s : AsmState) (ls : List Line) :
    assembleLines s (.directive .endOfSource :: ls) = some { s with ended := true } := by
  cases hs : s.ended with
  | true => cases s; simp_all [assembleLines]
  | false => cases ls <;> simp [assembleLines, hs, assembleLine, assembleDirective]

/-- All that `assemble` can answer: zones laid out from their bases, which fit. -/
theorem assemble_laid {tb db : Nat} {src : List Line} {t : AsmState} (h : assemble tb db src = some t) :
    Laid tb db t ∧ t.fits tb db = true := by
  unfold assemble at h
  split at h
  · cases h
  · split at h
    · cases h
    · split at h
      · simp only [Option.some.injEq] at h
        subst h
        exact ⟨assembleLines_laid (start_laid tb db _) ‹_›, ‹_›⟩
      · cases h

theorem read_writes_other (cells : List Host.Cell) (m : Memory) {x : Nat} (h : ∀ c ∈ cells, c.1 ≠ x) :
    Memory.read (cells.foldl (fun m c => Memory.write m c.1 c.2) m) x = Memory.read m x := by
  induction cells generalizing m with
  | nil => rfl
  | cons c cells ih =>
    rw [List.foldl_cons, ih _ fun d hd => h d (List.mem_cons_of_mem _ hd),
      read_write_other _ _ (h c List.mem_cons_self).symm]

theorem read_writes_at (cells : List Host.Cell) (m : Memory) (hn : (cells.map (·.1)).Nodup)
    {c : Host.Cell} (hc : c ∈ cells) :
    Memory.read (cells.foldl (fun m c => Memory.write m c.1 c.2) m) c.1 = c.2 := by
  induction cells generalizing m with
  | nil => cases hc
  | cons d cells ih =>
    rw [List.map_cons, List.nodup_cons] at hn
    rw [List.foldl_cons]
    obtain rfl | hc := List.mem_cons.mp hc
    · rw [read_writes_other cells _ fun e he => ?_, read_write_same]
      rintro heq
      exact hn.1 (heq ▸ List.mem_map_of_mem he)
    · exact ih _ hn.2 hc

theorem wf_writes {cells : List Host.Cell} (hc : ∀ c ∈ cells, c.1 < 2 ^ 32) {m : Memory}
    (hm : Memory.wf m) : Memory.wf (cells.foldl (fun m c => Memory.write m c.1 c.2) m) := by
  induction cells generalizing m with
  | nil => exact hm
  | cons c cells ih =>
    exact ih (fun d hd => hc d (List.mem_cons_of_mem _ hd))
      (wf_write hm (hc c List.mem_cons_self) c.2)

/-- The stack regions hold each of the `size` addresses below `sp`, modulo 2^32. -/
theorem stackRegions_contains (sp : Word) (size k : Nat) (h0 : 0 < k) (hk : k ≤ size) :
    (stackRegions sp.toNat size).any (fun r => Region.contains r (sp - BitVec.ofNat 32 k)) = true := by
  have hsub : (sp - BitVec.ofNat 32 k).toNat = (2 ^ 32 - k % 2 ^ 32 + sp.toNat) % 2 ^ 32 := by
    simp [BitVec.toNat_sub]
  have hsp := sp.isLt
  unfold stackRegions
  split <;> simp [Region.contains, hsub] <;> omega

end Sys2Proof.Laws
end

