-- ==== Sys2Proof/Laws/State.lean ====
section
/-! SUPPORT. One lemma per field per update of the state, and the reads of a register after a write. -/

namespace Sys2Proof.Machine

/-! ### Register numbers -/

theorem Reg.toNat_lt_of_ne_pc {r : Reg} (h : r ≠ Reg.pc) : r.toNat < 15 := by
  have := r.isLt
  have : r.toNat ≠ 15 := fun e => h (BitVec.eq_of_toNat_eq e)
  omega

@[simp] theorem LoReg.reg_toNat (r : LoReg) : r.reg.toNat = r.toNat := by
  have := r.isLt
  simp only [LoReg.reg, BitVec.toNat_setWidth]
  omega

theorem LoReg.reg_lt (r : LoReg) : r.reg.toNat < 8 := by
  rw [LoReg.reg_toNat]; exact r.isLt

@[simp] theorem LoReg.reg_ne_pc (r : LoReg) : r.reg ≠ Reg.pc := fun e => by
  have := LoReg.reg_lt r; rw [e] at this; exact absurd this (by decide)

@[simp] theorem LoReg.reg_ne_lr (r : LoReg) : r.reg ≠ Reg.lr := fun e => by
  have := LoReg.reg_lt r; rw [e] at this; exact absurd this (by decide)

@[simp] theorem LoReg.reg_ne_sp (r : LoReg) : r.reg ≠ Reg.sp := fun e => by
  have := LoReg.reg_lt r; rw [e] at this; exact absurd this (by decide)

@[simp] theorem LoReg.reg_inj {r q : LoReg} : r.reg = q.reg ↔ r = q := by
  refine ⟨fun h => BitVec.eq_of_toNat_eq ?_, fun h => h ▸ rfl⟩
  rw [← LoReg.reg_toNat r, ← LoReg.reg_toNat q, h]

/-! ### jump and advance -/

@[simp] theorem jump_regs (s : State) (t : Word) : (s.jump t).regs = s.regs := rfl
@[simp] theorem jump_pc (s : State) (t : Word) : (s.jump t).pc = t := rfl
@[simp] theorem jump_flags (s : State) (t : Word) : (s.jump t).flags = s.flags := rfl
@[simp] theorem jump_mem (s : State) (t : Word) : (s.jump t).mem = s.mem := rfl
@[simp] theorem jump_platform (s : State) (t : Word) : (s.jump t).platform = s.platform := rfl

@[simp] theorem advance_regs (s : State) : s.advance.regs = s.regs := rfl
@[simp] theorem advance_pc (s : State) : s.advance.pc = s.pc + 2#32 := rfl
@[simp] theorem advance_flags (s : State) : s.advance.flags = s.flags := rfl
@[simp] theorem advance_mem (s : State) : s.advance.mem = s.mem := rfl
@[simp] theorem advance_platform (s : State) : s.advance.platform = s.platform := rfl

/-! ### setReg and setLo -/

@[simp] theorem setReg_pc (s : State) (r : Reg) (v : Word) : (s.setReg r v).pc = s.pc := by
  unfold State.setReg; split <;> rfl
@[simp] theorem setReg_flags (s : State) (r : Reg) (v : Word) : (s.setReg r v).flags = s.flags := by
  unfold State.setReg; split <;> rfl
@[simp] theorem setReg_mem (s : State) (r : Reg) (v : Word) : (s.setReg r v).mem = s.mem := by
  unfold State.setReg; split <;> rfl
@[simp] theorem setReg_platform (s : State) (r : Reg) (v : Word) :
    (s.setReg r v).platform = s.platform := by
  unfold State.setReg; split <;> rfl

@[simp] theorem setLo_pc (s : State) (r : LoReg) (v : Word) : (s.setLo r v).pc = s.pc := setReg_pc ..
@[simp] theorem setLo_flags (s : State) (r : LoReg) (v : Word) : (s.setLo r v).flags = s.flags :=
  setReg_flags ..
@[simp] theorem setLo_mem (s : State) (r : LoReg) (v : Word) : (s.setLo r v).mem = s.mem :=
  setReg_mem ..
@[simp] theorem setLo_platform (s : State) (r : LoReg) (v : Word) :
    (s.setLo r v).platform = s.platform := setReg_platform ..

/-! ### Flag updates -/

@[simp] theorem setNZ_regs (s : State) (r : Word) : (s.setNZ r).regs = s.regs := rfl
@[simp] theorem setNZ_pc (s : State) (r : Word) : (s.setNZ r).pc = s.pc := rfl
@[simp] theorem setNZ_flags (s : State) (r : Word) :
    (s.setNZ r).flags = ⟨r.getLsbD 31, r == 0#32, s.flags.c, s.flags.v⟩ := rfl
@[simp] theorem setNZ_mem (s : State) (r : Word) : (s.setNZ r).mem = s.mem := rfl
@[simp] theorem setNZ_platform (s : State) (r : Word) : (s.setNZ r).platform = s.platform := rfl

@[simp] theorem setNZCV_regs (s : State) (a : AddResult) : (s.setNZCV a).regs = s.regs := rfl
@[simp] theorem setNZCV_pc (s : State) (a : AddResult) : (s.setNZCV a).pc = s.pc := rfl
@[simp] theorem setNZCV_flags (s : State) (a : AddResult) :
    (s.setNZCV a).flags = ⟨a.result.getLsbD 31, a.result == 0#32, a.carry, a.overflow⟩ := rfl
@[simp] theorem setNZCV_mem (s : State) (a : AddResult) : (s.setNZCV a).mem = s.mem := rfl
@[simp] theorem setNZCV_platform (s : State) (a : AddResult) :
    (s.setNZCV a).platform = s.platform := rfl

@[simp] theorem setShift_regs (s : State) (r : ShiftResult) : (s.setShift r).regs = s.regs := rfl
@[simp] theorem setShift_pc (s : State) (r : ShiftResult) : (s.setShift r).pc = s.pc := rfl
@[simp] theorem setShift_flags (s : State) (r : ShiftResult) :
    (s.setShift r).flags =
      ⟨r.result.getLsbD 31, r.result == 0#32, r.carry.getD s.flags.c, s.flags.v⟩ := rfl
@[simp] theorem setShift_mem (s : State) (r : ShiftResult) : (s.setShift r).mem = s.mem := rfl
@[simp] theorem setShift_platform (s : State) (r : ShiftResult) :
    (s.setShift r).platform = s.platform := rfl

/-! ### The writing tails of the data-processing families -/

@[simp] theorem writeAdd_pc (s : State) (rd : LoReg) (a : AddResult) :
    (s.writeAdd rd a).pc = s.pc + 2#32 := by simp [State.writeAdd]
@[simp] theorem writeAdd_flags (s : State) (rd : LoReg) (a : AddResult) :
    (s.writeAdd rd a).flags = ⟨a.result.getLsbD 31, a.result == 0#32, a.carry, a.overflow⟩ := rfl
@[simp] theorem writeAdd_mem (s : State) (rd : LoReg) (a : AddResult) :
    (s.writeAdd rd a).mem = s.mem := by simp [State.writeAdd]
@[simp] theorem writeAdd_platform (s : State) (rd : LoReg) (a : AddResult) :
    (s.writeAdd rd a).platform = s.platform := by simp [State.writeAdd]

@[simp] theorem writeLogic_pc (s : State) (rd : LoReg) (r : Word) :
    (s.writeLogic rd r).pc = s.pc + 2#32 := by simp [State.writeLogic]
@[simp] theorem writeLogic_flags (s : State) (rd : LoReg) (r : Word) :
    (s.writeLogic rd r).flags = ⟨r.getLsbD 31, r == 0#32, s.flags.c, s.flags.v⟩ := by
  simp [State.writeLogic]
@[simp] theorem writeLogic_mem (s : State) (rd : LoReg) (r : Word) :
    (s.writeLogic rd r).mem = s.mem := by simp [State.writeLogic]
@[simp] theorem writeLogic_platform (s : State) (rd : LoReg) (r : Word) :
    (s.writeLogic rd r).platform = s.platform := by simp [State.writeLogic]

@[simp] theorem writeShift_pc (s : State) (rd : LoReg) (r : ShiftResult) :
    (s.writeShift rd r).pc = s.pc + 2#32 := by simp [State.writeShift]
@[simp] theorem writeShift_flags (s : State) (rd : LoReg) (r : ShiftResult) :
    (s.writeShift rd r).flags =
      ⟨r.result.getLsbD 31, r.result == 0#32, r.carry.getD s.flags.c, s.flags.v⟩ := by
  simp [State.writeShift]
@[simp] theorem writeShift_mem (s : State) (rd : LoReg) (r : ShiftResult) :
    (s.writeShift rd r).mem = s.mem := by simp [State.writeShift]
@[simp] theorem writeShift_platform (s : State) (rd : LoReg) (r : ShiftResult) :
    (s.writeShift rd r).platform = s.platform := by simp [State.writeShift]

/-! ### Reading a register after an update -/

/-- A register read depends only on the registers and, for the PC, on `pc`. -/
theorem reg_congr {s t : State} {r : Reg} (h : t.regs = s.regs) (hr : r ≠ Reg.pc) :
    t.reg r = s.reg r := by
  have := Reg.toNat_lt_of_ne_pc hr
  simp [State.reg, this, h]

/-- The PC as an operand reads as the instruction's address plus 4 (10_state R25). -/
@[simp] theorem reg_pc (s : State) : s.reg Reg.pc = s.pc + 4#32 := rfl

@[simp] theorem reg_setReg_same (s : State) {r : Reg} (v : Word) (hr : r ≠ Reg.pc) :
    (s.setReg r v).reg r = v := by
  have := Reg.toNat_lt_of_ne_pc hr
  simp [State.reg, State.setReg, this]

theorem reg_setReg_other (s : State) {r q : Reg} (v : Word) (h : q ≠ r) :
    (s.setReg r v).reg q = s.reg q := by
  have hn : r.toNat ≠ q.toNat := fun e => h (BitVec.eq_of_toNat_eq e.symm)
  unfold State.reg State.setReg
  split <;> split <;> simp [hn]

@[simp] theorem reg_jump (s : State) (t : Word) {r : Reg} (hr : r ≠ Reg.pc) :
    (s.jump t).reg r = s.reg r := reg_congr rfl hr

@[simp] theorem reg_advance (s : State) {r : Reg} (hr : r ≠ Reg.pc) : s.advance.reg r = s.reg r :=
  reg_congr rfl hr

@[simp] theorem reg_setNZ (s : State) (v : Word) (r : Reg) : (s.setNZ v).reg r = s.reg r := rfl
@[simp] theorem reg_setNZCV (s : State) (a : AddResult) (r : Reg) :
    (s.setNZCV a).reg r = s.reg r := rfl
@[simp] theorem reg_setShift (s : State) (a : ShiftResult) (r : Reg) :
    (s.setShift a).reg r = s.reg r := rfl
@[simp] theorem reg_withMem (s : State) (m : Memory) (r : Reg) :
    State.reg { s with mem := m } r = s.reg r := rfl

@[simp] theorem reg_setLo_same (s : State) (r : LoReg) (v : Word) : (s.setLo r v).reg r.reg = v :=
  reg_setReg_same s v (LoReg.reg_ne_pc r)

theorem reg_setLo_other (s : State) {r : LoReg} {q : Reg} (v : Word) (h : q ≠ r.reg) :
    (s.setLo r v).reg q = s.reg q := reg_setReg_other s v h

/-- A low register is never the PC, so a jump leaves it. -/
@[simp] theorem lo_jump (s : State) (t : Word) (r : LoReg) : (s.jump t).lo r = s.lo r :=
  reg_jump s t (LoReg.reg_ne_pc r)

@[simp] theorem lo_advance (s : State) (r : LoReg) : s.advance.lo r = s.lo r :=
  reg_advance s (LoReg.reg_ne_pc r)

@[simp] theorem lo_setLo_same (s : State) (r : LoReg) (v : Word) : (s.setLo r v).lo r = v :=
  reg_setLo_same s r v

theorem lo_setLo_other (s : State) {r q : LoReg} (v : Word) (h : q ≠ r) :
    (s.setLo r v).lo q = s.lo q := reg_setLo_other s v (by simpa using h)

@[simp] theorem lo_setNZ (s : State) (v : Word) (r : LoReg) : (s.setNZ v).lo r = s.lo r := rfl
@[simp] theorem lo_setNZCV (s : State) (a : AddResult) (r : LoReg) :
    (s.setNZCV a).lo r = s.lo r := rfl
@[simp] theorem lo_setShift (s : State) (a : ShiftResult) (r : LoReg) :
    (s.setShift a).lo r = s.lo r := rfl

/-- What a data-processing instruction leaves in its destination. -/
@[simp] theorem lo_writeAdd_same (s : State) (rd : LoReg) (a : AddResult) :
    (s.writeAdd rd a).lo rd = a.result := by simp [State.writeAdd]
@[simp] theorem lo_writeLogic_same (s : State) (rd : LoReg) (r : Word) :
    (s.writeLogic rd r).lo rd = r := by simp [State.writeLogic]
@[simp] theorem lo_writeShift_same (s : State) (rd : LoReg) (r : ShiftResult) :
    (s.writeShift rd r).lo rd = r.result := by simp [State.writeShift]

/-- A byte read depends only on the memory. -/
theorem byte_congr {s t : State} (h : t.mem = s.mem) (a : Word) : t.byte a = s.byte a := by
  simp [State.byte, h]

end Sys2Proof.Machine
end

