-- ==== Sys2Proof/Laws/Ops.lean ====
section
/-! SUPPORT. One lemma per shared operation that says all it can do; meanings are reasoned about through
these. -/

namespace Sys2Proof.Machine

theorem mem_footprint {a x : Word} {n : Nat} :
    x ∈ footprint a n ↔ ∃ i, i < n ∧ a + BitVec.ofNat 32 i = x := by
  simp [footprint]

/-- The checks of `MemRead`, whole: aligned and mapped, or the fault of the first check that fails. -/
theorem checkRead_cases (s : State) (a : Word) (n : Nat) :
    (s.CanRead a n ∧ s.checkRead a n = .ok ()) ∨
    (a.toNat % n ≠ 0 ∧ s.checkRead a n = .error (.fault (.alignment a n))) ∨
    (a.toNat % n = 0 ∧ ¬ s.CanRead a n ∧ s.checkRead a n = .error (.fault (.unmapped a n))) := by
  unfold State.checkRead State.CanRead
  by_cases ha : a.toNat % n = 0
  · by_cases hm : (footprint a n).all s.isMapped = true
    · left
      simp only [ha, hm]
      exact ⟨⟨trivial, fun i hi => List.all_eq_true.1 hm _ (mem_footprint.2 ⟨i, hi, rfl⟩)⟩, by simp⟩
    · right; right
      refine ⟨ha, fun hc => hm (List.all_eq_true.2 fun x hx => ?_), by simp [ha, hm]⟩
      obtain ⟨i, hi, rfl⟩ := mem_footprint.1 hx
      exact hc.2 i hi
  · right; left
    exact ⟨ha, by simp [ha]⟩

theorem checkRead_ok {s : State} {a : Word} {n : Nat} :
    s.checkRead a n = .ok () ↔ s.CanRead a n := by
  rcases checkRead_cases s a n with ⟨h, e⟩ | ⟨h, e⟩ | ⟨_, h, e⟩ <;> simp [e, h]
  exact fun hc => h hc.1

/-- The checks of `MemWrite`, whole: those of `MemRead`, then `TEXT`. -/
theorem checkWrite_cases (s : State) (a : Word) (n : Nat) :
    (s.CanWrite a n ∧ s.checkWrite a n = .ok ()) ∨
    (∃ f, s.checkRead a n = .error f ∧ s.checkWrite a n = .error f) ∨
    (s.CanRead a n ∧ ¬ s.CanWrite a n ∧ s.checkWrite a n = .error (.refuse (.storeToText a))) := by
  unfold State.checkWrite
  rcases checkRead_cases s a n with ⟨h, e⟩ | ⟨_, e⟩ | ⟨_, _, e⟩
  · by_cases ht : (footprint a n).any s.isText = true
    · right; right
      refine ⟨h, fun hc => ?_, by simp [e, ht]⟩
      obtain ⟨x, hx, hxt⟩ := List.any_eq_true.1 ht
      obtain ⟨i, hi, rfl⟩ := mem_footprint.1 hx
      rw [hc.2 i hi] at hxt
      exact absurd hxt (by decide)
    · left
      refine ⟨⟨h, fun i hi => ?_⟩, by simp [e, ht]⟩
      simp only [Bool.not_eq_true] at ht
      have := List.any_eq_false.1 ht _ (mem_footprint.2 ⟨i, hi, rfl⟩)
      simpa using this
  · exact .inr (.inl ⟨_, e, by simp [e]⟩)
  · exact .inr (.inl ⟨_, e, by simp [e]⟩)

theorem checkWrite_ok {s : State} {a : Word} {n : Nat} :
    s.checkWrite a n = .ok () ↔ s.CanWrite a n := by
  rcases checkWrite_cases s a n with ⟨h, e⟩ | ⟨f, h, e⟩ | ⟨_, h, e⟩
  · simp [e, h]
  · simp only [e, reduceCtorEq, false_iff]
    intro hc
    rw [checkRead_ok.2 hc.1] at h
    cases h
  · simp [e, h]

/-- `MemRead` answers the datum exactly where its bytes can be read. -/
theorem memRead_ok {s : State} {a : Word} {n : Nat} {v : Word} :
    s.memRead a n = .ok v ↔ s.CanRead a n ∧ v = Memory.loadBytes s.mem a n := by
  unfold State.memRead
  rw [← checkRead_ok]
  cases h : s.checkRead a n <;> simp [eq_comm]

/-- `MemWrite` answers the state with the bytes stored exactly where its bytes can be written. -/
theorem memWrite_ok {s t : State} {a : Word} {n : Nat} {v : Word} :
    s.memWrite a n v = .ok t ↔
      s.CanWrite a n ∧ t = { s with mem := Memory.storeBytes s.mem a n v } := by
  unfold State.memWrite
  rw [← checkWrite_ok]
  cases h : s.checkWrite a n <;> simp [eq_comm]

/-! ### A datum and its bytes -/

theorem or_shift_bytes (w : Nat) (x : BitVec w) (b : Byte) :
    (x.setWidth 32 <<< 8 ||| b.setWidth 32 : Word) = (x ++ b).setWidth 32 := by
  apply BitVec.eq_of_getLsbD_eq
  intro i hi
  simp only [BitVec.getLsbD_or, BitVec.getLsbD_shiftLeft, BitVec.getLsbD_setWidth,
    BitVec.getLsbD_append]
  by_cases h8 : i < 8
  · simp [h8, hi]
  · have hb : b.getLsbD i = false := BitVec.getLsbD_of_ge _ _ (by omega)
    have h32 : i - 8 < 32 := by omega
    simp [h8, hi, hb, h32]

/-- A byte loaded, with zeros above. -/
theorem loadBytes_one (s : State) (a : Word) :
    Memory.loadBytes s.mem a 1 = (s.byte a).setWidth 32 := by
  simp [Memory.loadBytes, State.byte]

/-- A halfword loaded, with zeros above. -/
theorem loadBytes_two (s : State) (a : Word) :
    Memory.loadBytes s.mem a 2 = (s.halfAt a).setWidth 32 := by
  rw [Memory.loadBytes, loadBytes_one, ← State.byte, or_shift_bytes 8 _ _]
  rfl

/-- A word loaded. -/
theorem loadBytes_four (s : State) (a : Word) : Memory.loadBytes s.mem a 4 = s.wordAt a := by
  have h2 : a + 1#32 + 1#32 + 1#32 = a + 3#32 := by rw [BitVec.add_assoc, BitVec.add_assoc]; rfl
  have h3 : a + 1#32 + 1#32 = a + 2#32 := by rw [BitVec.add_assoc]; rfl
  rw [Memory.loadBytes, Memory.loadBytes, loadBytes_two, State.halfAt, ← State.byte, ← State.byte,
    h2, h3, or_shift_bytes 16 _ _, or_shift_bytes 24 _ _]
  exact BitVec.setWidth_eq _

/-- A stop has no next state. -/
@[simp] theorem take_ne_next (e : Stop) (t : State) : e.take ≠ .next t := by cases e <;> simp [Stop.take]

/-- Everything a load can do when it answers a next state. -/
theorem loadTo_next {s t : State} {rd : LoReg} {a : Word} {n : Nat} {f : Word → Word} :
    s.loadTo rd a n f = .next t ↔
      s.CanRead a n ∧ t = (s.setLo rd (f (Memory.loadBytes s.mem a n))).advance := by
  unfold State.loadTo
  cases h : s.memRead a n with
  | error e =>
    simp only [take_ne_next, false_iff, not_and]
    intro hc
    rw [memRead_ok.2 ⟨hc, rfl⟩] at h
    cases h
  | ok v =>
    obtain ⟨hc, rfl⟩ := memRead_ok.1 h
    simp [hc, eq_comm]

/-- Everything a store can do when it answers a next state. -/
theorem storeFrom_next {s t : State} {rd : LoReg} {a : Word} {n : Nat} :
    s.storeFrom rd a n = .next t ↔
      s.CanWrite a n ∧
        t = State.advance { s with mem := Memory.storeBytes s.mem a n (s.lo rd) } := by
  unfold State.storeFrom
  cases h : s.memWrite a n (s.lo rd) with
  | error e =>
    simp only [take_ne_next, false_iff, not_and]
    intro hc
    rw [memWrite_ok.2 ⟨hc, rfl⟩] at h
    cases h
  | ok v =>
    obtain ⟨hc, rfl⟩ := memWrite_ok.1 h
    simp [hc, eq_comm]

/-- All checks pass exactly when each does. -/
theorem checkAll_ok {f : Word → Except Stop Unit} {l : List Word} :
    checkAll f l = .ok () ↔ ∀ a ∈ l, f a = .ok () := by
  induction l with
  | nil => simp [checkAll]
  | cons a l ih => cases h : f a <;> simp [checkAll, h, ih]

/-- Everything a `push` of a register list can do when it answers a next state. -/
theorem pushRegs_next {s t : State} {l : List Reg} :
    s.pushRegs l = .next t ↔
      (∀ a ∈ slots (s.pushBase l.length) l.length, s.CanWrite a 4) ∧
        t = (State.setReg
          { s with mem := Memory.storeWords s.mem (s.pushBase l.length) (l.map s.reg) }
          Reg.sp (s.pushBase l.length)).advance := by
  have hk : checkAll (fun a => s.checkWrite a 4) (slots (s.pushBase l.length) l.length) = .ok () ↔
      ∀ a ∈ slots (s.pushBase l.length) l.length, s.CanWrite a 4 := by
    simp only [checkAll_ok, checkWrite_ok]
  unfold State.pushRegs
  rw [← hk]
  dsimp only
  split <;> rename_i h
  · simp [h]
  · simp [h, eq_comm]

/-! ### Writing a list of registers -/

@[simp] theorem setRegs_pc (s : State) (l : List Reg) (vs : List Word) :
    (s.setRegs l vs).pc = s.pc := by
  induction l generalizing s vs with
  | nil => rfl
  | cons r l ih => cases vs <;> simp [State.setRegs, ih]

@[simp] theorem setRegs_flags (s : State) (l : List Reg) (vs : List Word) :
    (s.setRegs l vs).flags = s.flags := by
  induction l generalizing s vs with
  | nil => rfl
  | cons r l ih => cases vs <;> simp [State.setRegs, ih]

@[simp] theorem setRegs_mem (s : State) (l : List Reg) (vs : List Word) :
    (s.setRegs l vs).mem = s.mem := by
  induction l generalizing s vs with
  | nil => rfl
  | cons r l ih => cases vs <;> simp [State.setRegs, ih]

@[simp] theorem setRegs_platform (s : State) (l : List Reg) (vs : List Word) :
    (s.setRegs l vs).platform = s.platform := by
  induction l generalizing s vs with
  | nil => rfl
  | cons r l ih => cases vs <;> simp [State.setRegs, ih]

/-- A register not in the list keeps its value. -/
theorem reg_setRegs_other (s : State) {l : List Reg} (vs : List Word) {q : Reg} (h : q ∉ l) :
    (s.setRegs l vs).reg q = s.reg q := by
  induction l generalizing s vs with
  | nil => rfl
  | cons r l ih =>
    simp only [List.mem_cons, not_or] at h
    cases vs with
    | nil => rfl
    | cons v vs => rw [State.setRegs, ih _ _ h.2, reg_setReg_other _ _ h.1]

/-- A register list names low registers only (46 R200 item 7). -/
theorem loRegList_low {rlist : BitVec 8} {r : Reg} (h : r ∈ loRegList rlist) : r.toNat < 8 := by
  simp only [loRegList, List.mem_map, List.mem_filter, List.mem_range] at h
  obtain ⟨i, ⟨hi, _⟩, rfl⟩ := h
  simp only [BitVec.toNat_ofNat]
  omega

/-! ### `pop` -/

/-- Everything `pop <loreglist>` can do when it answers a next state. -/
theorem execPop_next {s t : State} {rlist : BitVec 8} :
    execPop rlist s = .next t ↔
      rlist ≠ 0#8 ∧
        (∀ a ∈ slots (s.reg Reg.sp) (loRegList rlist).length, s.CanRead a 4) ∧
        t = ((s.setRegs (loRegList rlist)
          (Memory.loadWords s.mem (s.reg Reg.sp) (loRegList rlist).length)).setReg Reg.sp
          (s.popEnd (loRegList rlist).length)).advance := by
  have hk : checkAll (fun a => s.checkRead a 4) (slots (s.reg Reg.sp) (loRegList rlist).length) =
      .ok () ↔ ∀ a ∈ slots (s.reg Reg.sp) (loRegList rlist).length, s.CanRead a 4 := by
    simp only [checkAll_ok, checkRead_ok]
  rw [← hk]
  unfold execPop
  split
  · simp [*]
  · dsimp only
    split <;> rename_i h0 _ _ h
    · simp [h]
    · simp [h, h0, eq_comm]

/-- Everything `pop <loreglist+PC>` can do when it answers a next state. -/
theorem execPopPc_next {s t : State} {rlist : BitVec 8} :
    execPopPc rlist s = .next t ↔
      (∀ a ∈ slots (s.reg Reg.sp) ((loRegList rlist).length + 1), s.CanRead a 4) ∧
        (s.wordAt (s.reg Reg.sp + BitVec.ofNat 32 (4 * (loRegList rlist).length))).extractLsb' 0 1 =
          s.platform.lrBit0 ∧
        t = ((s.setRegs (loRegList rlist)
          (Memory.loadWords s.mem (s.reg Reg.sp) (loRegList rlist).length)).setReg Reg.sp
          (s.popEnd ((loRegList rlist).length + 1))).jump
          (clearBit0
            (s.wordAt (s.reg Reg.sp + BitVec.ofNat 32 (4 * (loRegList rlist).length)))) := by
  have hk : checkAll (fun a => s.checkRead a 4)
        (slots (s.reg Reg.sp) ((loRegList rlist).length + 1)) = .ok () ↔
      ∀ a ∈ slots (s.reg Reg.sp) ((loRegList rlist).length + 1), s.CanRead a 4 := by
    simp only [checkAll_ok, checkRead_ok]
  rw [← hk]
  unfold execPopPc
  simp only [loadBytes_four]
  split <;> rename_i h
  · simp [h]
  · split <;> rename_i h2
    · simp [h, h2]
    · simp only [ne_eq, Decidable.not_not] at h2
      simp [h, h2, eq_comm]

end Sys2Proof.Machine
end

