-- ==== Sys2Proof/Laws/PerInstr.lean ====
section
/-! SUPPORT. The family `EncodedLength`, one lemma per instruction: the encoding of an instruction is a
halfword, two for `bl`, and so as many bytes as the instruction is long (30_encoding R60). -/

namespace Sys2Proof

/-- The encoder writes exactly the bytes the instruction occupies, at least one halfword and at most
two. -/
def Laws.EncodedLength.Statement (i : Instr) : Prop :=
  (encodeBytes i).length = i.byteLength ∧ (encode i).length * 2 = i.byteLength ∧
    (i.byteLength = 2 ∨ i.byteLength = 4)

theorem Laws.EncodedLength.movLo (rd rm : LoReg) :
    Laws.EncodedLength.Statement (.movLo rd rm) := ⟨rfl, rfl, .inl rfl⟩

theorem Laws.EncodedLength.lslImm (rd rm : LoReg) (imm5 : BitVec 5) :
    Laws.EncodedLength.Statement (.lslImm rd rm imm5) := ⟨rfl, rfl, .inl rfl⟩

theorem Laws.EncodedLength.lsrImm (rd rm : LoReg) (imm5 : BitVec 5) :
    Laws.EncodedLength.Statement (.lsrImm rd rm imm5) := ⟨rfl, rfl, .inl rfl⟩

theorem Laws.EncodedLength.asrImm (rd rm : LoReg) (imm5 : BitVec 5) :
    Laws.EncodedLength.Statement (.asrImm rd rm imm5) := ⟨rfl, rfl, .inl rfl⟩

theorem Laws.EncodedLength.addLo (rd rn rm : LoReg) :
    Laws.EncodedLength.Statement (.addLo rd rn rm) := ⟨rfl, rfl, .inl rfl⟩

theorem Laws.EncodedLength.subLo (rd rn rm : LoReg) :
    Laws.EncodedLength.Statement (.subLo rd rn rm) := ⟨rfl, rfl, .inl rfl⟩

theorem Laws.EncodedLength.addImm3 (rd rn : LoReg) (imm3 : BitVec 3) :
    Laws.EncodedLength.Statement (.addImm3 rd rn imm3) := ⟨rfl, rfl, .inl rfl⟩

theorem Laws.EncodedLength.subImm3 (rd rn : LoReg) (imm3 : BitVec 3) :
    Laws.EncodedLength.Statement (.subImm3 rd rn imm3) := ⟨rfl, rfl, .inl rfl⟩

theorem Laws.EncodedLength.movImm (rd : LoReg) (imm8 : BitVec 8) :
    Laws.EncodedLength.Statement (.movImm rd imm8) := ⟨rfl, rfl, .inl rfl⟩

theorem Laws.EncodedLength.cmpImm (rn : LoReg) (imm8 : BitVec 8) :
    Laws.EncodedLength.Statement (.cmpImm rn imm8) := ⟨rfl, rfl, .inl rfl⟩

theorem Laws.EncodedLength.addImm8 (rd : LoReg) (imm8 : BitVec 8) :
    Laws.EncodedLength.Statement (.addImm8 rd imm8) := ⟨rfl, rfl, .inl rfl⟩

theorem Laws.EncodedLength.subImm8 (rd : LoReg) (imm8 : BitVec 8) :
    Laws.EncodedLength.Statement (.subImm8 rd imm8) := ⟨rfl, rfl, .inl rfl⟩

theorem Laws.EncodedLength.andReg (rd rm : LoReg) :
    Laws.EncodedLength.Statement (.andReg rd rm) := ⟨rfl, rfl, .inl rfl⟩

theorem Laws.EncodedLength.eorReg (rd rm : LoReg) :
    Laws.EncodedLength.Statement (.eorReg rd rm) := ⟨rfl, rfl, .inl rfl⟩

theorem Laws.EncodedLength.lslReg (rd rs : LoReg) :
    Laws.EncodedLength.Statement (.lslReg rd rs) := ⟨rfl, rfl, .inl rfl⟩

theorem Laws.EncodedLength.lsrReg (rd rs : LoReg) :
    Laws.EncodedLength.Statement (.lsrReg rd rs) := ⟨rfl, rfl, .inl rfl⟩

theorem Laws.EncodedLength.asrReg (rd rs : LoReg) :
    Laws.EncodedLength.Statement (.asrReg rd rs) := ⟨rfl, rfl, .inl rfl⟩

theorem Laws.EncodedLength.rorReg (rd rs : LoReg) :
    Laws.EncodedLength.Statement (.rorReg rd rs) := ⟨rfl, rfl, .inl rfl⟩

theorem Laws.EncodedLength.tst (rn rm : LoReg) :
    Laws.EncodedLength.Statement (.tst rn rm) := ⟨rfl, rfl, .inl rfl⟩

theorem Laws.EncodedLength.neg (rd rn : LoReg) :
    Laws.EncodedLength.Statement (.neg rd rn) := ⟨rfl, rfl, .inl rfl⟩

theorem Laws.EncodedLength.cmpLo (rn rm : LoReg) :
    Laws.EncodedLength.Statement (.cmpLo rn rm) := ⟨rfl, rfl, .inl rfl⟩

theorem Laws.EncodedLength.cmn (rn rm : LoReg) :
    Laws.EncodedLength.Statement (.cmn rn rm) := ⟨rfl, rfl, .inl rfl⟩

theorem Laws.EncodedLength.orrReg (rd rm : LoReg) :
    Laws.EncodedLength.Statement (.orrReg rd rm) := ⟨rfl, rfl, .inl rfl⟩

theorem Laws.EncodedLength.mul (rd rm : LoReg) :
    Laws.EncodedLength.Statement (.mul rd rm) := ⟨rfl, rfl, .inl rfl⟩

theorem Laws.EncodedLength.bicReg (rd rm : LoReg) :
    Laws.EncodedLength.Statement (.bicReg rd rm) := ⟨rfl, rfl, .inl rfl⟩

theorem Laws.EncodedLength.mvnReg (rd rm : LoReg) :
    Laws.EncodedLength.Statement (.mvnReg rd rm) := ⟨rfl, rfl, .inl rfl⟩

theorem Laws.EncodedLength.addHi (rd rm : Reg) :
    Laws.EncodedLength.Statement (.addHi rd rm) := ⟨rfl, rfl, .inl rfl⟩

theorem Laws.EncodedLength.cmpHi (rn rm : Reg) :
    Laws.EncodedLength.Statement (.cmpHi rn rm) := ⟨rfl, rfl, .inl rfl⟩

theorem Laws.EncodedLength.movHi (rd rm : Reg) :
    Laws.EncodedLength.Statement (.movHi rd rm) := ⟨rfl, rfl, .inl rfl⟩

theorem Laws.EncodedLength.ldrPc (rd : LoReg) (imm8 : BitVec 8) :
    Laws.EncodedLength.Statement (.ldrPc rd imm8) := ⟨rfl, rfl, .inl rfl⟩

theorem Laws.EncodedLength.strReg (rd rn rm : LoReg) :
    Laws.EncodedLength.Statement (.strReg rd rn rm) := ⟨rfl, rfl, .inl rfl⟩

theorem Laws.EncodedLength.strhReg (rd rn rm : LoReg) :
    Laws.EncodedLength.Statement (.strhReg rd rn rm) := ⟨rfl, rfl, .inl rfl⟩

theorem Laws.EncodedLength.strbReg (rd rn rm : LoReg) :
    Laws.EncodedLength.Statement (.strbReg rd rn rm) := ⟨rfl, rfl, .inl rfl⟩

theorem Laws.EncodedLength.ldrsbReg (rd rn rm : LoReg) :
    Laws.EncodedLength.Statement (.ldrsbReg rd rn rm) := ⟨rfl, rfl, .inl rfl⟩

theorem Laws.EncodedLength.ldrReg (rd rn rm : LoReg) :
    Laws.EncodedLength.Statement (.ldrReg rd rn rm) := ⟨rfl, rfl, .inl rfl⟩

theorem Laws.EncodedLength.ldrhReg (rd rn rm : LoReg) :
    Laws.EncodedLength.Statement (.ldrhReg rd rn rm) := ⟨rfl, rfl, .inl rfl⟩

theorem Laws.EncodedLength.ldrbReg (rd rn rm : LoReg) :
    Laws.EncodedLength.Statement (.ldrbReg rd rn rm) := ⟨rfl, rfl, .inl rfl⟩

theorem Laws.EncodedLength.ldrshReg (rd rn rm : LoReg) :
    Laws.EncodedLength.Statement (.ldrshReg rd rn rm) := ⟨rfl, rfl, .inl rfl⟩

theorem Laws.EncodedLength.strImm (rd rn : LoReg) (imm5 : BitVec 5) :
    Laws.EncodedLength.Statement (.strImm rd rn imm5) := ⟨rfl, rfl, .inl rfl⟩

theorem Laws.EncodedLength.ldrImm (rd rn : LoReg) (imm5 : BitVec 5) :
    Laws.EncodedLength.Statement (.ldrImm rd rn imm5) := ⟨rfl, rfl, .inl rfl⟩

theorem Laws.EncodedLength.strbImm (rd rn : LoReg) (imm5 : BitVec 5) :
    Laws.EncodedLength.Statement (.strbImm rd rn imm5) := ⟨rfl, rfl, .inl rfl⟩

theorem Laws.EncodedLength.ldrbImm (rd rn : LoReg) (imm5 : BitVec 5) :
    Laws.EncodedLength.Statement (.ldrbImm rd rn imm5) := ⟨rfl, rfl, .inl rfl⟩

theorem Laws.EncodedLength.strhImm (rd rn : LoReg) (imm5 : BitVec 5) :
    Laws.EncodedLength.Statement (.strhImm rd rn imm5) := ⟨rfl, rfl, .inl rfl⟩

theorem Laws.EncodedLength.ldrhImm (rd rn : LoReg) (imm5 : BitVec 5) :
    Laws.EncodedLength.Statement (.ldrhImm rd rn imm5) := ⟨rfl, rfl, .inl rfl⟩

theorem Laws.EncodedLength.strSp (rd : LoReg) (imm8 : BitVec 8) :
    Laws.EncodedLength.Statement (.strSp rd imm8) := ⟨rfl, rfl, .inl rfl⟩

theorem Laws.EncodedLength.ldrSp (rd : LoReg) (imm8 : BitVec 8) :
    Laws.EncodedLength.Statement (.ldrSp rd imm8) := ⟨rfl, rfl, .inl rfl⟩

theorem Laws.EncodedLength.addRdSp (rd : LoReg) (imm8 : BitVec 8) :
    Laws.EncodedLength.Statement (.addRdSp rd imm8) := ⟨rfl, rfl, .inl rfl⟩

theorem Laws.EncodedLength.addSp (imm7 : BitVec 7) :
    Laws.EncodedLength.Statement (.addSp imm7) := ⟨rfl, rfl, .inl rfl⟩

theorem Laws.EncodedLength.subSp (imm7 : BitVec 7) :
    Laws.EncodedLength.Statement (.subSp imm7) := ⟨rfl, rfl, .inl rfl⟩

theorem Laws.EncodedLength.sxth (rd rm : LoReg) :
    Laws.EncodedLength.Statement (.sxth rd rm) := ⟨rfl, rfl, .inl rfl⟩

theorem Laws.EncodedLength.sxtb (rd rm : LoReg) :
    Laws.EncodedLength.Statement (.sxtb rd rm) := ⟨rfl, rfl, .inl rfl⟩

theorem Laws.EncodedLength.uxth (rd rm : LoReg) :
    Laws.EncodedLength.Statement (.uxth rd rm) := ⟨rfl, rfl, .inl rfl⟩

theorem Laws.EncodedLength.uxtb (rd rm : LoReg) :
    Laws.EncodedLength.Statement (.uxtb rd rm) := ⟨rfl, rfl, .inl rfl⟩

theorem Laws.EncodedLength.push (rlist : BitVec 8) :
    Laws.EncodedLength.Statement (.push rlist) := ⟨rfl, rfl, .inl rfl⟩

theorem Laws.EncodedLength.pushLr (rlist : BitVec 8) :
    Laws.EncodedLength.Statement (.pushLr rlist) := ⟨rfl, rfl, .inl rfl⟩

theorem Laws.EncodedLength.pop (rlist : BitVec 8) :
    Laws.EncodedLength.Statement (.pop rlist) := ⟨rfl, rfl, .inl rfl⟩

theorem Laws.EncodedLength.popPc (rlist : BitVec 8) :
    Laws.EncodedLength.Statement (.popPc rlist) := ⟨rfl, rfl, .inl rfl⟩

theorem Laws.EncodedLength.bCond (cond : Cond) (imm8 : BitVec 8) :
    Laws.EncodedLength.Statement (.bCond cond imm8) := ⟨rfl, rfl, .inl rfl⟩

theorem Laws.EncodedLength.b (imm11 : BitVec 11) :
    Laws.EncodedLength.Statement (.b imm11) := ⟨rfl, rfl, .inl rfl⟩

theorem Laws.EncodedLength.bl (immhi immlo : BitVec 11) :
    Laws.EncodedLength.Statement (.bl immhi immlo) := ⟨rfl, rfl, .inr rfl⟩

end Sys2Proof
end

