-- ==== Sys2Proof/Tests/Slice0.lean ====
section
/-! SUPPORT. The package's own tests: well-formedness, one hand-written word per instruction from the
encodings of spec/30_encoding.md, vectors of spec/95_test_vectors.md, and for every statement with
hypotheses a concrete case that meets them all. -/

namespace Sys2Proof.Tests

open Sys2Proof.Machine

/-! ### Helpers -/

/-- Words put in memory, little-endian. -/
def words (l : List (Nat × Nat)) : Memory :=
  l.foldl (fun m p => Memory.storeBytes m (BitVec.ofNat 32 p.1) 4 (BitVec.ofNat 32 p.2)) []

/-- The memory of the load vectors: `44 33 22 11 80 FF 7F 00 F0 0F FF FF` from 0x2000. -/
def loadMem : Memory := words [(0x2000, 0x11223344), (0x2004, 0x007FFF80), (0x2008, 0xFFFF0FF0)]

/-- The memory of the store vectors: `AA` from 0x2000 to 0x200B. -/
def storeMem : Memory := words [(0x2000, 0xAAAAAAAA), (0x2004, 0xAAAAAAAA), (0x2008, 0xAAAAAAAA)]

/-- The memory of the `pop` vectors. -/
def popMem : Memory :=
  words [(0x1FF0, 1), (0x1FF4, 2), (0x1FF8, 3), (0x1FFC, 0x300), (0x2000, 0xEE)]

/-- Halfwords put at consecutive addresses. -/
def putCode (m : Memory) (a : Nat) : List Nat → Memory
  | [] => m
  | h :: hs => putCode (Memory.storeBytes m (BitVec.ofNat 32 a) 2 (BitVec.ofNat 32 h)) (a + 2) hs

/-- A state at `a` with the given registers, flags NZCV, memory, mapped data, `LR_BIT0` and code. -/
def st (a : Nat) (regs : List (Nat × Nat)) (nzcv : Nat) (m : Memory) (data : List Region)
    (bit0 : BitVec 1) (code : List Nat) : State :=
  regs.foldl (fun s p => s.setReg (BitVec.ofNat 4 p.1) (BitVec.ofNat 32 p.2))
    { regs := Vector.replicate 15 0#32
      pc := BitVec.ofNat 32 a
      flags := ⟨nzcv / 8 % 2 == 1, nzcv / 4 % 2 == 1, nzcv / 2 % 2 == 1, nzcv % 2 == 1⟩
      mem := putCode m a code
      platform := ⟨[⟨a, 2 * code.length⟩], data, BitVec.ofNat 32 a, 0x2010#32, 0xFFFFFFFE#32, bit0⟩ }

/-- A next state with these registers, flags, `pc` and bytes. -/
def ends (r : Result) (regs : List (Nat × Nat)) (nzcv pc : Nat) (bytes : List (Nat × Nat)) : Bool :=
  match r with
  | .next t =>
    regs.all (fun p => (t.reg (BitVec.ofNat 4 p.1)).toNat == p.2) &&
      8 * t.flags.n.toNat + 4 * t.flags.z.toNat + 2 * t.flags.c.toNat + t.flags.v.toNat == nzcv &&
      t.pc.toNat == pc && bytes.all (fun p => (t.byte (BitVec.ofNat 32 p.1)).toNat == p.2)
  | _ => false

/-- A fault for this reason. -/
def faults (r : Result) (f : Fault) : Bool := match r with | .fault g => g == f | _ => false

/-- A refusal for this reason. -/
def refuses (r : Result) (f : Refusal) : Bool := match r with | .refused g => g == f | _ => false

/-- There is a next state. -/
def runs (r : Result) : Bool := match r with | .next _ => true | _ => false

/-! ### Well-formedness: an ill-formed term for each check -/

theorem test_wellFormed_refuses_addHi_both_low : (Instr.addHi 0 7).wellFormed = false := by decide
theorem test_wellFormed_refuses_cmpHi_both_low : (Instr.cmpHi 7 7).wellFormed = false := by decide
theorem test_wellFormed_refuses_movHi_both_low : (Instr.movHi 3 0).wellFormed = false := by decide
theorem test_wellFormed_refuses_empty_push : (Instr.push 0).wellFormed = false := by decide
theorem test_wellFormed_refuses_empty_pop : (Instr.pop 0).wellFormed = false := by decide
theorem test_wellFormed_accepts :
    (Instr.movHi 8 0).wellFormed = true ∧ (Instr.cmpHi 0 8).wellFormed = true ∧
      (Instr.addHi 15 15).wellFormed = true ∧ (Instr.push 0x80).wellFormed = true ∧
      (Instr.pushLr 0).wellFormed = true ∧ (Instr.popPc 0).wellFormed = true := by decide

/-! ### Words written out from the formats of 30_encoding, R63 to R79 -/

/-- Formats SHIFT_IMM and ADDSUB3 (R63, R64). -/
theorem test_decode_shift_imm_add_sub_3 :
    decodeTableWord 16 0b00000_00000_010_001 = some (.movLo 1 2) ∧
    decodeTableWord 16 0b00000_00101_010_001 = some (.lslImm 1 2 5) ∧
    decodeTableWord 16 0b00001_00000_010_001 = some (.lsrImm 1 2 0) ∧
    decodeTableWord 16 0b00010_11111_010_001 = some (.asrImm 1 2 31) ∧
    decodeTableWord 16 0b0001100_011_010_001 = some (.addLo 1 2 3) ∧
    decodeTableWord 16 0b0001101_011_010_001 = some (.subLo 1 2 3) ∧
    decodeTableWord 16 0b0001110_111_010_001 = some (.addImm3 1 2 7) ∧
    decodeTableWord 16 0b0001111_100_010_001 = some (.subImm3 1 2 4) := by decide

/-- Format IMM8 (R65). -/
theorem test_decode_imm8 :
    decodeTableWord 16 0b00100_101_10000001 = some (.movImm 5 0x81) ∧
    decodeTableWord 16 0b00101_101_10000001 = some (.cmpImm 5 0x81) ∧
    decodeTableWord 16 0b00110_101_10000001 = some (.addImm8 5 0x81) ∧
    decodeTableWord 16 0b00111_101_10000001 = some (.subImm8 5 0x81) := by decide

/-- Format ALU (R66). -/
theorem test_decode_alu :
    decodeTableWord 16 0b010000_0000_110_001 = some (.andReg 1 6) ∧
    decodeTableWord 16 0b010000_0001_110_001 = some (.eorReg 1 6) ∧
    decodeTableWord 16 0b010000_0010_110_001 = some (.lslReg 1 6) ∧
    decodeTableWord 16 0b010000_0011_110_001 = some (.lsrReg 1 6) ∧
    decodeTableWord 16 0b010000_0100_110_001 = some (.asrReg 1 6) ∧
    decodeTableWord 16 0b010000_0111_110_001 = some (.rorReg 1 6) ∧
    decodeTableWord 16 0b010000_1000_110_001 = some (.tst 1 6) ∧
    decodeTableWord 16 0b010000_1001_110_001 = some (.neg 1 6) ∧
    decodeTableWord 16 0b010000_1010_110_001 = some (.cmpLo 1 6) ∧
    decodeTableWord 16 0b010000_1011_110_001 = some (.cmn 1 6) ∧
    decodeTableWord 16 0b010000_1100_110_001 = some (.orrReg 1 6) ∧
    decodeTableWord 16 0b010000_1101_110_001 = some (.mul 1 6) ∧
    decodeTableWord 16 0b010000_1110_110_001 = some (.bicReg 1 6) ∧
    decodeTableWord 16 0b010000_1111_110_001 = some (.mvnReg 1 6) := by decide

/-- Format HIREG (R67): the top bit of the first register is bit 7. -/
theorem test_decode_hireg :
    decodeTableWord 16 0b010001_00_1_0110_001 = some (.addHi 9 6) ∧
    decodeTableWord 16 0b010001_01_0_1110_001 = some (.cmpHi 1 14) ∧
    decodeTableWord 16 0b010001_10_1_1110_111 = some (.movHi 15 14) := by decide

/-- Formats LDR_PC, LS_REG, LS_IMM, LS_HALF and LS_SP (R68 to R72). -/
theorem test_decode_load_store :
    decodeTableWord 16 0b01001_101_10000001 = some (.ldrPc 5 0x81) ∧
    decodeTableWord 16 0b0101000_011_010_001 = some (.strReg 1 2 3) ∧
    decodeTableWord 16 0b0101001_011_010_001 = some (.strhReg 1 2 3) ∧
    decodeTableWord 16 0b0101010_011_010_001 = some (.strbReg 1 2 3) ∧
    decodeTableWord 16 0b0101011_011_010_001 = some (.ldrsbReg 1 2 3) ∧
    decodeTableWord 16 0b0101100_011_010_001 = some (.ldrReg 1 2 3) ∧
    decodeTableWord 16 0b0101101_011_010_001 = some (.ldrhReg 1 2 3) ∧
    decodeTableWord 16 0b0101110_011_010_001 = some (.ldrbReg 1 2 3) ∧
    decodeTableWord 16 0b0101111_011_010_001 = some (.ldrshReg 1 2 3) ∧
    decodeTableWord 16 0b01100_10011_010_001 = some (.strImm 1 2 19) ∧
    decodeTableWord 16 0b01101_10011_010_001 = some (.ldrImm 1 2 19) ∧
    decodeTableWord 16 0b01110_10011_010_001 = some (.strbImm 1 2 19) ∧
    decodeTableWord 16 0b01111_10011_010_001 = some (.ldrbImm 1 2 19) ∧
    decodeTableWord 16 0b10000_10011_010_001 = some (.strhImm 1 2 19) ∧
    decodeTableWord 16 0b10001_10011_010_001 = some (.ldrhImm 1 2 19) ∧
    decodeTableWord 16 0b10010_101_10000001 = some (.strSp 5 0x81) ∧
    decodeTableWord 16 0b10011_101_10000001 = some (.ldrSp 5 0x81) := by decide

/-- Formats ADD_SP, ADJ_SP, EXTEND and PUSHPOP (R73 to R76). -/
theorem test_decode_sp_extend_push_pop :
    decodeTableWord 16 0b10101_101_10000001 = some (.addRdSp 5 0x81) ∧
    decodeTableWord 16 0b101100000_1000001 = some (.addSp 0x41) ∧
    decodeTableWord 16 0b101100001_1000001 = some (.subSp 0x41) ∧
    decodeTableWord 16 0b1011001000_010_001 = some (.sxth 1 2) ∧
    decodeTableWord 16 0b1011001001_010_001 = some (.sxtb 1 2) ∧
    decodeTableWord 16 0b1011001010_010_001 = some (.uxth 1 2) ∧
    decodeTableWord 16 0b1011001011_010_001 = some (.uxtb 1 2) ∧
    decodeTableWord 16 0b1011010_0_10000101 = some (.push 0x85) ∧
    decodeTableWord 16 0b1011010_1_00000000 = some (.pushLr 0) ∧
    decodeTableWord 16 0b1011110_0_10000101 = some (.pop 0x85) ∧
    decodeTableWord 16 0b1011110_1_00010000 = some (.popPc 0x10) := by decide

/-- Formats BCOND, B and BL (R77 to R79). -/
theorem test_decode_branch :
    decodeTableWord 16 0b1101_1101_11111110 = some (.bCond .le 0xFE) ∧
    decodeTableWord 16 0b11100_10000000001 = some (.b 0x401) ∧
    decodeTableWord 32 0b11110_10000000001_11111_00000000011 = some (.bl 0x401 3) := by decide

/-- Halfwords the decoder refuses (95_test_vectors 2.11). -/
theorem test_decode_refused :
    [0x4148, 0x4188, 0x4770, 0x4608, 0x4408, 0x4508, 0xA000, 0xC001, 0xC801, 0xBA08, 0xBE00, 0xBF00,
      0xDE00, 0xDF00, 0xE800, 0xB400, 0xBC00, 0xF800].all (fun w => decodeTableWord 16 w == none) =
      true := by decide

/-- The bytes of `bl 0x200` at 0x100 as they lie in memory, and a `bl` cut short. -/
theorem test_decode_bl_bytes :
    decodeBytes [0x00, 0xF0, 0x7E, 0xF8] = .ok (.bl 0 0x7E, []) ∧
    decodeBytes [0x00, 0xF0, 0x7E] = .error .truncated ∧
    decodeBytes [0x00, 0xF0, 0x00, 0x00] = .error (.notInCardPair 0xF000 0) := by decide

/-! ### Vectors of 95_test_vectors -/

/-- `mov r1, r2`, 95_test_vectors 2.1 -/
theorem test_movLo_1 :
    ends (step (st 0x100 [(2, 0x80000000)] 0b0111 [] [] 0 [0x11]))
      [(1, 0x80000000)] 0b1011 0x102 [] = true := by decide

/-- `lsl r0, r1, #0`, 95_test_vectors 2.5 -/
theorem test_movLo_2 :
    ends (step (st 0x100 [(1, 0x80000001)] 0b0010 [] [] 0 [0x8]))
      [(0, 0x80000001)] 0b1010 0x102 [] = true := by decide

/-- `lsl r0, r1, #1`, 95_test_vectors 2.5 -/
theorem test_lslImm_1 :
    ends (step (st 0x100 [(1, 0x80000001)] 0b0000 [] [] 0 [0x48]))
      [(0, 0x00000002)] 0b0010 0x102 [] = true := by decide

/-- `lsl r0, r1, #31`, 95_test_vectors 2.5 -/
theorem test_lslImm_2 :
    ends (step (st 0x100 [(1, 0x00000003)] 0b0000 [] [] 0 [0x7c8]))
      [(0, 0x80000000)] 0b1010 0x102 [] = true := by decide

/-- `lsr r0, r1, #1`, 95_test_vectors 2.5 -/
theorem test_lsrImm_1 :
    ends (step (st 0x100 [(1, 0x80000001)] 0b0000 [] [] 0 [0x848]))
      [(0, 0x40000000)] 0b0010 0x102 [] = true := by decide

/-- `lsr, imm5 = 0 (amount 32)`, 95_test_vectors 2.5 -/
theorem test_lsrImm_2 :
    ends (step (st 0x100 [(1, 0x80000000)] 0b0000 [] [] 0 [0x808]))
      [(0, 0x00000000)] 0b0110 0x102 [] = true := by decide

/-- `asr r0, r1, #1`, 95_test_vectors 2.5 -/
theorem test_asrImm_1 :
    ends (step (st 0x100 [(1, 0x80000001)] 0b0000 [] [] 0 [0x1048]))
      [(0, 0xC0000000)] 0b1010 0x102 [] = true := by decide

/-- `asr, imm5 = 0 (amount 32)`, 95_test_vectors 2.5 -/
theorem test_asrImm_2 :
    ends (step (st 0x100 [(1, 0x7FFFFFFF)] 0b0010 [] [] 0 [0x1008]))
      [(0, 0x00000000)] 0b0100 0x102 [] = true := by decide

/-- `add r0, r1, r2`, 95_test_vectors 2.2 -/
theorem test_addLo_1 :
    ends (step (st 0x100 [(1, 0x80000000), (2, 0x80000000)] 0b0000 [] [] 0 [0x1888]))
      [(0, 0x00000000)] 0b0111 0x102 [] = true := by decide

/-- `add r0, r0, r0`, 95_test_vectors 2.2 -/
theorem test_addLo_2 :
    ends (step (st 0x100 [(0, 0xFFFFFFFF)] 0b0000 [] [] 0 [0x1800]))
      [(0, 0xFFFFFFFE)] 0b1010 0x102 [] = true := by decide

/-- `sub r0, r1, r2`, 95_test_vectors 2.2 -/
theorem test_subLo_1 :
    ends (step (st 0x100 [(1, 0x00000005), (2, 0x00000005)] 0b0000 [] [] 0 [0x1a88]))
      [(0, 0x00000000)] 0b0110 0x102 [] = true := by decide

/-- `sub r0, r1, r2`, 95_test_vectors 2.2 -/
theorem test_subLo_2 :
    ends (step (st 0x100 [(1, 0x00000003), (2, 0x00000005)] 0b0000 [] [] 0 [0x1a88]))
      [(0, 0xFFFFFFFE)] 0b1000 0x102 [] = true := by decide

/-- `add r0, r1, #7`, 95_test_vectors 2.2 -/
theorem test_addImm3_1 :
    ends (step (st 0x100 [(1, 0xFFFFFFF9)] 0b0000 [] [] 0 [0x1dc8]))
      [(0, 0x00000000)] 0b0110 0x102 [] = true := by decide

/-- `add r0, r1, #0`, 95_test_vectors 2.2 -/
theorem test_addImm3_2 :
    ends (step (st 0x100 [(1, 0x80000000)] 0b0111 [] [] 0 [0x1c08]))
      [(0, 0x80000000)] 0b1000 0x102 [] = true := by decide

/-- `sub r0, r1, #1`, 95_test_vectors 2.2 -/
theorem test_subImm3_1 :
    ends (step (st 0x100 [(1, 0x00000000)] 0b0000 [] [] 0 [0x1e48]))
      [(0, 0xFFFFFFFF)] 0b1000 0x102 [] = true := by decide

/-- `sub r0, r1, #7`, 95_test_vectors 2.2 -/
theorem test_subImm3_2 :
    ends (step (st 0x100 [(1, 0x00000007)] 0b0000 [] [] 0 [0x1fc8]))
      [(0, 0x00000000)] 0b0110 0x102 [] = true := by decide

/-- `mov r0, #0`, 95_test_vectors 2.1 -/
theorem test_movImm_1 :
    ends (step (st 0x100 [(0, 0xFFFFFFFF)] 0b1011 [] [] 0 [0x2000]))
      [(0, 0x00000000)] 0b0111 0x102 [] = true := by decide

/-- `mov r7, #255`, 95_test_vectors 2.1 -/
theorem test_movImm_2 :
    ends (step (st 0x100 [] 0b1100 [] [] 0 [0x27ff]))
      [(7, 0x000000FF)] 0b0000 0x102 [] = true := by decide

/-- `cmp r2, #255`, 95_test_vectors 2.3 -/
theorem test_cmpImm_1 :
    ends (step (st 0x100 [(2, 0x000000FF)] 0b0000 [] [] 0 [0x2aff]))
      [] 0b0110 0x102 [] = true := by decide

/-- `cmp r2, #1`, 95_test_vectors 2.3 -/
theorem test_cmpImm_2 :
    ends (step (st 0x100 [(2, 0x80000000)] 0b0000 [] [] 0 [0x2a01]))
      [] 0b0011 0x102 [] = true := by decide

/-- `add r0, r0, #255`, 95_test_vectors 2.2 -/
theorem test_addImm8_1 :
    ends (step (st 0x100 [(0, 0x7FFFFF01)] 0b0000 [] [] 0 [0x30ff]))
      [(0, 0x80000000)] 0b1001 0x102 [] = true := by decide

/-- `add r0, r0, #1`, 95_test_vectors 2.2 -/
theorem test_addImm8_2 :
    ends (step (st 0x100 [(0, 0xFFFFFFFF)] 0b0000 [] [] 0 [0x3001]))
      [(0, 0x00000000)] 0b0110 0x102 [] = true := by decide

/-- `sub r0, r0, #255`, 95_test_vectors 2.2 -/
theorem test_subImm8_1 :
    ends (step (st 0x100 [(0, 0x80000000)] 0b0000 [] [] 0 [0x38ff]))
      [(0, 0x7FFFFF01)] 0b0011 0x102 [] = true := by decide

/-- `sub r0, r0, #0`, 95_test_vectors 2.2 -/
theorem test_subImm8_2 :
    ends (step (st 0x100 [(0, 0x00000000)] 0b1001 [] [] 0 [0x3800]))
      [(0, 0x00000000)] 0b0110 0x102 [] = true := by decide

/-- `and r0, r1`, 95_test_vectors 2.4 -/
theorem test_andReg_1 :
    ends (step (st 0x100 [(0, 0xF0F0F0F0), (1, 0xFF00FF00)] 0b0011 [] [] 0 [0x4008]))
      [(0, 0xF000F000)] 0b1011 0x102 [] = true := by decide

/-- `and r0, r1`, 95_test_vectors 2.4 -/
theorem test_andReg_2 :
    ends (step (st 0x100 [(0, 0x0F0F0F0F), (1, 0xF0F0F0F0)] 0b1010 [] [] 0 [0x4008]))
      [(0, 0x00000000)] 0b0110 0x102 [] = true := by decide

/-- `eor r0, r1`, 95_test_vectors 2.4 -/
theorem test_eorReg_1 :
    ends (step (st 0x100 [(0, 0xAAAAAAAA), (1, 0xFFFFFFFF)] 0b0000 [] [] 0 [0x4048]))
      [(0, 0x55555555)] 0b0000 0x102 [] = true := by decide

/-- `eor r0, r0`, 95_test_vectors 2.4 -/
theorem test_eorReg_2 :
    ends (step (st 0x100 [(0, 0xDEADBEEF)] 0b1011 [] [] 0 [0x4040]))
      [(0, 0x00000000)] 0b0111 0x102 [] = true := by decide

/-- `lsl r0, r0, r1`, 95_test_vectors 2.5 -/
theorem test_lslReg_1 :
    ends (step (st 0x100 [(0, 0x80000001), (1, 0x00000000)] 0b0001 [] [] 0 [0x4088]))
      [(0, 0x80000001)] 0b1001 0x102 [] = true := by decide

/-- `lsl r2, r2, r2`, 95_test_vectors 2.5 -/
theorem test_lslReg_2 :
    ends (step (st 0x100 [(2, 0x00000004)] 0b0000 [] [] 0 [0x4092]))
      [(2, 0x00000040)] 0b0000 0x102 [] = true := by decide

/-- `lsr r0, r0, r1`, 95_test_vectors 2.5 -/
theorem test_lsrReg_1 :
    ends (step (st 0x100 [(0, 0x80000001), (1, 0x00000000)] 0b0001 [] [] 0 [0x40c8]))
      [(0, 0x80000001)] 0b1001 0x102 [] = true := by decide

/-- `lsr r0, r0, r1`, 95_test_vectors 2.5 -/
theorem test_lsrReg_2 :
    ends (step (st 0x100 [(0, 0x80000001), (1, 0xFFFFFF04)] 0b0000 [] [] 0 [0x40c8]))
      [(0, 0x08000000)] 0b0000 0x102 [] = true := by decide

/-- `asr r0, r0, r1`, 95_test_vectors 2.5 -/
theorem test_asrReg_1 :
    ends (step (st 0x100 [(0, 0x80000001), (1, 0x00000000)] 0b0001 [] [] 0 [0x4108]))
      [(0, 0x80000001)] 0b1001 0x102 [] = true := by decide

/-- `asr r0, r0, r1`, 95_test_vectors 2.5 -/
theorem test_asrReg_2 :
    ends (step (st 0x100 [(0, 0x7FFFFFFF), (1, 0x00000020)] 0b0010 [] [] 0 [0x4108]))
      [(0, 0x00000000)] 0b0100 0x102 [] = true := by decide

/-- `ror r0, r0, r1`, 95_test_vectors 2.5 -/
theorem test_rorReg_1 :
    ends (step (st 0x100 [(0, 0x80000001), (1, 0x00000000)] 0b0001 [] [] 0 [0x41c8]))
      [(0, 0x80000001)] 0b1001 0x102 [] = true := by decide

/-- `ror r0, r0, r1`, 95_test_vectors 2.5 -/
theorem test_rorReg_2 :
    ends (step (st 0x100 [(0, 0x12345678), (1, 0x00000040)] 0b0010 [] [] 0 [0x41c8]))
      [(0, 0x12345678)] 0b0000 0x102 [] = true := by decide

/-- `tst r0, r1`, 95_test_vectors 2.4 -/
theorem test_tst_1 :
    ends (step (st 0x100 [(0, 0x80000000), (1, 0x80000000)] 0b0011 [] [] 0 [0x4208]))
      [(0, 0x80000000)] 0b1011 0x102 [] = true := by decide

/-- `tst r0, r1`, 95_test_vectors 2.4 -/
theorem test_tst_2 :
    ends (step (st 0x100 [(0, 0x0000000F), (1, 0x000000F0)] 0b1000 [] [] 0 [0x4208]))
      [(0, 0x0000000F)] 0b0100 0x102 [] = true := by decide

/-- `neg r0, r1`, 95_test_vectors 2.2 -/
theorem test_neg_1 :
    ends (step (st 0x100 [(1, 0x00000001)] 0b0000 [] [] 0 [0x4248]))
      [(0, 0xFFFFFFFF)] 0b1000 0x102 [] = true := by decide

/-- `neg r0, r1`, 95_test_vectors 2.2 -/
theorem test_neg_2 :
    ends (step (st 0x100 [(1, 0x80000000)] 0b0000 [] [] 0 [0x4248]))
      [(0, 0x80000000)] 0b1001 0x102 [] = true := by decide

/-- `cmp r0, r1`, 95_test_vectors 2.3 -/
theorem test_cmpLo_1 :
    ends (step (st 0x100 [(0, 0x00000005), (1, 0x00000005)] 0b0000 [] [] 0 [0x4288]))
      [] 0b0110 0x102 [] = true := by decide

/-- `cmp r0, r1`, 95_test_vectors 2.3 -/
theorem test_cmpLo_2 :
    ends (step (st 0x100 [(0, 0x00000000), (1, 0xFFFFFFFF)] 0b0000 [] [] 0 [0x4288]))
      [] 0b0000 0x102 [] = true := by decide

/-- `cmn r0, r1`, 95_test_vectors 2.3 -/
theorem test_cmn_1 :
    ends (step (st 0x100 [(0, 0x00000001), (1, 0xFFFFFFFF)] 0b0000 [] [] 0 [0x42c8]))
      [] 0b0110 0x102 [] = true := by decide

/-- `cmn r0, r1`, 95_test_vectors 2.3 -/
theorem test_cmn_2 :
    ends (step (st 0x100 [(0, 0x80000000), (1, 0x80000000)] 0b0000 [] [] 0 [0x42c8]))
      [] 0b0111 0x102 [] = true := by decide

/-- `orr r0, r1`, 95_test_vectors 2.4 -/
theorem test_orrReg_1 :
    ends (step (st 0x100 [(0, 0x00FF0000), (1, 0x80000001)] 0b0000 [] [] 0 [0x4308]))
      [(0, 0x80FF0001)] 0b1000 0x102 [] = true := by decide

/-- `mul r0, r1, r0`, 95_test_vectors 2.3 -/
theorem test_mul_1 :
    ends (step (st 0x100 [(0, 0x00010000), (1, 0x00010000)] 0b0011 [] [] 0 [0x4348]))
      [(0, 0x00000000)] 0b0111 0x102 [] = true := by decide

/-- `mul r3, r3, r3`, 95_test_vectors 2.3 -/
theorem test_mul_2 :
    ends (step (st 0x100 [(3, 0x0000FFFF)] 0b0000 [] [] 0 [0x435b]))
      [(3, 0xFFFE0001)] 0b1000 0x102 [] = true := by decide

/-- `bic r0, r1`, 95_test_vectors 2.4 -/
theorem test_bicReg_1 :
    ends (step (st 0x100 [(0, 0xFFFFFFFF), (1, 0x0000FFFF)] 0b0001 [] [] 0 [0x4388]))
      [(0, 0xFFFF0000)] 0b1001 0x102 [] = true := by decide

/-- `bic r0, r0`, 95_test_vectors 2.4 -/
theorem test_bicReg_2 :
    ends (step (st 0x100 [(0, 0x12345678)] 0b0000 [] [] 0 [0x4380]))
      [(0, 0x00000000)] 0b0100 0x102 [] = true := by decide

/-- `mvn r0, r1`, 95_test_vectors 2.4 -/
theorem test_mvnReg_1 :
    ends (step (st 0x100 [(1, 0x00000000)] 0b0100 [] [] 0 [0x43c8]))
      [(0, 0xFFFFFFFF)] 0b1000 0x102 [] = true := by decide

/-- `mvn r0, r1`, 95_test_vectors 2.4 -/
theorem test_mvnReg_2 :
    ends (step (st 0x100 [(1, 0xFFFFFFFF)] 0b1011 [] [] 0 [0x43c8]))
      [(0, 0x00000000)] 0b0111 0x102 [] = true := by decide

/-- `add r8, r8, r1`, 95_test_vectors 2.2 -/
theorem test_addHi_1 :
    ends (step (st 0x100 [(8, 0xFFFFFFFF), (1, 0x00000002)] 0b0000 [] [] 0 [0x4488]))
      [(8, 0x00000001)] 0b0000 0x102 [] = true := by decide

/-- `add pc, pc, pc`, 95_test_vectors 2.2 -/
theorem test_addHi_2 :
    refuses (step (st 0x100 [] 0b0000 [] [] 0 [0x44ff]))
      (.unpredictable .addPcPcPc) = true := by decide

/-- `cmp r8, r1`, 95_test_vectors 2.3 -/
theorem test_cmpHi_1 :
    ends (step (st 0x100 [(8, 0x00000001), (1, 0x00000002)] 0b0000 [] [] 0 [0x4588]))
      [] 0b1000 0x102 [] = true := by decide

/-- `cmp r0, pc`, 95_test_vectors 2.3 -/
theorem test_cmpHi_2 :
    refuses (step (st 0x100 [] 0b0000 [] [] 0 [0x4578]))
      (.unpredictable .cmpWithPc) = true := by decide

/-- `mov r8, r1`, 95_test_vectors 2.1 -/
theorem test_movHi_1 :
    ends (step (st 0x100 [(1, 0xDEADBEEF)] 0b1111 [] [] 0 [0x4688]))
      [(8, 0xDEADBEEF)] 0b1111 0x102 [] = true := by decide

/-- `mov sp, r0`, 95_test_vectors 2.1 -/
theorem test_movHi_2 :
    ends (step (st 0x100 [(0, 0x20001003)] 0b0000 [] [] 0 [0x4685]))
      [(13, 0x20001003)] 0b0000 0x102 [] = true := by decide

/-- `ldr r0, [pc, #4]`, 95_test_vectors 2.6 -/
theorem test_ldrPc_1 :
    ends (step (st 0x100 [] 0b0101 (words [(0x108, 0xDEADBEEF)]) [⟨0x104, 8⟩] 0 [0x4801]))
      [(0, 0xDEADBEEF)] 0b0101 0x102 [] = true := by decide

/-- `ldr r0, [pc, #0]`, 95_test_vectors 2.6 -/
theorem test_ldrPc_2 :
    ends (step (st 0x102 [] 0b0101 (words [(0x104, 0x12345678)]) [⟨0x104, 8⟩] 0 [0x4800]))
      [(0, 0x12345678)] 0b0101 0x104 [] = true := by decide

/-- `str r0, [r1, r2]`, 95_test_vectors 2.7 -/
theorem test_strReg_1 :
    ends (step (st 0x100 [(0, 0xCAFEBABE), (1, 0x00001FFC), (2, 0x00000004)] 0b0101 storeMem
        [⟨0x2000, 12⟩] 0 [0x5088]))
      [] 0b0101 0x102 [(0x2000, 0xBE), (0x2001, 0xBA), (0x2002, 0xFE), (0x2003, 0xCA)] = true :=
        by decide

/-- `strh r0, [r1, r2]`, 95_test_vectors 2.7 -/
theorem test_strhReg_1 :
    ends (step (st 0x100 [(0, 0xFFFF1234), (1, 0x00002000), (2, 0x00000006)] 0b0101 storeMem
        [⟨0x2000, 12⟩] 0 [0x5288]))
      [] 0b0101 0x102 [(0x2006, 0x34), (0x2007, 0x12)] = true := by decide

/-- `strb r0, [r1, r2]`, 95_test_vectors 2.7 -/
theorem test_strbReg_1 :
    ends (step (st 0x100 [(0, 0xFFFFFF01), (1, 0x00002007), (2, 0xFFFFFFF9)] 0b0101 storeMem
        [⟨0x2000, 12⟩] 0 [0x5488]))
      [] 0b0101 0x102 [(0x2000, 0x01)] = true := by decide

/-- `ldrsb r0, [r1, r2]`, 95_test_vectors 2.6 -/
theorem test_ldrsbReg_1 :
    ends (step (st 0x100 [(1, 0x00002000), (2, 0x00000004)] 0b0101 loadMem [⟨0x2000, 12⟩] 0
        [0x5688]))
      [(0, 0xFFFFFF80)] 0b0101 0x102 [] = true := by decide

/-- `ldrsb r0, [r1, r2]`, 95_test_vectors 2.6 -/
theorem test_ldrsbReg_2 :
    ends (step (st 0x100 [(1, 0x00002000), (2, 0x00000006)] 0b0101 loadMem [⟨0x2000, 12⟩] 0
        [0x5688]))
      [(0, 0x0000007F)] 0b0101 0x102 [] = true := by decide

/-- `ldr r0, [r1, r2]`, 95_test_vectors 2.6 -/
theorem test_ldrReg_1 :
    ends (step (st 0x100 [(1, 0x00002008), (2, 0xFFFFFFF8)] 0b0101 loadMem [⟨0x2000, 12⟩] 0
        [0x5888]))
      [(0, 0x11223344)] 0b0101 0x102 [] = true := by decide

/-- `ldr r0, [r1, r2]`, 95_test_vectors 2.6 -/
theorem test_ldrReg_2 :
    ends (step (st 0x100 [(1, 0x00002001), (2, 0x00000003)] 0b0101 loadMem [⟨0x2000, 12⟩] 0
        [0x5888]))
      [(0, 0x007FFF80)] 0b0101 0x102 [] = true := by decide

/-- `ldrh r0, [r1, r2]`, 95_test_vectors 2.6 -/
theorem test_ldrhReg_1 :
    ends (step (st 0x100 [(1, 0x00002000), (2, 0x00000004)] 0b0101 loadMem [⟨0x2000, 12⟩] 0
        [0x5a88]))
      [(0, 0x0000FF80)] 0b0101 0x102 [] = true := by decide

/-- `ldrb r0, [r1, r2]`, 95_test_vectors 2.6 -/
theorem test_ldrbReg_1 :
    ends (step (st 0x100 [(1, 0x00002000), (2, 0x00000004)] 0b0101 loadMem [⟨0x2000, 12⟩] 0
        [0x5c88]))
      [(0, 0x00000080)] 0b0101 0x102 [] = true := by decide

/-- `ldrsh r0, [r1, r2]`, 95_test_vectors 2.6 -/
theorem test_ldrshReg_1 :
    ends (step (st 0x100 [(1, 0x00002000), (2, 0x00000004)] 0b0101 loadMem [⟨0x2000, 12⟩] 0
        [0x5e88]))
      [(0, 0xFFFFFF80)] 0b0101 0x102 [] = true := by decide

/-- `ldrsh r0, [r1, r2]`, 95_test_vectors 2.6 -/
theorem test_ldrshReg_2 :
    faults (step (st 0x100 [(1, 0x00002000), (2, 0x00000005)] 0b0101 loadMem [⟨0x2000, 12⟩] 0
        [0x5e88]))
      (.alignment 0x2005#32 2) = true := by decide

/-- `str r0, [r1, #4]`, 95_test_vectors 2.7 -/
theorem test_strImm_1 :
    ends (step (st 0x100 [(0, 0x11223344), (1, 0x00002000)] 0b0101 storeMem [⟨0x2000, 12⟩] 0
        [0x6048]))
      [] 0b0101 0x102 [(0x2004, 0x44), (0x2005, 0x33), (0x2006, 0x22), (0x2007, 0x11)] = true :=
        by decide

/-- `str r0, [r1, #0]`, 95_test_vectors 2.7 -/
theorem test_strImm_2 :
    refuses (step (st 0x100 [(0, 0x00000001), (1, 0x00000100)] 0b0101 storeMem [⟨0x100, 4⟩] 0
        [0x6008]))
      (.storeToText 0x100#32) = true := by decide

/-- `ldr r0, [r1, #4]`, 95_test_vectors 2.6 -/
theorem test_ldrImm_1 :
    ends (step (st 0x100 [(1, 0x00002000)] 0b0101 loadMem [⟨0x2000, 12⟩] 0 [0x6848]))
      [(0, 0x007FFF80)] 0b0101 0x102 [] = true := by decide

/-- `ldr r0, [r1, #4]`, 95_test_vectors 2.6 -/
theorem test_ldrImm_2 :
    faults (step (st 0x100 [(1, 0x00002008)] 0b0101 loadMem [⟨0x2000, 12⟩] 0 [0x6848]))
      (.unmapped 0x200C#32 4) = true := by decide

/-- `strb r0, [r1, #3]`, 95_test_vectors 2.7 -/
theorem test_strbImm_1 :
    ends (step (st 0x100 [(0, 0x112233CD), (1, 0x00002000)] 0b0101 storeMem [⟨0x2000, 12⟩] 0
        [0x70c8]))
      [] 0b0101 0x102 [(0x2003, 0xCD)] = true := by decide

/-- `strb r0, [r1, #1]`, 95_test_vectors 2.7 -/
theorem test_strbImm_2 :
    refuses (step (st 0x100 [(1, 0x00000100)] 0b0101 storeMem [⟨0x2000, 12⟩] 0 [0x7048]))
      (.storeToText 0x101#32) = true := by decide

/-- `ldrb r0, [r1, #5]`, 95_test_vectors 2.6 -/
theorem test_ldrbImm_1 :
    ends (step (st 0x100 [(0, 0xFFFFFFFF), (1, 0x00002000)] 0b0101 loadMem [⟨0x2000, 12⟩] 0
        [0x7948]))
      [(0, 0x000000FF)] 0b0101 0x102 [] = true := by decide

/-- `ldrb r0, [r1, #31]`, 95_test_vectors 2.6 -/
theorem test_ldrbImm_2 :
    ends (step (st 0x100 [(1, 0x00001FE4)] 0b0101 loadMem [⟨0x2000, 12⟩] 0 [0x7fc8]))
      [(0, 0x00000011)] 0b0101 0x102 [] = true := by decide

/-- `strh r0, [r1, #2]`, 95_test_vectors 2.7 -/
theorem test_strhImm_1 :
    ends (step (st 0x100 [(0, 0x1122BEEF), (1, 0x00002000)] 0b0101 storeMem [⟨0x2000, 12⟩] 0
        [0x8048]))
      [] 0b0101 0x102 [(0x2002, 0xEF), (0x2003, 0xBE)] = true := by decide

/-- `ldrh r0, [r1, #4]`, 95_test_vectors 2.6 -/
theorem test_ldrhImm_1 :
    ends (step (st 0x100 [(0, 0xFFFFFFFF), (1, 0x00002000)] 0b0101 loadMem [⟨0x2000, 12⟩] 0
        [0x8888]))
      [(0, 0x0000FF80)] 0b0101 0x102 [] = true := by decide

/-- `ldrh r0, [r1, #0]`, 95_test_vectors 2.6 -/
theorem test_ldrhImm_2 :
    faults (step (st 0x100 [(1, 0x00002001)] 0b0101 loadMem [⟨0x2000, 12⟩] 0 [0x8808]))
      (.alignment 0x2001#32 2) = true := by decide

/-- `str r5, [sp, #4]`, 95_test_vectors 2.7 -/
theorem test_strSp_1 :
    ends (step (st 0x100 [(5, 0x01020304), (13, 0x00002000)] 0b0101 storeMem [⟨0x2000, 12⟩] 0
        [0x9501]))
      [] 0b0101 0x102 [(0x2004, 0x04), (0x2005, 0x03), (0x2006, 0x02), (0x2007, 0x01)] = true :=
        by decide

/-- `str r5, [sp, #12]`, 95_test_vectors 2.7 -/
theorem test_strSp_2 :
    faults (step (st 0x100 [(5, 0x00000001), (13, 0x00002000)] 0b0101 storeMem [⟨0x2000, 12⟩] 0
        [0x9503]))
      (.unmapped 0x200C#32 4) = true := by decide

/-- `ldr r2, [sp, #8]`, 95_test_vectors 2.6 -/
theorem test_ldrSp_1 :
    ends (step (st 0x100 [(13, 0x00002000)] 0b0101 loadMem [⟨0x2000, 12⟩] 0 [0x9a02]))
      [(2, 0xFFFF0FF0)] 0b0101 0x102 [] = true := by decide

/-- `ldr r2, [sp, #1020]`, 95_test_vectors 2.6 -/
theorem test_ldrSp_2 :
    ends (step (st 0x100 [(13, 0x00001C04)] 0b0101 loadMem [⟨0x2000, 12⟩] 0 [0x9aff]))
      [(2, 0x11223344)] 0b0101 0x102 [] = true := by decide

/-- `add r3, sp, #1020`, 95_test_vectors 2.2 -/
theorem test_addRdSp_1 :
    ends (step (st 0x100 [(13, 0xFFFFFF00)] 0b0101 [] [] 0 [0xabff]))
      [(3, 0x000002FC)] 0b0101 0x102 [] = true := by decide

/-- `add sp, sp, #508`, 95_test_vectors 2.2 -/
theorem test_addSp_1 :
    ends (step (st 0x100 [(13, 0x00001000)] 0b1010 [] [] 0 [0xb07f]))
      [(13, 0x000011FC)] 0b1010 0x102 [] = true := by decide

/-- `add sp, sp, #0`, 95_test_vectors 2.2 -/
theorem test_addSp_2 :
    ends (step (st 0x100 [(13, 0x00001002)] 0b0000 [] [] 0 [0xb000]))
      [(13, 0x00001002)] 0b0000 0x102 [] = true := by decide

/-- `sub sp, sp, #8`, 95_test_vectors 2.2 -/
theorem test_subSp_1 :
    ends (step (st 0x100 [(13, 0x20001000)] 0b1111 [] [] 0 [0xb082]))
      [(13, 0x20000FF8)] 0b1111 0x102 [] = true := by decide

/-- `sub sp, sp, #508`, 95_test_vectors 2.2 -/
theorem test_subSp_2 :
    ends (step (st 0x100 [(13, 0x00000100)] 0b0000 [] [] 0 [0xb0ff]))
      [(13, 0xFFFFFF04)] 0b0000 0x102 [] = true := by decide

/-- `sxth r0, r1`, 95_test_vectors 2.10 -/
theorem test_sxth_1 :
    ends (step (st 0x100 [(1, 0x12348000)] 0b0101 [] [] 0 [0xb208]))
      [(0, 0xFFFF8000)] 0b0101 0x102 [] = true := by decide

/-- `sxth r0, r1`, 95_test_vectors 2.10 -/
theorem test_sxth_2 :
    ends (step (st 0x100 [(1, 0xFFFFFF7F)] 0b0101 [] [] 0 [0xb208]))
      [(0, 0xFFFFFF7F)] 0b0101 0x102 [] = true := by decide

/-- `sxtb r0, r1`, 95_test_vectors 2.10 -/
theorem test_sxtb_1 :
    ends (step (st 0x100 [(1, 0x12348000)] 0b0101 [] [] 0 [0xb248]))
      [(0, 0x00000000)] 0b0101 0x102 [] = true := by decide

/-- `sxtb r0, r1`, 95_test_vectors 2.10 -/
theorem test_sxtb_2 :
    ends (step (st 0x100 [(1, 0xFFFFFF7F)] 0b0101 [] [] 0 [0xb248]))
      [(0, 0x0000007F)] 0b0101 0x102 [] = true := by decide

/-- `uxth r0, r1`, 95_test_vectors 2.10 -/
theorem test_uxth_1 :
    ends (step (st 0x100 [(1, 0x12348000)] 0b0101 [] [] 0 [0xb288]))
      [(0, 0x00008000)] 0b0101 0x102 [] = true := by decide

/-- `uxth r0, r1`, 95_test_vectors 2.10 -/
theorem test_uxth_2 :
    ends (step (st 0x100 [(1, 0xFFFFFF7F)] 0b0101 [] [] 0 [0xb288]))
      [(0, 0x0000FF7F)] 0b0101 0x102 [] = true := by decide

/-- `uxtb r0, r1`, 95_test_vectors 2.10 -/
theorem test_uxtb_1 :
    ends (step (st 0x100 [(1, 0x12348000)] 0b0101 [] [] 0 [0xb2c8]))
      [(0, 0x00000000)] 0b0101 0x102 [] = true := by decide

/-- `uxtb r2, r2`, 95_test_vectors 2.10 -/
theorem test_uxtb_2 :
    ends (step (st 0x100 [(2, 0xABCDEF12)] 0b0101 [] [] 0 [0xb2d2]))
      [(2, 0x00000012)] 0b0101 0x102 [] = true := by decide

/-- `push` of r0, r2, r7, 95_test_vectors 2.8 -/
theorem test_push_1 :
    ends (step (st 0x100 [(0, 0x11111111), (2, 0x22222222), (7, 0x77777777), (13, 0x2000)] 0b0000
        [] [⟨0x1FE0, 0x40⟩] 0 [0xb485]))
      [(13, 0x1FF4)] 0b0000 0x102 [(0x1ff0, 0x0), (0x1ff1, 0x0), (0x1ff2, 0x0), (0x1ff3, 0x0),
        (0x1ff4, 0x11), (0x1ff5, 0x11), (0x1ff6, 0x11), (0x1ff7, 0x11), (0x1ff8, 0x22), (0x1ff9, 0x22), (0x1ffa, 0x22), (0x1ffb, 0x22), (0x1ffc, 0x77), (0x1ffd, 0x77), (0x1ffe, 0x77), (0x1fff, 0x77), (0x2000, 0x0), (0x2001, 0x0), (0x2002, 0x0), (0x2003, 0x0)] = true := by decide

/-- `push` of r0, r1 with the first word unmapped, 95_test_vectors 2.8 -/
theorem test_push_2 :
    faults (step (st 0x100 [(13, 0x1FE4)] 0b0000 [] [⟨0x1FE0, 0x40⟩] 0 [0xb403]))
      (.unmapped 0x1FDC#32 4) = true := by decide

/-- `push` of r0 to r7 and LR, 95_test_vectors 2.8 -/
theorem test_pushLr_1 :
    ends (step (st 0x100 [(0, 1), (1, 2), (2, 3), (3, 4), (4, 5), (5, 6), (6, 7), (7, 8), (14,
        0xE), (13, 0x2010)] 0b1010 [] [⟨0x1FE0, 0x40⟩] 0 [0xb5ff]))
      [(13, 0x1FEC)] 0b1010 0x102 [(0x1fec, 1), (0x1ff0, 2), (0x1ff4, 3), (0x1ff8, 4), (0x1ffc,
        5), (0x2000, 6), (0x2004, 7), (0x2008, 8), (0x200C, 0xE)] = true := by decide

/-- `push` of r4 and LR, 95_test_vectors 2.8 -/
theorem test_pushLr_2 :
    ends (step (st 0x100 [(4, 0x44444444), (14, 0x123), (13, 0x2000)] 0b0000 [] [⟨0x1FE0, 0x40⟩]
        0 [0xb510]))
      [(13, 0x1FF8), (14, 0x123)] 0b0000 0x102 [(0x1ff8, 0x44), (0x1ff9, 0x44), (0x1ffa, 0x44),
        (0x1ffb, 0x44), (0x1ffc, 0x23), (0x1ffd, 0x1), (0x1ffe, 0x0), (0x1fff, 0x0)] = true := by decide

/-- `pop` of r0, r2, r7, 95_test_vectors 2.8 -/
theorem test_pop_1 :
    ends (step (st 0x100 [(13, 0x1FF0)] 0b0000 popMem [⟨0x1FF0, 0x14⟩] 0 [0xbc85]))
      [(0, 1), (2, 2), (7, 3), (13, 0x1FFC)] 0b0000 0x102 [] = true := by decide

/-- `pop` of r0, r1 past the mapped words, 95_test_vectors 2.8 -/
theorem test_pop_2 :
    faults (step (st 0x100 [(13, 0x2000)] 0b0000 popMem [⟨0x1FF0, 0x14⟩] 0 [0xbc03]))
      (.unmapped 0x2004#32 4) = true := by decide

/-- `pop` of r4 and PC, 95_test_vectors 2.8 -/
theorem test_popPc_1 :
    ends (step (st 0x100 [(13, 0x1FF8)] 0b0110 popMem [⟨0x1FF0, 0x14⟩] 0 [0xbd10]))
      [(4, 3), (13, 0x2000)] 0b0110 0x300 [] = true := by decide

/-- `pop` of PC with bit 0 of the word not `LR_BIT0`, 95_test_vectors 2.8 -/
theorem test_popPc_2 :
    refuses (step (st 0x100 [(13, 0x1FFC)] 0b0000 popMem [⟨0x1FF0, 0x14⟩] 1 [0xbd00]))
      (.unpredictable .popPcBit0) = true := by decide

/-- `beq`, farthest backward, 95_test_vectors 2.9 -/
theorem test_bCond_1 :
    ends (step (st 0x200 [] 0b0100 [] [] 0 [0xd080]))
      [] 0b0100 0x104 [] = true := by decide

/-- `bhi` with Z set is not taken, 95_test_vectors 2.9 -/
theorem test_bCond_2 :
    ends (step (st 0x100 [] 0b0110 [] [] 0 [0xd800]))
      [] 0b0110 0x102 [] = true := by decide

/-- `b`, farthest forward, 95_test_vectors 2.9 -/
theorem test_b_1 :
    ends (step (st 0x1000 [] 0b0000 [] [] 0 [0xe3ff]))
      [] 0b0000 0x1802 [] = true := by decide

/-- `b` to itself, 95_test_vectors 2.9 -/
theorem test_b_2 :
    ends (step (st 0x100 [] 0b0000 [] [] 0 [0xe7fe]))
      [] 0b0000 0x100 [] = true := by decide

/-- `bl 0x200` with `LR_BIT0 = 1`, 95_test_vectors 2.9 -/
theorem test_bl_1 :
    ends (step (st 0x100 [] 0b1001 [] [] 1 [0xf000, 0xf87e]))
      [(14, 0x105)] 0b1001 0x200 [] = true := by decide

/-- `bl`, farthest backward, 95_test_vectors 2.9 -/
theorem test_bl_2 :
    ends (step (st 0x400000 [] 0b0000 [] [] 0 [0xf400, 0xf800]))
      [(14, 0x400004)] 0b0000 4 [] = true := by decide
/-! ### Checks of a step before execution, and stops -/

theorem test_fetch_odd : faults (step (st 0x101 [] 0 [] [] 0 [0x2000])) (.fetchAlignment 0x101#32) =
    true := by decide

theorem test_fetch_outside_text :
    faults (step { st 0x100 [] 0 [] [⟨0, 0x1000⟩] 0 [0x2000] with pc := 0x102#32 })
      (.fetchUnmapped 0x102#32) = true := by decide

theorem test_bl_second_half_outside_text :
    faults (step (st 0x100 [] 0 [] [⟨0, 0x1000⟩] 0 [0xF000])) (.fetchUnmapped 0x102#32) = true := by
  decide

theorem test_step_not_in_card :
    refuses (step (st 0x100 [] 0 [] [] 0 [0xDF00])) (.notInCard 0xDF00#16) = true := by decide

theorem test_step_not_in_card_pair :
    refuses (step (st 0x100 [] 0 [] [] 0 [0xF000, 0x0000])) (.notInCardPair 0xF000#16 0#16) = true := by
  decide

/-! ### The host's two questions, on one word of each width -/

theorem test_reset_runs_a_word :
    ends (step (State.reset.withFetchWord 16 0x2055)) [(0, 0x55), (13, 0x3000)] 0 0x102 [] = true := by
  decide

theorem test_reset_runs_a_bl :
    ends (step (State.reset.withFetchWord 32 0xF000F87E)) [(14, 0x104)] 0 0x200 [] = true := by decide

/-! ### The assembler (30_encoding R81, R90, R97) -/

/-- Lines with a forward branch, data and a `.word` of a label, placed at 0x100 and 0x2000. -/
def source : List Line :=
  [.label "start", .instr (.bCond .eq (.sym "end")), .instr (.lsrImm (.num 1) (.num 2) (.num 0)),
    .instr (.bl (.sym "start")), .label "end", .instr (.push [.num 4, .num 0]),
    .directive .data, .label "v", .directive (.hword (.num (-2))), .directive (.asciz "A"),
    .directive (.word (.sym "v"))]

theorem test_assembled_text :
    ((assemble 0x100 0x2000 source).map fun s => s.textBytes.map fun c => c.2.toNat) =
      some [0x02, 0xD0, 0x11, 0x00, 0xFF, 0xF7, 0xFC, 0xFF, 0x11, 0xB4] := by decide

theorem test_assembled_data :
    ((assemble 0x100 0x2000 source).map fun s => s.dataBytes.map fun c => (c.1, c.2.toNat)) =
      some [(0x2000, 0xFE), (0x2001, 0xFF), (0x2002, 0x41), (0x2003, 0), (0x2004, 0), (0x2005, 0x20),
        (0x2006, 0), (0x2007, 0)] := by decide

theorem test_assembler_refuses :
    assembleInstr ⟨[], [], [], false⟩ 0 (.addImm (.num 0) (.num 1) (.num 8)) = none ∧
    assembleInstr ⟨[], [], [], false⟩ 0 (.ldrImm (.num 0) (.num 1) (.num 6)) = none ∧
    assembleInstr ⟨[], [], [], false⟩ 0 (.movImm (.num 8) (.num 1)) = none ∧
    assembleInstr ⟨[], [], [], false⟩ 0 (.push []) = none ∧
    assembleInstr ⟨[], [], [], false⟩ 0 (.b (.num 2051)) = none := by decide

/-- "the assembler reads nothing further" after `.end` (R97): a label there takes no name from `.equiv`. -/
theorem test_nothing_read_after_end :
    ((assemble 0x100 0x2000
        [.directive (.equiv "n" (.num 5)), .instr (.movImm (.num 0) (.sym "n")), .directive .endOfSource,
          .label "n", .instr (.movImm (.num 0) (.num 256))]).map fun s => s.textBytes) =
      some [(0x100, 0x05#8), (0x101, 0x20#8)] := by decide

/-- A label is an even address of the 2^32 (R81, 47 R212), and an instruction is at an even one (20_memory
R45, log 31). -/
theorem test_branch_label_is_an_even_address :
    assembleInstr ⟨[], [], [], false⟩ 0x100 (.b (.num 0x104)) = some (.b 0) ∧
    assembleInstr ⟨[], [], [], false⟩ 0x100 (.b (.num (2 ^ 32 + 0x104))) = none ∧
    assembleInstr ⟨[], [], [], false⟩ 0 (.b (.num (-4))) = none ∧
    assembleInstr ⟨[], [], [], false⟩ 0x101 (.b (.num 0x105)) = none ∧
    assemble 0x100 0x2000 [.directive (.byte (.num 1)), .instr (.neg (.num 0) (.num 0))] = none := by
  decide

/-- The form is picked by the registers, through aliases too (40 R101, 42 R131; 95_test_vectors 2.1, 2.2). -/
theorem test_registers_pick_the_form :
    let env : AsmEnv := ⟨[], [], [("x", 1#4), ("top", 8#4)], false⟩
    (assembleInstr env 0 (.mov (.named "x") (.num 2))).map encode = some [0x0011#16] ∧
    (assembleInstr env 0 (.mov (.named "top") (.named "x"))).map encode = some [0x4688#16] ∧
    (assembleInstr env 0 (.addImm (.num 0) (.num 0) (.num 1))).map encode = some [0x3001#16] ∧
    (assembleInstr env 0 (.addImm (.num 0) (.num 1) (.num 7))).map encode = some [0x1DC8#16] ∧
    (assembleInstr env 0 (.subImm (.num 13) (.num 13) (.num 8))).map encode = some [0xB082#16] ∧
    (assembleInstr env 0 (.ldrImm (.num 2) (.num 13) (.num 8))).map encode = some [0x9A02#16] ∧
    (assembleInstr env 0 (.push [.num 14, .num 4])).map encode = some [0xB510#16] ∧
    assembleInstr env 0 (.add (.num 8) (.num 0) (.num 1)) = none ∧
    assembleInstr env 0 (.mul (.num 0) (.num 1) (.num 2)) = none := by decide

/-- A label that comes later is found; a symbol of `.equ` that comes later is not (log 33). -/
theorem test_equ_after_its_use :
    assemble 0x100 0x2000 [.instr (.movImm (.num 0) (.sym "n")), .directive (.equ "n" (.num 5))] = none ∧
    (assemble 0x100 0x2000 [.instr (.b (.sym "l")), .label "l"]).isSome = true := by decide

/-- The choices of log 31: no self-alignment of `.hword`, `.balign 0`, and a name that is a label and a
symbol. -/
theorem test_directive_choices :
    ((assemble 0x100 0x2000
        [.directive .data, .directive (.byte (.num 1)), .directive (.hword (.num 0x302))]).map
      fun s => s.dataBytes) = some [(0x2000, 1#8), (0x2001, 2#8), (0x2002, 3#8)] ∧
    assemble 0x100 0x2000 [.directive (.balign 0)] = none ∧
    assemble 0x100 0x2000 [.directive (.equ "x" (.num 5)), .label "x"] = none ∧
    assemble 0x100 0x100 [.directive (.byte (.num 1)), .directive .data, .directive (.byte (.num 1))] =
      none := by decide

/-- The stack of a program with `INITIAL_SP` = 8 and 12 bytes of depth goes on at the top of the address
space (70 R261, log 32), and a byte that the program does not emit is the one given (R262). -/
theorem test_launched_stack_wraps :
    ((assemble 0x100 0x2000 source).map fun prog =>
      let s := prog.launch 0x100 0x2000 12 ⟨[], [], 0x100#32, 8#32, 0#32, 0#1⟩ (Vector.replicate 15 0#32)
        ⟨false, false, false, false⟩ [(4, 7#8), (0x101, 9#8)]
      (s.isMapped 0xFFFFFFFC#32, s.isMapped 0#32, s.isMapped 8#32, s.isMapped 0xFFFFFFFB#32,
        s.byte 4#32, s.byte 0x101#32)) =
      some (true, true, false, false, 7#8, 0xD0#8) := by decide

/-! ### Each statement with hypotheses has a case that meets them -/

theorem test_witness_DecodeEncodeRoundTrip :
    (Instr.movHi 8 7).wellFormed = true ∧ (∀ rd rm, Instr.movHi 8 7 ≠ .lslImm rd rm 0#5) ∧
      (Instr.lslImm 7 7 1).wellFormed = true ∧ (∀ rd rm, Instr.lslImm 7 7 1 ≠ .lslImm rd rm 0#5) := by
  decide

theorem test_witness_DecodedWordsEncodeBack :
    decode 0x4640#16 0#16 = .ok (.movHi 0 8) ∧ decode 0xF7FF#16 0xFFFF#16 = .ok (.bl 0x7FF 0x7FF) := by
  decide

theorem test_witness_DecoderFollowsOpcodeTable :
    isBlFirst 0xEFFF#16 = false ∧ isBlFirst 0xF800#16 = false ∧ isBlFirst 0#16 = false ∧
      (0xF7FF#16 &&& 0xF800#16 = 0xF000#16) ∧ (0xF800#16 &&& 0xF800#16 = 0xF800#16) ∧
      (0xF7FF#16 &&& 0xF800#16 ≠ 0xF800#16) := by decide

/-- A state at the last halfword of its `TEXT`. -/
theorem test_witness_StepRunsDecodedInstruction :
    let s := st 0x100 [] 0 [] [] 0 [0x27FF]
    s.pc.toNat % 2 = 0 ∧
      (∀ k, k < (Instr.movImm 7 0xFF).byteLength → s.isText (s.pc + BitVec.ofNat 32 k) = true) ∧
      decodeBytes ((List.range (Instr.movImm 7 0xFF).byteLength).map
        (fun k => s.byte (s.pc + BitVec.ofNat 32 k))) = .ok (.movImm 7 0xFF, []) := by decide

theorem test_witness_StepRunsDecodedInstruction_bl :
    let s := st 0x100 [] 0 [] [] 0 [0xF000, 0xF87E]
    s.pc.toNat % 2 = 0 ∧
      (∀ k, k < (Instr.bl 0 0x7E).byteLength → s.isText (s.pc + BitVec.ofNat 32 k) = true) ∧
      decodeBytes ((List.range (Instr.bl 0 0x7E).byteLength).map
        (fun k => s.byte (s.pc + BitVec.ofNat 32 k))) = .ok (.bl 0 0x7E, []) := by decide

theorem test_witness_FetchChecksInOrder_odd :
    (st 0x101 [] 0 [] [] 0 [0x2000]).pc.toNat % 2 ≠ 0 := by decide

theorem test_witness_FetchChecksInOrder_first :
    let s := { st 0x100 [] 0 [] [] 0 [0x2000] with pc := 0x102#32 }
    s.pc.toNat % 2 = 0 ∧ (s.isText s.pc && s.isText (s.pc + 1#32)) = false := by decide

theorem test_witness_FetchChecksInOrder_second :
    let s := st 0x100 [] 0 [] [] 0 [0xF000]
    s.pc.toNat % 2 = 0 ∧ (s.isText s.pc && s.isText (s.pc + 1#32)) = true ∧
      isBlFirst (s.halfAt s.pc) = true ∧
      (s.isText (s.pc + 2#32) && s.isText (s.pc + 3#32)) = false := by decide

theorem test_witness_FetchChecksInOrder_pair :
    let s := st 0x100 [] 0 [] [] 0 [0xF000, 0xF7FF]
    s.pc.toNat % 2 = 0 ∧ (s.isText s.pc && s.isText (s.pc + 1#32)) = true ∧
      isBlFirst (s.halfAt s.pc) = true ∧
      (s.isText (s.pc + 2#32) && s.isText (s.pc + 3#32)) = true ∧
      isBlSecond (s.halfAt (s.pc + 2#32)) = false := by decide

theorem test_witness_FetchChecksInOrder_card :
    let s := st 0x100 [] 0 [] [] 0 [0xDF00]
    s.pc.toNat % 2 = 0 ∧ (s.isText s.pc && s.isText (s.pc + 1#32)) = true ∧
      isBlFirst (s.halfAt s.pc) = false ∧ decode16 (s.halfAt s.pc) = none := by decide

/-- A store at the last mapped word, its value leaving the byte list shorter. -/
def storing : State := st 0x100 [(0, 0xFF), (1, 0x2008)] 0b0101 storeMem [⟨0x2000, 12⟩] 0 [0x6008]

theorem test_witness_StepKeepsInvariant :
    storing.pc.toNat % 2 = 0 ∧ Memory.wf storing.mem ∧ runs (step storing) = true := by decide

theorem test_witness_StepWritesOnlyMappedData :
    ends (step storing) [] 0b0101 0x102 [(0x2008, 0xFF), (0x200B, 0)] = true ∧
      storing.byte 0x2008#32 = 0xAA#8 := by decide

theorem test_witness_RunNeverChangesText :
    (match run 1 storing with | .running t => t.isText 0x101#32 | _ => false) = true ∧
      (match run 0 { storing with pc := 0xFFFFFFFE#32 } with | .final _ => true | _ => false) = true := by
  decide

/-- A load, a branch and a compare have a next state, store nothing and push nothing. -/
def loading : State := st 0x100 [(1, 0x2008)] 0b0101 loadMem [⟨0x2000, 12⟩] 0 [0x6808]

theorem test_witness_OnlyStoresChangeMemory :
    runs (exec (.ldrImm 0 1 0) loading) = true ∧ loading.storeAccess (.ldrImm 0 1 0) = none ∧
      pushList (.ldrImm 0 1 0) = none := by decide

theorem test_witness_ControlFlowComplete :
    runs (exec (.movHi 14 15) loading) = true ∧ writesPc (.movHi 14 15) = false := by decide

theorem test_witness_FlagWritersComplete :
    runs (exec (.lslReg 0 2) loading) = true ∧ loading.shiftBy (.lslReg 0 2) = some 0 ∧
      (flagColumn (.lslReg 0 2)).v = false ∧ (flagColumn (.movImm 0 0)).c = false ∧
      (flagColumn (.addSp 0)).n = false ∧ (flagColumn (.addSp 0)).z = false := by decide

theorem test_witness_OnlyCondBranchReadsFlags :
    (∀ c imm8, Instr.ldrImm 0 1 0 ≠ .bCond c imm8) ∧ runs (exec (.ldrImm 0 1 0) loading) = true ∧
      faults (exec (.ldrImm 0 1 1) loading) (.unmapped 0x200C#32 4) = true ∧
      refuses (exec (.cmpHi 0 15) loading) (.unpredictable .cmpWithPc) = true :=
  ⟨fun _ _ h => (nomatch h), by decide, by decide, by decide⟩

/-- Two settings of the flags under which `bge` goes the same way. -/
theorem test_witness_OnlyCondBranchReadsFlags_branch :
    loading.flags = ⟨false, true, false, true⟩ ∧
      conditionPassed ⟨true, false, true, false⟩ .ge = conditionPassed loading.flags .ge ∧
      runs (exec (.bCond .ge 4) loading) = true := by decide

theorem test_witness_HighRegisterWritersComplete :
    runs (exec (.addHi 9 8) loading) = true ∧ writesSp (.addHi 9 8) = false ∧
      writesLr (.addHi 9 8) = false ∧
      (∀ q, Instr.addHi 9 8 ≠ .movHi 12 q ∧ Instr.addHi 9 8 ≠ .addHi 12 q) := by decide

theorem test_witness_MovHighRegisters_AddHighRegisters_CompareForms :
    (8#4 ≠ Reg.pc) ∧ (14#4 ≠ Reg.pc) ∧ (Reg.pc = Reg.pc) ∧ Reg.isLow 7#4 = true ∧
      Reg.isLow 0#4 = true ∧ encode (.movHi 7 0) = [0x4607#16] := by decide

theorem test_witness_ConditionsAfterCompare :
    runs (exec (.cmpLo 0 1) loading) = true ∧ runs (exec (.cmpHi 13 0) loading) = true ∧
      runs (exec (.cmpImm 0 255) loading) = true ∧ runs (exec (.subLo 2 0 1) loading) = true ∧
      runs (exec (.cmn 0 1) loading) = true ∧ runs (exec (.addLo 2 0 1) loading) = true := by decide

theorem test_witness_ShiftFunctionIsArithmetic : (255 : Nat) ≤ 255 := by decide

/-- The last mapped word, halfword and byte, in each addressing mode. -/
theorem test_witness_LoadWordForms :
    loading.CanRead (loading.eaImm 1 (immWords 0#5)) 4 ∧ loading.CanRead (loading.eaReg 1 2) 4 ∧
      (st 0x102 [] 0 [] [⟨0x100, 8⟩] 0 [0x4800]).CanRead
        ((st 0x102 [] 0 [] [⟨0x100, 8⟩] 0 [0x4800]).eaPc (immWords 0#8)) 4 ∧
      (st 0x100 [(13, 0x1C0C)] 0 [] [⟨0x2000, 12⟩] 0 []).CanRead
        ((st 0x100 [(13, 0x1C0C)] 0 [] [⟨0x2000, 12⟩] 0 []).eaSp (immWords 0xFF#8)) 4 := by
  unfold State.CanRead; decide

theorem test_witness_LoadNarrowForms :
    loading.CanRead (loading.eaImm 1 (immHalves 1#5)) 2 ∧
      loading.CanRead (loading.eaImm 1 (immPlain 3#5)) 1 ∧
      loading.CanRead (loading.eaReg 1 2) 2 ∧ loading.CanRead (loading.eaReg 1 2) 1 := by
  unfold State.CanRead; decide

theorem test_witness_StoreForms :
    storing.CanWrite (storing.eaImm 1 (immWords 0#5)) 4 ∧
      storing.CanWrite (storing.eaImm 1 (immHalves 1#5)) 2 ∧
      storing.CanWrite (storing.eaImm 1 (immPlain 3#5)) 1 ∧
      storing.CanWrite (storing.eaReg 1 2) 4 ∧ storing.CanWrite (storing.eaReg 1 2) 2 ∧
      storing.CanWrite (storing.eaReg 1 2) 1 ∧
      (st 0x100 [(13, 0x1C0C)] 0 [] [⟨0x2000, 12⟩] 0 []).CanWrite
        ((st 0x100 [(13, 0x1C0C)] 0 [] [⟨0x2000, 12⟩] 0 []).eaSp (immWords 0xFF#8)) 4 := by
  unfold State.CanWrite State.CanRead; decide

/-- The last misaligned address before an aligned one, for a word and a halfword. -/
theorem test_witness_access_alignment :
    let s := st 0x100 [(1, 0x2003)] 0 [] [⟨0x2000, 12⟩] 0 []
    (s.eaImm 1 (immWords 0#5)).toNat % 4 ≠ 0 ∧ (s.eaReg 1 0).toNat % 2 ≠ 0 ∧
      (s.eaSp (immWords 1#8)).toNat % 4 = 0 ∧ (loading.eaPc (immWords 0#8)).toNat % 4 = 0 := by decide

/-- The first byte past the mapped bytes, at every width. -/
theorem test_witness_access_unmapped :
    loading.eaImm 1 (immWords 1#5) = 0x200C#32 ∧ loading.eaImm 1 (immHalves 2#5) = 0x200C#32 ∧
      loading.eaImm 1 (immPlain 4#5) = 0x200C#32 ∧ (0x200C#32).toNat % 4 = 0 ∧
      loading.isMapped (0x200C#32 + BitVec.ofNat 32 0) = false := by decide

/-- A word store of which only the first two bytes are in `TEXT`. -/
theorem test_witness_store_text :
    let s := st 0x100 [(1, 0x100)] 0 [] [⟨0x100, 8⟩] 0 [0x6008]
    s.eaImm 1 (immWords 0#5) = 0x100#32 ∧ s.CanRead 0x100#32 4 ∧
      s.isText (0x100#32 + BitVec.ofNat 32 1) = true ∧
      s.isText (0x100#32 + BitVec.ofNat 32 2) = false := by
  unfold State.CanRead; decide

theorem test_witness_MixedWidthView_LoadSeesLatestStore :
    (match storing.memWrite 0x2008#32 4 0x11223344#32 with
      | .ok t => (match t.memWrite 0x2009#32 1 0xAB#32 with | .ok _ => true | _ => false)
      | _ => false) = true ∧
    (match storing.memWrite 0x200A#32 2 0x11223344#32 with | .ok _ => true | _ => false) = true ∧
    (match storing.memWrite 0x200B#32 1 0x11223344#32 with | .ok _ => true | _ => false) = true := by
  decide

/-- A stack of exactly the bytes used. -/
def stacked (bit0 : BitVec 1) : State :=
  st 0x100 [(4, 0x44), (14, 0x123), (13, 0x1FF8)] 0 (words [(0x1FF8, 3), (0x1FFC, 0x300)])
    [⟨0x1FF0, 0x10⟩] bit0 [0xB510]

theorem test_witness_PushForms :
    pushList (.pushLr 0x10) = some [4#4, Reg.lr] ∧ Instr.pushLr 0x10 ≠ .push 0#8 ∧
      slots ((stacked 0).reg Reg.sp - BitVec.ofNat 32 (4 * 2)) 2 = [0x1FF0#32, 0x1FF4#32] ∧
      (stacked 0).CanWrite 0x1FF0#32 4 ∧ (stacked 0).CanWrite 0x1FF4#32 4 := by
  unfold State.CanWrite State.CanRead; decide

theorem test_witness_PopForm :
    (0x11#8 ≠ 0#8) ∧ (loRegList 0x11#8).length = 2 ∧
      slots ((stacked 0).reg Reg.sp) 2 = [0x1FF8#32, 0x1FFC#32] ∧
      (stacked 0).CanRead 0x1FF8#32 4 ∧ (stacked 0).CanRead 0x1FFC#32 4 := by
  unfold State.CanRead; decide

/-- Both values of the word's bit 0 against `LR_BIT0`. -/
theorem test_witness_PopPcForm :
    (loRegList 0x10#8).length + 1 = 2 ∧ slots ((stacked 1).reg Reg.sp) 2 = [0x1FF8#32, 0x1FFC#32] ∧
      (stacked 1).CanRead 0x1FF8#32 4 ∧ (stacked 1).CanRead 0x1FFC#32 4 ∧
      ((stacked 0).wordAt ((stacked 0).reg Reg.sp + BitVec.ofNat 32 (4 * 1))).extractLsb' 0 1 =
        (stacked 0).platform.lrBit0 ∧
      ((stacked 1).wordAt ((stacked 1).reg Reg.sp + BitVec.ofNat 32 (4 * 1))).extractLsb' 0 1 ≠
        (stacked 1).platform.lrBit0 := by
  unfold State.CanRead; decide

/-- A push of three words where only two fit: the first word is unmapped; at an odd SP it is misaligned;
over `TEXT` it is refused. -/
theorem test_witness_BlockTransferStops_push :
    let s := st 0x100 [(13, 0x1FF8)] 0 [] [⟨0x1FF0, 0x10⟩] 0 [0xB407]
    let u := st 0x100 [(13, 0x1FF9)] 0 [] [⟨0x1FF0, 0x10⟩] 0 [0xB407]
    let v := st 0x100 [(13, 0x10C)] 0 [] [⟨0x100, 0x10⟩] 0 [0xB407]
    pushList (.push 7) = some [0#4, 1#4, 2#4] ∧ Instr.push 7 ≠ .push 0#8 ∧
      s.isMapped (s.reg Reg.sp - BitVec.ofNat 32 (4 * 3)) = false ∧
      (u.reg Reg.sp - BitVec.ofNat 32 (4 * 3)).toNat % 4 ≠ 0 ∧
      v.CanRead (v.reg Reg.sp - BitVec.ofNat 32 (4 * 3)) 4 ∧ v.isText 0x101#32 = true ∧
      refuses (exec (.push 7) v) (.storeToText 0x100#32) = true := by
  unfold State.CanRead; decide

/-- A pop of three words where the last is unmapped, the ones before it readable. -/
theorem test_witness_BlockTransferStops_pop :
    popList (.popPc 0x30) = some [4#4, 5#4, Reg.pc] ∧ Instr.popPc 0x30 ≠ .pop 0#8 ∧
      (∀ j, j < 2 →
        (stacked 0).CanRead ((stacked 0).reg Reg.sp + BitVec.ofNat 32 (4 * j)) 4) ∧
      (0x2000#32).toNat % 4 = 0 ∧ (stacked 0).isMapped 0x2000#32 = false ∧
      faults (exec (.popPc 0x30) (stacked 0)) (.unmapped 0x2000#32 4) = true := by
  unfold State.CanRead; decide

/-- A misaligned pop, and a push whose slots wrap: 0xFFFFFFFC passes its checks and 0 does not (log 23). -/
theorem test_witness_BlockTransferStops_boundaries :
    let s := st 0x100 [(13, 0x1FFA)] 0 [] [⟨0x1FF0, 0x10⟩] 0 [0xBC03]
    let u := st 0x100 [(13, 4)] 0 [] [⟨0xFFFFFFFC, 4⟩] 0 [0xB403]
    popList (.pop 3) = some [0#4, 1#4] ∧ Instr.pop 3 ≠ .pop 0#8 ∧ (s.reg Reg.sp).toNat % 4 ≠ 0 ∧
      faults (exec (.pop 3) s) (.alignment 0x1FFA#32 4) = true ∧
      u.reg Reg.sp - BitVec.ofNat 32 (4 * 2) = 0xFFFFFFFC#32 ∧ u.CanWrite 0xFFFFFFFC#32 4 ∧
      u.isMapped 0#32 = false ∧ faults (exec (.push 3) u) (.unmapped 0#32 4) = true := by
  unfold State.CanWrite State.CanRead; decide

theorem test_witness_PushPopRoundTrip :
    (match exec (.pushLr 0x10) (stacked 1) with
      | .next t =>
        ends (exec (.popPc 0x10) { t with regs := t.regs.set 4 0#32 }) [(4, 0x44), (13, 0x1FF8)] 0 0x122 []
      | _ => false) = true ∧
      ((stacked 1).reg Reg.lr).extractLsb' 0 1 = (stacked 1).platform.lrBit0 := by decide

theorem test_witness_CallReturnsAfterIt :
    loading.pc.toNat % 2 = 0 ∧
      (match exec (.bl 0 0x7E) loading with
        | .next t => ends (exec (.movHi Reg.pc Reg.lr) t) [] 0b0101 0x104 []
        | _ => false) = true := by decide

theorem test_witness_SignedLoadIsLoadThenExtend :
    (match exec (.ldrhReg 0 1 2) loading with
      | .next u => runs (exec (.sxth 0 0) u) && runs (exec (.ldrshReg 0 1 2) loading)
      | _ => false) = true ∧
    (match exec (.ldrbReg 0 1 2) loading with
      | .next u => runs (exec (.sxtb 0 0) u) && runs (exec (.ldrsbReg 0 1 2) loading)
      | _ => false) = true := by decide

theorem test_witness_LaunchState : (0#4 ≠ Reg.pc ∧ 0#4 ≠ Reg.sp) ∧ (14#4 ≠ Reg.pc ∧ 14#4 ≠ Reg.sp) := by
  decide

theorem test_witness_RunEndsAtHaltAddress :
    (match run 3 { loading with pc := 0xFFFFFFFE#32 } with | .final _ => true | _ => false) = true ∧
      loading.platform.haltAddr = 0xFFFFFFFE#32 ∧
      (match run 1 loading with | .running t => t.pc == 0x102#32 | _ => false) = true := by decide

/-- The farthest labels of each range, one across the top of the address space, and the nearest outside. -/
theorem test_witness_AssembledBranchReachesLabel :
    let env : AsmEnv := ⟨[], [("far", 0x1102)], [], false⟩
    assembleInstr env 0x1000#32 (.bCond .eq (.sym "far")) = some (.bCond .eq 0x7F#8) ∧
      conditionPassed loading.flags .eq = true ∧
      assembleInstr env 0x1000#32 (.bCond .eq (.num 0xF04)) = some (.bCond .eq 0x80#8) ∧
      assembleInstr env 0x1000#32 (.bCond .eq (.num 0x1104)) = none ∧
      assembleInstr env 0x1000#32 (.b (.num 0x1802)) = some (.b 0x3FF#11) ∧
      assembleInstr env 0x1000#32 (.b (.num 0x802)) = none ∧
      assembleInstr env 0x400000#32 (.bl (.num 0x800002)) = some (.bl 0x3FF#11 0x7FF#11) ∧
      assembleInstr env 0xFFFFFFFE#32 (.b (.num 2)) = some (.b 0) ∧
      (2 : Int) = ((0xFFFFFFFE#32).toNat + 4) % 2 ^ 32 ∧ (0xFFFFFFFE#32).toNat % 2 = 0 ∧
      (0x101#32).toNat % 2 = 1 := by decide

theorem test_witness_RegistersPickTheForm :
    let env : AsmEnv := ⟨[], [], [("top", 8#4)], false⟩
    env.reg (.named "top") = some 8#4 ∧ env.reg (.num 7) = some 7#4 ∧ Reg.isLow 7#4 = true ∧
      Reg.isLow 8#4 = false ∧
      assembleInstr env 0 (.mov (.num 7) (.num 0)) = some (.movLo 7 0) ∧
      assembleInstr env 0 (.mov (.num 7) (.named "top")) = some (.movHi 7 8) := by decide

theorem test_witness_EndOfSourceEndsAssembly : (assemble 0x100 0x2000 source).isSome = true := by decide

/-- The source assembles; an emitted address and one that is not; a canonical memory; a depth of 1. -/
theorem test_witness_LaunchedProgramInMemory :
    ((assemble 0x100 0x2000 source).map fun s => (s.textBytes ++ s.dataBytes).map fun c => c.1) =
        some (List.range' 0x100 10 ++ List.range' 0x2000 8) ∧
      Memory.wf [(4, 7#8)] ∧ 0 < 1 ∧ 1 ≤ 12 := by decide

theorem test_witness_AssembledLineDecodesBack :
    assembleInstr ⟨[], [], [], false⟩ 0 (.asrImm (.num 1) (.num 2) (.num 0)) = some (.movLo 1 2) ∧
      assembleInstr ⟨[], [], [("fp", 11#4)], false⟩ 0 (.mov (.named "fp") (.num 15)) =
        some (.movHi 11 15) := by decide

end Sys2Proof.Tests
end

section
/-! PROOF. The encoder and the decoder of bytes agree (30_encoding R61 to R79), so that what the assembler
accepts decodes back, and a step executes the instruction that the bytes at `pc` decode to. -/

namespace Sys2Proof.Proofs

open Sys2Proof Sys2Proof.Machine

/-! ### The fields of an encoded halfword -/

theorem extract_append_high {n m : Nat} (x : BitVec n) (y : BitVec m) :
    (x ++ y).extractLsb' m n = x := by
  rw [BitVec.extractLsb'_append_eq_of_le (Nat.le_refl m), Nat.sub_self, BitVec.extractLsb'_eq_self]

theorem extract_append_low {n m : Nat} (x : BitVec n) (y : BitVec m) :
    (x ++ y).extractLsb' 0 m = y := by
  rw [BitVec.extractLsb'_append_eq_of_add_le (by omega), BitVec.extractLsb'_eq_self]

theorem extract_append_mid {n m k : Nat} (x : BitVec n) (y : BitVec m) (z : BitVec k) :
    (x ++ y ++ z).extractLsb' k m = y := by
  rw [BitVec.extractLsb'_append_eq_of_le (Nat.le_refl k), Nat.sub_self, extract_append_low]

/-- A field that lies above the two lowest ones. -/
theorem extract_append_append {n m k lo w : Nat} (x : BitVec n) (y : BitVec m) (z : BitVec k)
    (h : m + k ≤ lo) : (x ++ y ++ z).extractLsb' lo w = x.extractLsb' (lo - k - m) w := by
  rw [BitVec.extractLsb'_append_eq_of_le (by omega), BitVec.extractLsb'_append_eq_of_le (by omega)]

/-- A field that lies above the three lowest ones. -/
theorem extract_append_append_append {n m k l lo w : Nat} (x : BitVec n) (y : BitVec m)
    (z : BitVec k) (u : BitVec l) (h : m + k + l ≤ lo) :
    (x ++ y ++ z ++ u).extractLsb' lo w = x.extractLsb' (lo - l - k - m) w := by
  rw [extract_append_append _ z u (by omega), BitVec.extractLsb'_append_eq_of_le (by omega)]

theorem slice_word533 (op imm5 : BitVec 5) (y z : LoReg) :
    slice (word533 op imm5 y z) 11 5 = op ∧ slice (word533 op imm5 y z) 6 5 = imm5 ∧
      slice (word533 op imm5 y z) 3 3 = y ∧ slice (word533 op imm5 y z) 0 3 = z :=
  ⟨(extract_append_append _ y z (by decide)).trans (extract_append_high op imm5),
    (extract_append_append _ y z (by decide)).trans (extract_append_low op imm5),
    extract_append_mid _ y z, extract_append_low _ z⟩

theorem slice_word333 (op : BitVec 7) (x y z : BitVec 3) :
    slice (word333 op x y z) 11 5 = op.extractLsb' 2 5 ∧
      slice (word333 op x y z) 9 2 = op.extractLsb' 0 2 ∧
      slice (word333 op x y z) 9 3 = op.extractLsb' 0 3 ∧ slice (word333 op x y z) 6 3 = x ∧
      slice (word333 op x y z) 3 3 = y ∧ slice (word333 op x y z) 0 3 = z :=
  ⟨extract_append_append_append op x y z (by decide),
    extract_append_append_append op x y z (by decide),
    extract_append_append_append op x y z (by decide),
    (extract_append_append _ y z (by decide)).trans (extract_append_low op x),
    extract_append_mid _ y z, extract_append_low _ z⟩

theorem slice_word38 (op : BitVec 5) (r : LoReg) (imm8 : BitVec 8) :
    slice (word38 op r imm8) 11 5 = op ∧ slice (word38 op r imm8) 8 3 = r ∧
      slice (word38 op r imm8) 0 8 = imm8 :=
  ⟨(extract_append_append op r imm8 (by decide)).trans BitVec.extractLsb'_eq_self,
    extract_append_mid op r imm8, extract_append_low _ imm8⟩

theorem slice_wordAlu (op : BitVec 4) (rm rd : LoReg) :
    slice (wordAlu op rm rd) 11 5 = 0b01000#5 ∧ slice (wordAlu op rm rd) 10 1 = 0#1 ∧
      slice (wordAlu op rm rd) 6 4 = op ∧ slice (wordAlu op rm rd) 3 3 = rm ∧
      slice (wordAlu op rm rd) 0 3 = rd :=
  ⟨extract_append_append_append _ op rm rd (by decide),
    extract_append_append_append _ op rm rd (by decide),
    (extract_append_append _ rm rd (by decide)).trans (extract_append_low _ op),
    extract_append_mid _ rm rd, extract_append_low _ rd⟩

theorem slice_wordHiReg (op : BitVec 2) (rd rm : Reg) :
    slice (wordHiReg op rd rm) 11 5 = 0b01000#5 ∧ slice (wordHiReg op rd rm) 10 1 = 1#1 ∧
      slice (wordHiReg op rd rm) 8 2 = op ∧
      slice (wordHiReg op rd rm) 7 1 ++ slice (wordHiReg op rd rm) 0 3 = rd ∧
      slice (wordHiReg op rd rm) 3 4 = rm := by
  have hrd : rd.extractLsb' 3 1 ++ rd.extractLsb' 0 3 = rd :=
    (BitVec.extractLsb'_append_extractLsb'_eq_extractLsb' rfl).trans BitVec.extractLsb'_eq_self
  refine ⟨(extract_append_append _ rm _ (by decide)).trans
      (extract_append_append _ op _ (by decide)),
    (extract_append_append _ rm _ (by decide)).trans (extract_append_append _ op _ (by decide)),
    (extract_append_append _ rm _ (by decide)).trans (extract_append_mid _ op _), ?_,
    extract_append_mid _ rm _⟩
  refine Eq.trans ?_ hrd
  congr 1
  · exact (extract_append_append _ rm _ (by decide)).trans (extract_append_low _ _)
  · exact extract_append_low _ _

theorem slice_wordExtend (op : BitVec 2) (rm rd : LoReg) :
    slice (wordExtend op rm rd) 11 5 = 0b10110#5 ∧ slice (wordExtend op rm rd) 8 4 = 0b0010#4 ∧
      slice (wordExtend op rm rd) 6 2 = op ∧ slice (wordExtend op rm rd) 3 3 = rm ∧
      slice (wordExtend op rm rd) 0 3 = rd :=
  ⟨extract_append_append_append _ op rm rd (by decide),
    extract_append_append_append _ op rm rd (by decide),
    (extract_append_append _ rm rd (by decide)).trans (extract_append_low _ op),
    extract_append_mid _ rm rd, extract_append_low _ rd⟩

/-- The fields of a format ADJ_SP word (R74). -/
theorem slice_adjSp (op : BitVec 9) (imm7 : BitVec 7) :
    slice (op ++ imm7 : Half) 11 5 = op.extractLsb' 4 5 ∧
      slice (op ++ imm7 : Half) 8 4 = op.extractLsb' 1 4 ∧
      slice (op ++ imm7 : Half) 7 1 = op.extractLsb' 0 1 ∧ slice (op ++ imm7 : Half) 0 7 = imm7 :=
  ⟨BitVec.extractLsb'_append_eq_of_le (by decide), BitVec.extractLsb'_append_eq_of_le (by decide),
    BitVec.extractLsb'_append_eq_of_le (by decide), extract_append_low op imm7⟩

/-- The fields of a format PUSHPOP word (R76). -/
theorem slice_pushPop (op rlist : BitVec 8) :
    slice (op ++ rlist : Half) 11 5 = op.extractLsb' 3 5 ∧
      slice (op ++ rlist : Half) 8 4 = op.extractLsb' 0 4 ∧ slice (op ++ rlist : Half) 0 8 = rlist :=
  ⟨BitVec.extractLsb'_append_eq_of_le (by decide), BitVec.extractLsb'_append_eq_of_le (by decide),
    extract_append_low op rlist⟩

/-- The fields of a format BCOND word (R77); bit 11 is the top bit of the condition. -/
theorem slice_bCond (code : BitVec 4) (imm8 : BitVec 8) :
    slice (0b1101#4 ++ code ++ imm8 : Half) 11 5 = 0b1101#4 ++ code.extractLsb' 3 1 ∧
      slice (0b1101#4 ++ code ++ imm8 : Half) 8 4 = code ∧
      slice (0b1101#4 ++ code ++ imm8 : Half) 0 8 = imm8 := by
  refine ⟨?_, extract_append_mid _ code imm8, extract_append_low _ imm8⟩
  exact (BitVec.extractLsb'_append_eq_of_le (by decide)).trans (by decide +revert)

/-- The fields of a format B or BL word (R78, R79). -/
theorem slice_branch (op : BitVec 5) (imm11 : BitVec 11) :
    slice (op ++ imm11 : Half) 11 5 = op ∧ slice (op ++ imm11 : Half) 0 11 = imm11 :=
  ⟨extract_append_high op imm11, extract_append_low op imm11⟩

theorem condOfCode_code (c : Cond) : condOfCode c.code = some c := by cases c <;> rfl


/-! ### Decoding an encoded instruction -/

theorem decode16_bCond (c : Cond) (imm8 : BitVec 8) :
    decode16 (0b1101#4 ++ c.code ++ imm8 : Half) = some (.bCond c imm8) := by
  obtain ⟨hop, hcode, himm⟩ := slice_bCond c.code imm8
  have hdec : decode16 (0b1101#4 ++ c.code ++ imm8 : Half) =
      decodeBCond (0b1101#4 ++ c.code ++ imm8 : Half) := by
    unfold decode16
    rw [hop]
    cases c <;> rfl
  rw [hdec, decodeBCond, hcode, condOfCode_code, himm]

/-- An instruction that its own word decodes to: one the opcode table has a word for, and not
`lsl Rd, Rm, #0`, whose word is that of `mov Rd, Rm` (30_encoding R62, R90). -/
def HasOwnWord (i : Instr) : Prop :=
  i.wellFormed = true ∧ ∀ rd rm, i ≠ .lslImm rd rm 0#5

/-- Every instruction but `bl` is one halfword, which the decoder of halfwords reads back. -/
theorem encode_cases {i : Instr} (hi : HasOwnWord i) :
    (∃ immhi immlo, i = .bl immhi immlo) ∨ ∃ w, encode i = [w] ∧ decode16 w = some i := by
  obtain ⟨hwf, hlsl⟩ := hi
  cases i with
  | bl immhi immlo => exact .inl ⟨immhi, immlo, rfl⟩
  | lslImm rd rm imm5 =>
    have h0 : imm5 ≠ 0#5 := fun h => hlsl rd rm (h ▸ rfl)
    exact .inr ⟨_, rfl, by simp [decode16, slice_word533, h0]⟩
  | movLo | lsrImm | asrImm | strImm | ldrImm | strbImm | ldrbImm | strhImm | ldrhImm =>
    exact .inr ⟨_, rfl, by simp [decode16, slice_word533]⟩
  | addLo | subLo | addImm3 | subImm3 =>
    exact .inr ⟨_, rfl, by simp [decode16, decodeAddSub3, slice_word333]⟩
  | strReg | strhReg | strbReg | ldrsbReg | ldrReg | ldrhReg | ldrbReg | ldrshReg =>
    exact .inr ⟨_, rfl, by simp [decode16, decodeLsReg, slice_word333]⟩
  | movImm | cmpImm | addImm8 | subImm8 | ldrPc | strSp | ldrSp | addRdSp =>
    exact .inr ⟨_, rfl, by simp [decode16, slice_word38]⟩
  | andReg | eorReg | lslReg | lsrReg | asrReg | rorReg | tst | neg | cmpLo | cmn | orrReg | mul
  | bicReg | mvnReg =>
    exact .inr ⟨_, rfl, by simp [decode16, decodeAlu, slice_wordAlu]⟩
  | addHi rd rm | cmpHi rd rm | movHi rd rm =>
    have hhigh : oneHigh rd rm = true := hwf
    exact .inr ⟨_, rfl, by simp [decode16, decodeHiReg, slice_wordHiReg, hhigh]⟩
  | addSp | subSp => exact .inr ⟨_, rfl, by simp [decode16, decodeMisc, slice_adjSp]⟩
  | sxth | sxtb | uxth | uxtb =>
    exact .inr ⟨_, rfl, by simp [decode16, decodeMisc, slice_wordExtend]⟩
  | push rlist | pop rlist =>
    have hlist : rlist ≠ 0#8 := by simpa [Instr.wellFormed] using hwf
    exact .inr ⟨_, rfl, by simp [decode16, decodeMisc, slice_pushPop, hlist]⟩
  | pushLr | popPc => exact .inr ⟨_, rfl, by simp [decode16, decodeMisc, slice_pushPop]⟩
  | bCond cond imm8 => exact .inr ⟨_, rfl, decode16_bCond cond imm8⟩
  | b imm11 => exact .inr ⟨_, rfl, by simp [decode16, slice_branch]⟩

/-- The bytes of a halfword make it up again (20_memory R41). -/
theorem halfOfBytes_extract (h : Half) :
    halfOfBytes (h.extractLsb' 0 8) (h.extractLsb' 8 8) = h :=
  (BitVec.extractLsb'_append_extractLsb'_eq_extractLsb' rfl).trans BitVec.extractLsb'_eq_self

/-- The decoder of halfwords answers nothing for the first half of a `bl`. -/
theorem not_isBlFirst_of_decode16 {w : Half} {i : Instr} (h : decode16 w = some i) :
    isBlFirst w = false := by
  refine Bool.eq_false_iff.mpr fun hbl => ?_
  have hop : slice w 11 5 = 0b11110#5 := beq_iff_eq.mp hbl
  simp [decode16, hop] at h

theorem decode_of_decode16 {w w2 : Half} {i : Instr} (h : decode16 w = some i) :
    decode w w2 = .ok i := by
  simp [decode, not_isBlFirst_of_decode16 h, h]

theorem decodeBytes_half {w : Half} {i : Instr} (h : decode16 w = some i) (rest : List Byte) :
    decodeBytes (bytesOfHalf w ++ rest) = .ok (i, rest) := by
  simp [bytesOfHalf, decodeBytes, halfOfBytes_extract, not_isBlFirst_of_decode16 h,
    decode_of_decode16 h]

theorem decodeBytes_bl (immhi immlo : BitVec 11) (rest : List Byte) :
    decodeBytes (encodeBytes (.bl immhi immlo) ++ rest) = .ok (.bl immhi immlo, rest) := by
  simp [encodeBytes, encode, bytesOfHalf, decodeBytes, halfOfBytes_extract, decode, isBlFirst,
    isBlSecond, slice_branch]

/-- Decode inverts encode, whatever bytes follow (30_encoding R61, R62). -/
theorem decodeBytes_encodeBytes {i : Instr} (hi : HasOwnWord i) (rest : List Byte) :
    decodeBytes (encodeBytes i ++ rest) = .ok (i, rest) := by
  obtain ⟨immhi, immlo, rfl⟩ | ⟨w, hw, hdec⟩ := encode_cases hi
  · exact decodeBytes_bl immhi immlo rest
  · have hbytes : encodeBytes i = bytesOfHalf w := by simp [encodeBytes, hw]
    rw [hbytes, decodeBytes_half hdec]

/-! ### What the assembler answers -/

theorem shiftImm_hasOwnWord {mk : BitVec 5 → Instr} {rd rm : LoReg} {n : BitVec 5}
    (h : n ≠ 0#5 → HasOwnWord (mk n)) : HasOwnWord (shiftImm mk rd rm n) := by
  unfold shiftImm
  split
  · exact ⟨rfl, nofun⟩
  · exact h ‹_›

theorem pickMov_hasOwnWord (rd rm : Reg) : HasOwnWord (pickMov rd rm) := by
  refine ⟨Laws.pickMov_wellFormed rd rm, fun _ _ => ?_⟩
  unfold pickMov
  split <;> nofun

theorem pickCmp_hasOwnWord {rn rm : Reg} {i : Instr} (h : pickCmp rn rm = some i) :
    HasOwnWord i := by
  refine ⟨Laws.pickCmp_wellFormed h, fun _ _ hi => ?_⟩
  simp only [hi, pickCmp] at h
  (repeat' split at h) <;> cases h

theorem pickAdd_hasOwnWord {rd rn rm : Reg} {i : Instr} (h : pickAdd rd rn rm = some i) :
    HasOwnWord i := by
  refine ⟨Laws.pickAdd_wellFormed h, fun _ _ hi => ?_⟩
  simp only [hi, pickAdd] at h
  (repeat' split at h) <;> cases h

theorem pickPush_hasOwnWord {lr : Bool} {l : BitVec 8} {i : Instr} (h : pickPush lr l = some i) :
    HasOwnWord i := by
  refine ⟨Laws.pickPush_wellFormed h, fun _ _ hi => ?_⟩
  simp only [hi, pickPush, checked] at h
  (repeat' split at h) <;> cases h

theorem pickPop_hasOwnWord {pc : Bool} {l : BitVec 8} {i : Instr} (h : pickPop pc l = some i) :
    HasOwnWord i := by
  refine ⟨Laws.pickPop_wellFormed h, fun _ _ hi => ?_⟩
  simp only [hi, pickPop, checked] at h
  (repeat' split at h) <;> cases h

theorem pickAddImm_hasOwnWord {env : AsmEnv} {rd rn : Reg} {n : Expr} {i : Instr}
    (h : env.pickAddImm rd rn n = some i) : HasOwnWord i := by
  obtain ⟨_, -, rfl⟩ | ⟨_, -, rfl⟩ | ⟨_, -, rfl⟩ | ⟨_, -, rfl⟩ := Laws.pickAddImm_forms h <;>
    exact ⟨rfl, nofun⟩

theorem pickSubImm_hasOwnWord {env : AsmEnv} {rd rn : Reg} {n : Expr} {i : Instr}
    (h : env.pickSubImm rd rn n = some i) : HasOwnWord i := by
  obtain ⟨_, -, rfl⟩ | ⟨_, -, rfl⟩ | ⟨_, -, rfl⟩ := Laws.pickSubImm_forms h <;>
    exact ⟨rfl, nofun⟩

theorem pickLdrImm_hasOwnWord {env : AsmEnv} {rd : LoReg} {base : Reg} {n : Expr} {i : Instr}
    (h : env.pickLdrImm rd base n = some i) : HasOwnWord i := by
  obtain ⟨_, -, rfl | rfl⟩ | ⟨_, -, rfl⟩ := Laws.pickLdrImm_forms h <;> exact ⟨rfl, nofun⟩

theorem pickStrImm_hasOwnWord {env : AsmEnv} {rd : LoReg} {base : Reg} {n : Expr} {i : Instr}
    (h : env.pickStrImm rd base n = some i) : HasOwnWord i := by
  obtain ⟨_, -, rfl⟩ | ⟨_, -, rfl⟩ := Laws.pickStrImm_forms h <;> exact ⟨rfl, nofun⟩

/-- Whatever the assembler accepts has a word of its own (00_scope R15; 30_encoding R90). -/
theorem assembleInstr_hasOwnWord {env : AsmEnv} {a : Word} {line : AsmInstr} {i : Instr}
    (h : assembleInstr env a line = some i) : HasOwnWord i := by
  cases line with
    simp only [assembleInstr, Option.bind_eq_bind, Option.bind_eq_some_iff, Option.pure_def,
      Option.some.injEq] at h
  | bCond | b | bl =>
    obtain ⟨_, -, rfl⟩ := h
    exact ⟨rfl, nofun⟩
  | movImm | neg | mul | cmn | cmpImm | andReg | bicReg | orrReg | eorReg | mvnReg | tst | lslReg
  | lsrReg | asrReg | rorReg | sxth | sxtb | uxth | uxtb =>
    obtain ⟨_, -, _, -, rfl⟩ := h
    exact ⟨rfl, nofun⟩
  | sub | ldrhImm | ldrbImm | ldrReg | ldrhReg | ldrshReg | ldrbReg | ldrsbReg | strhImm | strbImm
  | strReg | strhReg | strbReg =>
    obtain ⟨_, -, _, -, _, -, rfl⟩ := h
    exact ⟨rfl, nofun⟩
  | lslImm =>
    obtain ⟨_, -, _, -, n, -, rfl⟩ := h
    exact shiftImm_hasOwnWord fun hn => ⟨rfl, fun _ _ hz => by cases hz; exact hn rfl⟩
  | lsrImm | asrImm =>
    obtain ⟨_, -, _, -, n, -, rfl⟩ := h
    exact shiftImm_hasOwnWord fun _ => ⟨rfl, nofun⟩
  | mov =>
    obtain ⟨_, -, _, -, rfl⟩ := h
    exact pickMov_hasOwnWord _ _
  | cmp =>
    obtain ⟨_, -, _, -, hpick⟩ := h
    exact pickCmp_hasOwnWord hpick
  | add =>
    obtain ⟨_, -, _, -, _, -, hpick⟩ := h
    exact pickAdd_hasOwnWord hpick
  | addImm =>
    obtain ⟨_, -, _, -, hpick⟩ := h
    exact pickAddImm_hasOwnWord hpick
  | subImm =>
    obtain ⟨_, -, _, -, hpick⟩ := h
    exact pickSubImm_hasOwnWord hpick
  | ldrImm =>
    obtain ⟨_, -, _, -, hpick⟩ := h
    exact pickLdrImm_hasOwnWord hpick
  | strImm =>
    obtain ⟨_, -, _, -, hpick⟩ := h
    exact pickStrImm_hasOwnWord hpick
  | push =>
    obtain ⟨_, -, hpick⟩ := h
    exact pickPush_hasOwnWord hpick
  | pop =>
    obtain ⟨_, -, hpick⟩ := h
    exact pickPop_hasOwnWord hpick

/-- Settles O52: what the assembler accepts has a word of its own, and decode inverts encode there. -/
theorem assembledLineDecodesBack : Obligations.AssembledLineDecodesBack := by
  unfold Obligations.AssembledLineDecodesBack
  intro env a line i h
  have hback := decodeBytes_encodeBytes (assembleInstr_hasOwnWord h) []
  rwa [List.append_nil] at hback

/-! ### The step -/

/-- A fetch answers the halfword at an even address whose two bytes are in `TEXT` (20_memory R43). -/
theorem fetchHalf_ok {s : State} {a : Word} (heven : a.toNat % 2 = 0) (h0 : s.isText a = true)
    (h1 : s.isText (a + 1#32) = true) : s.fetchHalf a = .ok (s.halfAt a) := by
  simp [State.fetchHalf, heven, footprint_succ, h0, h1, State.halfAt, halfOfBytes]

/-- All that the decoder of bytes can answer: an instruction of one halfword, or one of two after a
first half of a `bl` (30_encoding R61). -/
theorem decodeBytes_ok {bs rest : List Byte} {i : Instr} (h : decodeBytes bs = .ok (i, rest)) :
    (∃ b0 b1, bs = b0 :: b1 :: rest ∧ isBlFirst (halfOfBytes b0 b1) = false ∧
      decode (halfOfBytes b0 b1) 0#16 = .ok i) ∨
    (∃ b0 b1 b2 b3, bs = b0 :: b1 :: b2 :: b3 :: rest ∧ isBlFirst (halfOfBytes b0 b1) = true ∧
      decode (halfOfBytes b0 b1) (halfOfBytes b2 b3) = .ok i) := by
  unfold decodeBytes at h
  split at h
  · next b0 b1 tail =>
    split at h
    · next hbl =>
      split at h
      · split at h <;> cases h
        exact .inr ⟨b0, b1, _, _, rfl, hbl, ‹_›⟩
      · cases h
    · next hbl =>
      split at h <;> cases h
      exact .inl ⟨b0, b1, rfl, Bool.eq_false_iff.mpr hbl, ‹_›⟩
  · cases h

theorem fetchInstr_of_half {s : State} {hw1 : Half} {i : Instr} (h1 : s.fetchHalf s.pc = .ok hw1)
    (hbl : isBlFirst hw1 = false) (hdec : decode hw1 0#16 = .ok i) : s.fetchInstr = .ok i := by
  simp [State.fetchInstr, h1, hbl, hdec]

theorem fetchInstr_of_pair {s : State} {hw1 hw2 : Half} {i : Instr}
    (h1 : s.fetchHalf s.pc = .ok hw1) (h2 : s.fetchHalf (s.pc + 2#32) = .ok hw2)
    (hbl : isBlFirst hw1 = true) (hdec : decode hw1 hw2 = .ok i) : s.fetchInstr = .ok i := by
  simp [State.fetchInstr, h1, h2, hbl, hdec]

theorem step_of_fetchInstr {s : State} {i : Instr} (h : s.fetchInstr = .ok i) :
    step s = exec i s := by
  simp [step, h]

/-- The fetch finds the instruction that the bytes at `pc` decode to (30_encoding R61). -/
theorem fetchInstr_of_decodeBytes {s : State} {i : Instr} (heven : s.pc.toNat % 2 = 0)
    (htext : ∀ k, k < i.byteLength → s.isText (s.pc + BitVec.ofNat 32 k) = true)
    (hdec : decodeBytes ((List.range i.byteLength).map
      (fun k => s.byte (s.pc + BitVec.ofNat 32 k))) = .ok (i, [])) : s.fetchInstr = .ok i := by
  obtain ⟨b0, b1, hbs, hbl, hi⟩ | ⟨b0, b1, b2, b3, hbs, hbl, hi⟩ := decodeBytes_ok hdec
  · have hlen : i.byteLength = 2 := by simpa using congrArg List.length hbs
    rw [hlen] at htext hbs
    obtain ⟨rfl, rfl⟩ : s.byte s.pc = b0 ∧ s.byte (s.pc + 1#32) = b1 := by
      simpa [List.range_succ] using hbs
    have h0 : s.isText s.pc = true := by simpa using htext 0 (by decide)
    exact fetchInstr_of_half (fetchHalf_ok heven h0 (htext 1 (by decide))) hbl hi
  · have hlen : i.byteLength = 4 := by simpa using congrArg List.length hbs
    rw [hlen] at htext hbs
    have h3 : s.pc + 2#32 + 1#32 = s.pc + 3#32 := by rw [BitVec.add_assoc]; rfl
    obtain ⟨rfl, rfl, rfl, rfl⟩ : s.byte s.pc = b0 ∧ s.byte (s.pc + 1#32) = b1 ∧
        s.byte (s.pc + 2#32) = b2 ∧ s.byte (s.pc + 2#32 + 1#32) = b3 := by
      simpa [List.range_succ, h3] using hbs
    have h0 : s.isText s.pc = true := by simpa using htext 0 (by decide)
    have heven2 : (s.pc + 2#32).toNat % 2 = 0 := by
      rw [BitVec.toNat_add, BitVec.toNat_ofNat]
      omega
    exact fetchInstr_of_pair (fetchHalf_ok heven h0 (htext 1 (by decide)))
      (fetchHalf_ok heven2 (htext 2 (by decide)) (h3 ▸ htext 3 (by decide))) hbl hi

/-- Settles O5: the fetch finds the instruction decoded, and the step executes it. -/
theorem stepRunsDecodedInstruction : Obligations.StepRunsDecodedInstruction := by
  unfold Obligations.StepRunsDecodedInstruction
  intro s i heven htext hdec
  exact step_of_fetchInstr (fetchInstr_of_decodeBytes heven htext hdec)

end Sys2Proof.Proofs
end

section
/-! PROOF. What an instruction can do when it answers a next state, said once (`Effect`); from it, the
invariant of every step (10_state R24, R26) and the writers of the high registers (10_state R21). -/

namespace Sys2Proof.Proofs

open Sys2Proof Sys2Proof.Machine

/-! ### Even addresses -/

theorem toNat_even_iff {w : Nat} (v : BitVec w) : v.toNat % 2 = 0 ↔ v.getLsbD 0 = false := by
  simp [BitVec.getLsbD, Nat.testBit_zero]

theorem toNat_add_even {v u : Word} (hv : v.toNat % 2 = 0) (hu : u.toNat % 2 = 0) :
    (v + u).toNat % 2 = 0 := by
  rw [BitVec.toNat_add]
  omega

/-- Clearing bit 0 leaves an even address (10_state R26). -/
theorem clearBit0_even (v : Word) : (clearBit0 v).toNat % 2 = 0 := by
  rw [toNat_even_iff, clearBit0, BitVec.getLsbD_append]
  simp

/-- A branch offset is even: its lowest bit is the appended 0 (30_encoding R81). -/
theorem branchOffset_even {w : Nat} (imm : BitVec w) : (branchOffset imm).toNat % 2 = 0 := by
  rw [toNat_even_iff, branchOffset, BitVec.getLsbD_signExtend, BitVec.getLsbD_append]
  simp

theorem branchTarget_even {s : State} (h : s.pc.toNat % 2 = 0) {w : Nat} (imm : BitVec w) :
    (s.branchTarget (branchOffset imm)).toNat % 2 = 0 :=
  toNat_add_even (toNat_add_even h (by decide)) (branchOffset_even imm)

/-! ### A state with other flags -/

/-- The state with other flags and nothing else changed. -/
def withFlags (s : State) (f : Flags) : State := { s with flags := f }

@[simp] theorem withFlags_pc (s : State) (f : Flags) : (withFlags s f).pc = s.pc := rfl
@[simp] theorem withFlags_flags (s : State) (f : Flags) : (withFlags s f).flags = f := rfl
@[simp] theorem withFlags_mem (s : State) (f : Flags) : (withFlags s f).mem = s.mem := rfl
@[simp] theorem withFlags_self (s : State) : withFlags s s.flags = s := rfl
@[simp] theorem reg_withFlags (s : State) (f : Flags) (r : Reg) :
    (withFlags s f).reg r = s.reg r := rfl

theorem setReg_withFlags (s : State) (f : Flags) (r : Reg) (v : Word) :
    (withFlags s f).setReg r v = withFlags (s.setReg r v) f := by
  unfold State.setReg
  split <;> rfl

theorem setLo_withFlags (s : State) (f : Flags) (r : LoReg) (v : Word) :
    (withFlags s f).setLo r v = withFlags (s.setLo r v) f := setReg_withFlags ..

theorem setRegs_withFlags (s : State) (f : Flags) (l : List Reg) (vs : List Word) :
    (withFlags s f).setRegs l vs = withFlags (s.setRegs l vs) f := by
  induction l generalizing s vs with
  | nil => rfl
  | cons r l ih =>
    cases vs with
    | nil => rfl
    | cons v vs => rw [State.setRegs, setReg_withFlags, ih, State.setRegs]

/-! ### What an instruction can do -/

/-- Everything an instruction can do when it answers a next state, up to the values that it computes for
its registers and its flags: the places written, the tables that must list the form for it, and for a
store that the bytes could be written. -/
inductive Effect (s : State) : Instr → State → Prop
  /-- A low register, and flags that may be the old ones. -/
  | writeLow (i : Instr) (rd : LoReg) (v : Word) (f : Flags) :
    Effect s i (withFlags (s.setLo rd v) f).advance
  /-- Flags alone: the compares, and the branch not taken with the old ones. -/
  | writeFlags (i : Instr) (f : Flags) : Effect s i (withFlags s f).advance
  /-- `mov` and `add` to a register other than the PC (40 R102, 41 R113). -/
  | writeHigh (i : Instr) (rd rm : Reg) (v : Word) (hi : i = .movHi rd rm ∨ i = .addHi rd rm)
    (hrd : rd ≠ Reg.pc) : Effect s i (s.setReg rd v).advance
  /-- `mov` and `add` to the PC (40 R102, 41 R113). -/
  | jumpHigh (i : Instr) (v : Word) (hi : writesPc i = true) : Effect s i (s.jump (clearBit0 v))
  /-- `add` and `sub` on SP (41 R114, R119). -/
  | adjustSp (i : Instr) (v : Word) (hi : writesSp i = true) :
    Effect s i (s.setReg Reg.sp v).advance
  /-- A store (45 R181 to R187). -/
  | store (i : Instr) (a : Word) (n : Nat) (v : Word) (hi : s.storeAccess i = some (a, n))
    (hw : s.CanWrite a n) :
    Effect s i (State.advance { s with mem := Memory.storeBytes s.mem a n v })
  /-- `push` (46 R200 to R202). -/
  | push (i : Instr) (l : List Reg) (hi : pushList i = some l) (hsp : writesSp i = true)
    (hw : ∀ a ∈ slots (s.pushBase l.length) l.length, s.CanWrite a 4) :
    Effect s i (State.setReg
      { s with mem := Memory.storeWords s.mem (s.pushBase l.length) (l.map s.reg) }
      Reg.sp (s.pushBase l.length)).advance
  /-- `pop` (46 R203). -/
  | pop (i : Instr) (rlist : BitVec 8) (vs : List Word) (v : Word) (hsp : writesSp i = true) :
    Effect s i ((s.setRegs (loRegList rlist) vs).setReg Reg.sp v).advance
  /-- `pop` with the PC (46 R204). -/
  | popPc (i : Instr) (rlist : BitVec 8) (vs : List Word) (v u : Word) (hsp : writesSp i = true)
    (hpc : writesPc i = true) :
    Effect s i (((s.setRegs (loRegList rlist) vs).setReg Reg.sp v).jump (clearBit0 u))
  /-- A branch taken (47 R212, R213). -/
  | branch (i : Instr) {w : Nat} (imm : BitVec w) (hi : writesPc i = true) :
    Effect s i (s.jump (s.branchTarget (branchOffset imm)))
  /-- `bl` (47 R214). -/
  | branchLink (i : Instr) {w : Nat} (imm : BitVec w) (v : Word) (hlr : writesLr i = true)
    (hpc : writesPc i = true) :
    Effect s i ((s.setReg Reg.lr v).jump (s.branchTarget (branchOffset imm)))

/-- A load that answers writes a low register. -/
theorem effect_of_loadTo {s t : State} {i : Instr} {rd : LoReg} {a : Word} {n : Nat}
    {ext : Word → Word} (h : s.loadTo rd a n ext = .next t) : Effect s i t := by
  obtain ⟨_, rfl⟩ := loadTo_next.mp h
  rw [← withFlags_self (s.setLo rd _)]
  exact .writeLow ..

theorem effect_of_storeFrom {s t : State} {i : Instr} {rd : LoReg} {a : Word} {n : Nat}
    (hi : s.storeAccess i = some (a, n)) (h : s.storeFrom rd a n = .next t) : Effect s i t := by
  obtain ⟨hw, rfl⟩ := storeFrom_next.mp h
  exact .store i a n _ hi hw

theorem effect_of_pushRegs {s t : State} {i : Instr} {l : List Reg} (hi : pushList i = some l)
    (hsp : writesSp i = true) (h : s.pushRegs l = .next t) : Effect s i t := by
  obtain ⟨hw, rfl⟩ := pushRegs_next.mp h
  exact .push i l hi hsp hw

/-- A low register written with flags kept. -/
theorem effect_of_setLo {s t : State} {i : Instr} {rd : LoReg} {v : Word}
    (h : (.next (s.setLo rd v).advance : Result) = .next t) : Effect s i t := by
  cases h
  rw [← withFlags_self (s.setLo rd v)]
  exact .writeLow ..

theorem effect_of_movHi {s t : State} {rd rm : Reg} (h : execMovHi rd rm s = .next t) :
    Effect s (.movHi rd rm) t := by
  unfold execMovHi at h
  dsimp only at h
  split at h <;> cases h
  · next hrd => exact .jumpHigh _ _ (by simp [writesPc, hrd])
  · next hrd => exact .writeHigh _ rd rm _ (.inl rfl) hrd

theorem effect_of_addHi {s t : State} {rd rm : Reg} (h : execAddHi rd rm s = .next t) :
    Effect s (.addHi rd rm) t := by
  unfold execAddHi at h
  split at h
  · simp at h
  · dsimp only at h
    split at h <;> cases h
    · next hrd => exact .jumpHigh _ _ (by simp [writesPc, hrd])
    · next hrd => exact .writeHigh _ rd rm _ (.inr rfl) hrd

theorem effect_of_cmpHi {s t : State} {rn rm : Reg} (h : execCmpHi rn rm s = .next t) :
    Effect s (.cmpHi rn rm) t := by
  unfold execCmpHi at h
  split at h
  · simp at h
  · cases h
    exact .writeFlags ..

theorem effect_of_push {s t : State} {rlist : BitVec 8} (h : execPush rlist s = .next t) :
    Effect s (.push rlist) t := by
  unfold execPush at h
  split at h
  · simp at h
  · exact effect_of_pushRegs rfl rfl h

theorem effect_of_bCond {s t : State} {c : Cond} {imm8 : BitVec 8}
    (h : execBCond c imm8 s = .next t) : Effect s (.bCond c imm8) t := by
  unfold execBCond at h
  split at h <;> cases h
  · exact .branch _ imm8 rfl
  · exact .writeFlags _ s.flags

/-- Every next state that an instruction can answer has one of the shapes of `Effect`. -/
theorem exec_effect {i : Instr} {s t : State} (h : exec i s = .next t) : Effect s i t := by
  cases i with
  | movLo | movImm | mul | andReg | bicReg | orrReg | eorReg | mvnReg | lslImm | lsrImm | asrImm
  | lslReg | lsrReg | asrReg | rorReg | addLo | subLo | addImm3 | subImm3 | addImm8 | subImm8
  | neg =>
    cases h
    exact .writeLow ..
  | addRdSp | sxth | sxtb | uxth | uxtb => exact effect_of_setLo h
  | cmpLo | cmpImm | cmn | tst =>
    cases h
    exact .writeFlags ..
  | ldrPc | ldrSp | ldrImm | ldrReg | ldrhImm | ldrhReg | ldrshReg | ldrbImm | ldrbReg
  | ldrsbReg => exact effect_of_loadTo h
  | strSp | strImm | strReg | strhImm | strhReg | strbImm | strbReg =>
    exact effect_of_storeFrom rfl h
  | movHi => exact effect_of_movHi h
  | addHi => exact effect_of_addHi h
  | cmpHi => exact effect_of_cmpHi h
  | addSp | subSp =>
    cases h
    exact .adjustSp _ _ rfl
  | push => exact effect_of_push h
  | pushLr => exact effect_of_pushRegs rfl rfl h
  | pop rlist =>
    obtain ⟨_, _, rfl⟩ := execPop_next.mp h
    exact .pop _ rlist _ _ rfl
  | popPc rlist =>
    obtain ⟨_, _, rfl⟩ := execPopPc_next.mp h
    exact .popPc _ rlist _ _ _ rfl rfl
  | bCond => exact effect_of_bCond h
  | b imm11 =>
    cases h
    exact .branch _ imm11 rfl
  | bl immhi immlo =>
    cases h
    exact .branchLink _ (immhi ++ immlo) _ rfl rfl

/-- A step that answers executed the instruction it fetched. -/
theorem exec_of_step {s t : State} (h : step s = .next t) : ∃ i, exec i s = .next t := by
  unfold step at h
  split at h
  · simp at h
  · exact ⟨_, h⟩

/-! ### The invariant -/

theorem Effect.pc_even {s t : State} {i : Instr} (h : Effect s i t) (hs : s.pc.toNat % 2 = 0) :
    t.pc.toNat % 2 = 0 := by
  have hnext : (s.pc + 2#32).toNat % 2 = 0 := toNat_add_even hs (by decide)
  cases h with
  | writeLow | writeFlags | writeHigh | adjustSp | store | push | pop => simpa using hnext
  | jumpHigh | popPc => exact clearBit0_even _
  | branch imm | branchLink imm => exact branchTarget_even hs imm

theorem Effect.mem_wf {s t : State} {i : Instr} (h : Effect s i t) (hs : Memory.wf s.mem) :
    Memory.wf t.mem := by
  cases h with
  | store => exact wf_storeBytes hs _ _ _
  | push => simpa only [advance_mem, setReg_mem] using wf_storeWords hs _ _
  | writeLow | writeFlags | writeHigh | jumpHigh | adjustSp | pop | popPc | branch | branchLink =>
    simpa using hs

/-- Every instruction keeps the invariant. -/
theorem exec_keeps_inv {i : Instr} {s t : State} (hs : s.Inv) (h : exec i s = .next t) : t.Inv :=
  ⟨(exec_effect h).pc_even hs.pcEven, (exec_effect h).mem_wf hs.memWf⟩

/-- Settles O7: a step executes one instruction, and every shape of `Effect` keeps both parts. -/
theorem stepKeepsInvariant : Obligations.StepKeepsInvariant := by
  unfold Obligations.StepKeepsInvariant
  intro s t hs h
  obtain ⟨i, hi⟩ := exec_of_step h
  exact exec_keeps_inv hs hi

/-- Settles O8: `ENTRY` is even, and a memory with no byte listed is canonical. -/
theorem resetHasInvariant : Obligations.ResetHasInvariant := by
  unfold Obligations.ResetHasInvariant
  exact { pcEven := by decide, memWf := ⟨List.Pairwise.nil, by simp [State.reset, State.launch]⟩ }

/-! ### The high registers -/

/-- The instruction is one of the forms that can change the high register (10_state R21). -/
def NamesHigh (i : Instr) (r : Reg) : Prop :=
  (r = Reg.sp ∧ writesSp i = true) ∨ (r = Reg.lr ∧ writesLr i = true) ∨
    ∃ q, i = .movHi r q ∨ i = .addHi r q

/-- A register list names no high register. -/
theorem notMem_loRegList {r : Reg} (h : 8 ≤ r.toNat) (rlist : BitVec 8) : r ∉ loRegList rlist :=
  fun hm => absurd (loRegList_low hm) (by omega)

theorem ne_loReg {r : Reg} (h : 8 ≤ r.toNat) (rd : LoReg) : r ≠ rd.reg := by
  rintro rfl
  exact absurd (LoReg.reg_lt rd) (by omega)

/-- A high register keeps its value under every form that cannot name it. -/
theorem Effect.reg_high {s t : State} {i : Instr} (h : Effect s i t) {r : Reg}
    (hhigh : 8 ≤ r.toNat) (hpc : r ≠ Reg.pc) (hr : ¬ NamesHigh i r) : t.reg r = s.reg r := by
  have hsp : writesSp i = true → r ≠ Reg.sp := fun hi e => hr (.inl ⟨e, hi⟩)
  have hlr : writesLr i = true → r ≠ Reg.lr := fun hi e => hr (.inr (.inl ⟨e, hi⟩))
  cases h with
  | writeLow rd v f =>
    rw [reg_advance _ hpc, reg_withFlags, reg_setLo_other _ _ (ne_loReg hhigh rd)]
  | writeFlags f => rw [reg_advance _ hpc, reg_withFlags]
  | writeHigh rd rm v hi _ =>
    have hne : r ≠ rd := by
      rintro rfl
      exact hr (.inr (.inr ⟨rm, hi⟩))
    rw [reg_advance _ hpc, reg_setReg_other _ _ hne]
  | jumpHigh | branch => exact reg_jump _ _ hpc
  | adjustSp v hi => rw [reg_advance _ hpc, reg_setReg_other _ _ (hsp hi)]
  | store => rw [reg_advance _ hpc, reg_withMem]
  | push l _ hi _ => rw [reg_advance _ hpc, reg_setReg_other _ _ (hsp hi), reg_withMem]
  | pop rlist vs v hi =>
    rw [reg_advance _ hpc, reg_setReg_other _ _ (hsp hi),
      reg_setRegs_other _ _ (notMem_loRegList hhigh rlist)]
  | popPc rlist vs v u hi =>
    rw [reg_jump _ _ hpc, reg_setReg_other _ _ (hsp hi),
      reg_setRegs_other _ _ (notMem_loRegList hhigh rlist)]
  | branchLink imm v hi => rw [reg_jump _ _ hpc, reg_setReg_other _ _ (hlr hi)]

theorem not_namesHigh_sp {i : Instr} (h : writesSp i = false) : ¬ NamesHigh i Reg.sp := by
  rintro (⟨_, hi⟩ | ⟨e, _⟩ | ⟨q, rfl | rfl⟩)
  · exact absurd (h.symm.trans hi) (by decide)
  · exact absurd e (by decide)
  · simp [writesSp] at h
  · simp [writesSp] at h

theorem not_namesHigh_lr {i : Instr} (h : writesLr i = false) : ¬ NamesHigh i Reg.lr := by
  rintro (⟨e, _⟩ | ⟨_, hi⟩ | ⟨q, rfl | rfl⟩)
  · exact absurd e (by decide)
  · exact absurd (h.symm.trans hi) (by decide)
  · simp [writesLr] at h
  · simp [writesLr] at h

/-- Between `r8` and `r12` only the `mov` and `add` forms name a register. -/
theorem not_namesHigh_mid {i : Instr} {r : Reg} (hr : r.toNat ≤ 12)
    (h : ∀ q, i ≠ .movHi r q ∧ i ≠ .addHi r q) : ¬ NamesHigh i r := by
  rintro (⟨rfl, _⟩ | ⟨rfl, _⟩ | ⟨q, hi | hi⟩)
  · exact absurd hr (by decide)
  · exact absurd hr (by decide)
  · exact (h q).1 hi
  · exact (h q).2 hi

/-- Settles O15: a register above `r7` changes only by a form that names it. -/
theorem highRegisterWritersComplete : Obligations.HighRegisterWritersComplete := by
  unfold Obligations.HighRegisterWritersComplete
  intro i s t h
  have heff := exec_effect h
  refine ⟨fun hi => ?_, fun hi => ?_, fun r hlow hhigh hi => ?_⟩
  · exact heff.reg_high (by decide) (by decide) (not_namesHigh_sp hi)
  · exact heff.reg_high (by decide) (by decide) (not_namesHigh_lr hi)
  · have hpc : r ≠ Reg.pc := by
      rintro rfl
      exact absurd hhigh (by decide)
    exact heff.reg_high hlow hpc (not_namesHigh_mid hhigh hi)

end Sys2Proof.Proofs
end

section
/-! PROOF. The flags an instruction reads and writes (10_state R29, R30): run under other flags, it
answers what it answered, each flag that it writes with the same value and each that it keeps as given.
Then the values at reset (70 R260 to R262). -/

namespace Sys2Proof.Proofs

open Sys2Proof Sys2Proof.Machine

/-! ### A result changed in its next state -/

/-- The result with its next state changed, a stop as it is. -/
def mapNext (g : State → State) : Result → Result
  | .next t => .next (g t)
  | .fault r => .fault r
  | .refused r => .refused r

@[simp] theorem mapNext_next (g : State → State) (t : State) :
    mapNext g (.next t) = .next (g t) := rfl

@[simp] theorem mapNext_take (g : State → State) (e : Stop) : mapNext g e.take = e.take := by
  cases e <;> rfl

/-- The next state under other flags: those written stay, those kept are the given ones. -/
def reflag (s : State) (i : Instr) (f : Flags) (t : State) : State :=
  withFlags t (s.flagsAfter i t.flags f)

/-- The instruction does under the flags `f` what it does in `s`. -/
def ReadsNoFlag (i : Instr) (s : State) (f : Flags) : Prop :=
  exec i (withFlags s f) = mapNext (reflag s i f) (exec i s)

/-! ### The flags after an instruction, by its column of 10_state R29 -/

section
variable {s : State} {i : Instr} (written kept : Flags)

theorem flagsAfter_none (hc : flagColumn i = ⟨false, false, false, false⟩) :
    s.flagsAfter i written kept = kept := by
  simp [State.flagsAfter, hc]

theorem flagsAfter_nz (hc : flagColumn i = ⟨true, true, false, false⟩) :
    s.flagsAfter i written kept = ⟨written.n, written.z, kept.c, kept.v⟩ := by
  simp [State.flagsAfter, hc]

theorem flagsAfter_nzc {n : Nat} (hc : flagColumn i = ⟨true, true, true, false⟩)
    (hn : s.shiftBy i = some n) :
    s.flagsAfter i written kept =
      ⟨written.n, written.z, if n = 0 then kept.c else written.c, kept.v⟩ := by
  by_cases h0 : n = 0 <;> simp [State.flagsAfter, hc, hn, h0]

theorem flagsAfter_nzcv (hc : flagColumn i = ⟨true, true, true, true⟩)
    (hn : s.shiftBy i = none) : s.flagsAfter i written kept = written := by
  simp [State.flagsAfter, hc, hn]

end

/-! ### The writing tails under other flags -/

theorem writeAdd_withFlags (s : State) (f : Flags) (rd : LoReg) (a : AddResult) :
    (withFlags s f).writeAdd rd a = s.writeAdd rd a := by
  rw [State.writeAdd, setLo_withFlags]
  rfl

theorem writeLogic_withFlags (s : State) (f : Flags) (rd : LoReg) (r : Word) :
    (withFlags s f).writeLogic rd r =
      withFlags (s.writeLogic rd r) ⟨r.getLsbD 31, r == 0#32, f.c, f.v⟩ := by
  rw [State.writeLogic, setLo_withFlags]
  rfl

theorem writeShift_withFlags (s : State) (f : Flags) (rd : LoReg) (r : ShiftResult) :
    (withFlags s f).writeShift rd r =
      withFlags (s.writeShift rd r)
        ⟨r.result.getLsbD 31, r.result == 0#32, r.carry.getD f.c, f.v⟩ := by
  rw [State.writeShift, setLo_withFlags]
  rfl

/-- A shift leaves the carry unchanged exactly where its amount is 0 (44 R150). -/
theorem shiftC_carry_getD (kind : ShiftKind) (v : Word) (n : Nat) (old new : Bool) :
    (shiftC kind v n).carry.getD new =
      if n = 0 then new else (shiftC kind v n).carry.getD old := by
  by_cases h0 : n = 0
  · simp [shiftC, h0]
  · cases kind <;> simp only [shiftC, h0, if_false] <;> split_ifs <;> rfl

/-- A register written, with no other change but the PC's. -/
theorem nextSetReg_withFlags (s : State) (f : Flags) (r : Reg) (v : Word) :
    (.next ((withFlags s f).setReg r v).advance : Result) =
      mapNext (withFlags · f) (.next (s.setReg r v).advance) := by
  rw [setReg_withFlags]
  rfl

theorem loadTo_withFlags (s : State) (f : Flags) (rd : LoReg) (a : Word) (n : Nat)
    (ext : Word → Word) :
    (withFlags s f).loadTo rd a n ext = mapNext (withFlags · f) (s.loadTo rd a n ext) := by
  have hread : (withFlags s f).memRead a n = s.memRead a n := rfl
  unfold State.loadTo
  rw [hread]
  cases s.memRead a n with
  | error e => simp
  | ok v => exact nextSetReg_withFlags ..

theorem storeFrom_withFlags (s : State) (f : Flags) (rd : LoReg) (a : Word) (n : Nat) :
    (withFlags s f).storeFrom rd a n = mapNext (withFlags · f) (s.storeFrom rd a n) := by
  have hcheck : (withFlags s f).checkWrite a n = s.checkWrite a n := rfl
  unfold State.storeFrom State.memWrite
  rw [hcheck]
  cases s.checkWrite a n with
  | error e => simp
  | ok _ => rfl

theorem pushRegs_withFlags (s : State) (f : Flags) (l : List Reg) :
    (withFlags s f).pushRegs l = mapNext (withFlags · f) (s.pushRegs l) := by
  have hcheck : checkAll (fun a => (withFlags s f).checkWrite a 4) =
      checkAll (fun a => s.checkWrite a 4) := rfl
  have hbase : (withFlags s f).pushBase = s.pushBase := rfl
  have hregs : l.map (withFlags s f).reg = l.map s.reg := rfl
  simp only [State.pushRegs, hcheck, hbase, hregs]
  split
  · simp
  · exact nextSetReg_withFlags { s with mem := _ } f _ _

/-! ### The forms with a path of their own under other flags -/

theorem execPush_withFlags (s : State) (f : Flags) (rlist : BitVec 8) :
    execPush rlist (withFlags s f) = mapNext (withFlags · f) (execPush rlist s) := by
  unfold execPush
  split
  · simp
  · exact pushRegs_withFlags ..

theorem execPop_withFlags (s : State) (f : Flags) (rlist : BitVec 8) :
    execPop rlist (withFlags s f) = mapNext (withFlags · f) (execPop rlist s) := by
  have hcheck : checkAll (fun a => (withFlags s f).checkRead a 4) =
      checkAll (fun a => s.checkRead a 4) := rfl
  have hend : (withFlags s f).popEnd = s.popEnd := rfl
  simp only [execPop, hcheck, hend, reg_withFlags, withFlags_mem, setRegs_withFlags,
    setReg_withFlags]
  split
  · simp
  · split
    · simp
    · rfl

theorem execPopPc_withFlags (s : State) (f : Flags) (rlist : BitVec 8) :
    execPopPc rlist (withFlags s f) = mapNext (withFlags · f) (execPopPc rlist s) := by
  have hcheck : checkAll (fun a => (withFlags s f).checkRead a 4) =
      checkAll (fun a => s.checkRead a 4) := rfl
  have hend : (withFlags s f).popEnd = s.popEnd := rfl
  have hbit : (withFlags s f).platform = s.platform := rfl
  simp only [execPopPc, hcheck, hend, hbit, reg_withFlags, withFlags_mem, setRegs_withFlags,
    setReg_withFlags]
  split
  · simp
  · split
    · simp
    · rfl

theorem execMovHi_withFlags (s : State) (f : Flags) (rd rm : Reg) :
    execMovHi rd rm (withFlags s f) = mapNext (withFlags · f) (execMovHi rd rm s) := by
  simp only [execMovHi, reg_withFlags, setReg_withFlags]
  split <;> rfl

theorem execAddHi_withFlags (s : State) (f : Flags) (rd rm : Reg) :
    execAddHi rd rm (withFlags s f) = mapNext (withFlags · f) (execAddHi rd rm s) := by
  simp only [execAddHi, reg_withFlags, setReg_withFlags]
  split
  · simp
  · split <;> rfl

theorem execBl_withFlags (s : State) (f : Flags) (immhi immlo : BitVec 11) :
    execBl immhi immlo (withFlags s f) = mapNext (withFlags · f) (execBl immhi immlo s) := by
  rw [execBl, setReg_withFlags]
  rfl

/-- A `b{cond}` reads the flags through its condition alone (47 R212). -/
theorem execBCond_withFlags {s : State} {f : Flags} {c : Cond} (imm8 : BitVec 8)
    (hc : conditionPassed f c = conditionPassed s.flags c) :
    execBCond c imm8 (withFlags s f) = mapNext (withFlags · f) (execBCond c imm8 s) := by
  rw [execBCond, withFlags_flags, hc, execBCond]
  split <;> rfl

/-! ### No form but `b{cond}` reads a flag -/

section
variable {i : Instr} {s : State} {f : Flags}

theorem readsNoFlag_of_unlisted (hc : flagColumn i = ⟨false, false, false, false⟩)
    (h : exec i (withFlags s f) = mapNext (withFlags · f) (exec i s)) : ReadsNoFlag i s f := by
  have hg : reflag s i f = (withFlags · f) := by
    funext t
    rw [reflag, flagsAfter_none _ _ hc]
  rw [ReadsNoFlag, hg, h]

theorem readsNoFlag_of_writeAdd {rd : LoReg} {a : AddResult}
    (hc : flagColumn i = ⟨true, true, true, true⟩) (hn : s.shiftBy i = none)
    (h : exec i s = .next (s.writeAdd rd a))
    (hf : exec i (withFlags s f) = .next ((withFlags s f).writeAdd rd a)) : ReadsNoFlag i s f := by
  rw [ReadsNoFlag, hf, h, mapNext_next, reflag, flagsAfter_nzcv _ _ hc hn, writeAdd_withFlags,
    withFlags_self]

theorem readsNoFlag_of_compare {a : AddResult} (hc : flagColumn i = ⟨true, true, true, true⟩)
    (hn : s.shiftBy i = none) (h : exec i s = .next (s.setNZCV a).advance)
    (hf : exec i (withFlags s f) = .next ((withFlags s f).setNZCV a).advance) :
    ReadsNoFlag i s f := by
  rw [ReadsNoFlag, hf, h, mapNext_next, reflag, flagsAfter_nzcv _ _ hc hn]
  rfl

theorem readsNoFlag_of_writeLogic {rd : LoReg} {r : Word}
    (hc : flagColumn i = ⟨true, true, false, false⟩) (h : exec i s = .next (s.writeLogic rd r))
    (hf : exec i (withFlags s f) = .next ((withFlags s f).writeLogic rd r)) :
    ReadsNoFlag i s f := by
  rw [ReadsNoFlag, hf, h, mapNext_next, reflag, flagsAfter_nz _ _ hc, writeLogic_withFlags,
    writeLogic_flags]

theorem readsNoFlag_of_test {r : Word} (hc : flagColumn i = ⟨true, true, false, false⟩)
    (h : exec i s = .next (s.setNZ r).advance)
    (hf : exec i (withFlags s f) = .next ((withFlags s f).setNZ r).advance) :
    ReadsNoFlag i s f := by
  rw [ReadsNoFlag, hf, h, mapNext_next, reflag, flagsAfter_nz _ _ hc]
  rfl

theorem readsNoFlag_of_writeShift {rd : LoReg} {kind : ShiftKind} {v : Word} {n : Nat}
    (hc : flagColumn i = ⟨true, true, true, false⟩) (hn : s.shiftBy i = some n)
    (h : exec i s = .next (s.writeShift rd (shiftC kind v n)))
    (hf : exec i (withFlags s f) = .next ((withFlags s f).writeShift rd (shiftC kind v n))) :
    ReadsNoFlag i s f := by
  rw [ReadsNoFlag, hf, h, mapNext_next, reflag, flagsAfter_nzc _ _ hc hn, writeShift_withFlags,
    writeShift_flags, shiftC_carry_getD kind v n s.flags.c f.c]

end

theorem readsNoFlag_cmpHi (s : State) (f : Flags) (rn rm : Reg) :
    ReadsNoFlag (.cmpHi rn rm) s f := by
  by_cases hpc : rn = Reg.pc ∨ rm = Reg.pc
  · have hstop : ∀ u, exec (.cmpHi rn rm) u = (Stop.refuse (.unpredictable .cmpWithPc)).take :=
      fun u => if_pos hpc
    rw [ReadsNoFlag, hstop, hstop, mapNext_take]
  · exact readsNoFlag_of_compare rfl rfl (if_neg hpc) (if_neg hpc)

/-- Every form but `b{cond}` does the same under other flags (10_state R30). -/
theorem exec_readsNoFlag {i : Instr} (hi : ∀ c imm8, i ≠ .bCond c imm8) (s : State) (f : Flags) :
    ReadsNoFlag i s f := by
  cases i with
  | addLo | subLo | addImm3 | subImm3 | addImm8 | subImm8 | neg =>
    exact readsNoFlag_of_writeAdd rfl rfl rfl rfl
  | cmpLo | cmpImm | cmn => exact readsNoFlag_of_compare rfl rfl rfl rfl
  | cmpHi rn rm => exact readsNoFlag_cmpHi s f rn rm
  | movLo | movImm | mul | andReg | bicReg | orrReg | eorReg | mvnReg =>
    exact readsNoFlag_of_writeLogic rfl rfl rfl
  | tst => exact readsNoFlag_of_test rfl rfl rfl
  | lslImm | lsrImm | asrImm | lslReg | lsrReg | asrReg | rorReg =>
    exact readsNoFlag_of_writeShift rfl rfl rfl rfl
  | addRdSp | addSp | subSp | sxth | sxtb | uxth | uxtb =>
    exact readsNoFlag_of_unlisted rfl (nextSetReg_withFlags ..)
  | ldrPc | ldrSp | ldrImm | ldrReg | ldrhImm | ldrhReg | ldrshReg | ldrbImm | ldrbReg
  | ldrsbReg => exact readsNoFlag_of_unlisted rfl (loadTo_withFlags ..)
  | strSp | strImm | strReg | strhImm | strhReg | strbImm | strbReg =>
    exact readsNoFlag_of_unlisted rfl (storeFrom_withFlags ..)
  | movHi => exact readsNoFlag_of_unlisted rfl (execMovHi_withFlags ..)
  | addHi => exact readsNoFlag_of_unlisted rfl (execAddHi_withFlags ..)
  | push => exact readsNoFlag_of_unlisted rfl (execPush_withFlags ..)
  | pushLr => exact readsNoFlag_of_unlisted rfl (pushRegs_withFlags ..)
  | pop => exact readsNoFlag_of_unlisted rfl (execPop_withFlags ..)
  | popPc => exact readsNoFlag_of_unlisted rfl (execPopPc_withFlags ..)
  | b => exact readsNoFlag_of_unlisted rfl rfl
  | bl => exact readsNoFlag_of_unlisted rfl (execBl_withFlags ..)
  | bCond c imm8 => exact absurd rfl (hi c imm8)

/-- Settles O14: no form but `b{cond}` reads a flag, and `b{cond}` reads them through its condition. -/
theorem onlyCondBranchReadsFlags : Obligations.OnlyCondBranchReadsFlags := by
  unfold Obligations.OnlyCondBranchReadsFlags
  refine ⟨fun i s f hi => ?_, fun c imm8 s t f hc h => ?_⟩
  · have hsame : exec i (withFlags s f) = mapNext (reflag s i f) (exec i s) :=
      exec_readsNoFlag hi s f
    refine ⟨fun t h => ?_, fun r h => ?_, fun r h => ?_⟩ <;> rw [h] at hsame <;> exact hsame
  · have hsame := execBCond_withFlags imm8 hc
    have hnext : execBCond c imm8 s = .next t := h
    rw [hnext] at hsame
    exact hsame

/-! ### The flags that an instruction keeps -/

/-- A `b{cond}` keeps every flag (47 R215). -/
theorem execBCond_flags {s t : State} {c : Cond} {imm8 : BitVec 8}
    (h : execBCond c imm8 s = .next t) : t.flags = s.flags := by
  unfold execBCond at h
  split at h <;> cases h <;> rfl

/-- The flags of the next state: those in the form's row from it, the rest as they were. Running under
the flags that the state has anyway changes nothing, so noninterference says it. -/
theorem flags_eq_flagsAfter {i : Instr} {s t : State} (h : exec i s = .next t) :
    t.flags = s.flagsAfter i t.flags s.flags := by
  by_cases hi : ∃ c imm8, i = .bCond c imm8
  · obtain ⟨c, imm8, rfl⟩ := hi
    rw [flagsAfter_none _ _ rfl]
    exact execBCond_flags h
  · have hsame := exec_readsNoFlag (fun c imm8 e => hi ⟨c, imm8, e⟩) s s.flags
    rw [ReadsNoFlag, withFlags_self, h, mapNext_next] at hsame
    exact congrArg State.flags (Host.Outcome.next.inj hsame)

/-- Settles O13: a flag outside the row, or C after a shift by 0, is the one that `flagsAfter` keeps. -/
theorem flagWritersComplete : Obligations.FlagWritersComplete := by
  unfold Obligations.FlagWritersComplete
  intro i s t h
  have hflags := flags_eq_flagsAfter h
  refine ⟨fun hn => ?_, fun hz => ?_, fun hc => ?_, fun hv => ?_, fun h0 => ?_⟩ <;> rw [hflags]
  · simp [State.flagsAfter, hn]
  · simp [State.flagsAfter, hz]
  · simp [State.flagsAfter, hc]
  · simp [State.flagsAfter, hv]
  · simp [State.flagsAfter, h0]

/-! ### The values at reset -/

/-- At a launch SP is `INITIAL_SP` (70 R261). -/
theorem reg_launch_sp (p : Platform) (regs : Vector Word 15) (flags : Flags) (mem : Memory) :
    (State.launch p regs flags mem).reg Reg.sp = p.initialSp := by
  simp [State.reg, State.launch]

/-- At a launch a register other than SP and the PC has the value given (70 R262). -/
theorem reg_launch_other (p : Platform) (regs : Vector Word 15) (flags : Flags) (mem : Memory)
    {r : Reg} (hpc : r ≠ Reg.pc) (hsp : r ≠ Reg.sp) :
    (State.launch p regs flags mem).reg r = regs[r.toNat]'(Reg.toNat_lt_of_ne_pc hpc) := by
  have hlt := Reg.toNat_lt_of_ne_pc hpc
  have hne : 13 ≠ r.toNat := fun e => hsp (BitVec.eq_of_toNat_eq e.symm)
  simp [State.reg, State.launch, hlt, hne]

/-- The reset platform maps every address. -/
theorem isMapped_reset (a : Word) : State.reset.isMapped a = true := by
  have hlt : a.toNat < 0x100000000 := a.isLt
  simp [State.isMapped, State.reset, State.launch, Config.resetPlatform, Region.contains, hlt]

/-- The reset platform has `TEXT` from 0x100 to 0x10FF. -/
theorem isText_reset (a : Word) :
    State.reset.isText a = (decide (0x100 ≤ a.toNat) && decide (a.toNat < 0x1100)) := by
  simp [State.isText, State.reset, State.launch, Config.resetPlatform, Region.contains]

/-- The 256 bytes below `INITIAL_SP` lie above `TEXT`. -/
theorem isText_reset_stack {i : Nat} (h : i ≤ 256) :
    State.reset.isText (State.reset.platform.initialSp - BitVec.ofNat 32 i) = false := by
  have hge : 0x1100 ≤ (0x3000#32 - BitVec.ofNat 32 i).toNat := by
    rw [BitVec.toNat_sub, BitVec.toNat_ofNat, BitVec.toNat_ofNat]
    omega
  have hsp : State.reset.platform.initialSp = 0x3000#32 := rfl
  rw [hsp, isText_reset]
  exact Bool.and_eq_false_iff.mpr (.inr (decide_eq_false (by omega)))

/-- Settles O49: SP and `ENTRY` are the platform's, the other registers the launch value. -/
theorem resetValuesChosen : Obligations.ResetValuesChosen := by
  unfold Obligations.ResetValuesChosen
  refine ⟨rfl, reg_launch_sp .., fun r hpc hsp => ?_, rfl, rfl, ?_⟩
  · rw [State.reset, reg_launch_other _ _ _ _ hpc hsp, Vector.getElem_replicate]
    rfl
  · exact {
      entryEven := by decide
      entryText := by decide
      spAligned := by decide
      stackMapped := fun _ _ _ => isMapped_reset _
      stackNotText := fun _ _ hi => isText_reset_stack hi
      haltEven := by decide }

end Sys2Proof.Proofs
end

section
/-! PROOF. Memory (spec/20_memory.md): which bytes an instruction can change, from the shapes of
`Effect`; that a run of any length keeps `TEXT`; and that a load reads back the store before it. -/

namespace Sys2Proof.Proofs

open Sys2Proof Sys2Proof.Machine

/-! ### The configuration -/

@[simp] theorem withFlags_platform (s : State) (f : Flags) :
    (withFlags s f).platform = s.platform := rfl

/-- No shape of `Effect` touches the configuration (log 4). -/
theorem Effect.platform_eq {s t : State} {i : Instr} (h : Effect s i t) :
    t.platform = s.platform := by
  cases h <;> simp

/-- Where `TEXT` lies is configuration. -/
theorem isText_congr {s t : State} (h : t.platform = s.platform) (a : Word) :
    t.isText a = s.isText a := by simp only [State.isText, h]

/-! ### The bytes an instruction can change -/

/-- A byte of a datum that may be written is in `MAPPED` and outside `TEXT` (20_memory R46, R53). -/
theorem mapped_notText_of_canWrite {s : State} {b a : Word} {n : Nat} (hw : s.CanWrite b n)
    (ha : a ∈ footprint b n) : s.isMapped a = true ∧ s.isText a = false := by
  obtain ⟨⟨_, hmapped⟩, htext⟩ := hw
  obtain ⟨i, hi, rfl⟩ := mem_footprint.mp ha
  exact ⟨hmapped i hi, htext i hi⟩

/-- Memory is written by the shapes `store` and `push` alone. -/
theorem Effect.mem_eq {s t : State} {i : Instr} (h : Effect s i t)
    (hstore : s.storeAccess i = none) (hpush : pushList i = none) : t.mem = s.mem := by
  cases h with
  | store a n v hi => simp [hstore] at hi
  | push l hi => simp [hpush] at hi
  | writeLow | writeFlags | writeHigh | jumpHigh | adjustSp | pop | popPc | branch | branchLink =>
    simp

/-- A byte that an instruction changes lies in a footprint that passed the checks of a write. -/
theorem Effect.changed_canWrite {s t : State} {i : Instr} (h : Effect s i t) {a : Word}
    (ha : t.byte a ≠ s.byte a) : ∃ b n, s.CanWrite b n ∧ a ∈ footprint b n := by
  cases h with
  | store b n v _ hw =>
    refine ⟨b, n, hw, ?_⟩
    by_contra hout
    exact ha (read_storeBytes_other s.mem b n v hout)
  | push l _ _ hw =>
    by_contra hout
    have hslots : ∀ b ∈ slots (s.pushBase l.length) (l.map s.reg).length, a ∉ footprint b 4 := by
      rw [List.length_map]
      exact fun b hb hab => hout ⟨b, 4, hw b hb, hab⟩
    refine ha ?_
    rw [State.byte, advance_mem, setReg_mem, read_storeWords_other _ _ _ hslots, State.byte]
  | writeLow | writeFlags | writeHigh | jumpHigh | adjustSp | pop | popPc | branch | branchLink =>
    exact absurd (byte_congr (by simp) a) ha

/-- Settles O11: without a store access and without a push list, no shape writes memory. -/
theorem onlyStoresChangeMemory : Obligations.OnlyStoresChangeMemory := by
  unfold Obligations.OnlyStoresChangeMemory
  intro i s t h hstore hpush
  exact byte_congr ((exec_effect h).mem_eq hstore hpush)

/-- Settles O10: the byte lies in a footprint that passed the checks of a write. -/
theorem stepWritesOnlyMappedData : Obligations.StepWritesOnlyMappedData := by
  unfold Obligations.StepWritesOnlyMappedData
  intro s t a h ha
  obtain ⟨i, hi⟩ := exec_of_step h
  obtain ⟨b, n, hw, hab⟩ := (exec_effect hi).changed_canWrite ha
  exact mapped_notText_of_canWrite hw hab

/-! ### Runs -/

/-- One state is next after another. -/
def StepsTo (s t : State) : Prop := step s = .next t

/-- A state that a run ends in, or has come to, is reached by steps (70 R263): what every step keeps,
every run keeps. -/
theorem reaches_of_run {k : Nat} {s t : State} (h : run k s = .final t ∨ run k s = .running t) :
    Relation.ReflTransGen StepsTo s t := by
  induction k generalizing s with
  | zero =>
    obtain rfl : s = t := by
      unfold run at h
      split at h <;> simpa using h
    exact .refl
  | succ k ih =>
    unfold run at h
    split at h
    · obtain rfl : s = t := by simpa using h
      exact .refl
    · split at h
      · next u hu => exact .head hu (ih h)
      · simp at h
      · simp at h

/-- The program text of one state is that of the other: the same configuration, and the same byte at
every address of `TEXT` (20_memory R53). -/
structure TextKept (s t : State) : Prop where
  config : t.platform = s.platform
  bytes : ∀ a, s.isText a = true → t.byte a = s.byte a

theorem TextKept.refl (s : State) : TextKept s s := ⟨rfl, fun _ _ => rfl⟩

/-- `TEXT` is where it was after the first part, so the second part keeps the same bytes. -/
theorem TextKept.trans {s t u : State} (hst : TextKept s t) (htu : TextKept t u) : TextKept s u where
  config := htu.config.trans hst.config
  bytes a ha :=
    have htext : t.isText a = true := (isText_congr hst.config a).trans ha
    (htu.bytes a htext).trans (hst.bytes a ha)

/-- A step keeps the program text, for a byte that it changes is none of `TEXT`. -/
theorem textKept_of_step {s t : State} (h : StepsTo s t) : TextKept s t where
  config :=
    have ⟨_, hi⟩ := exec_of_step h
    (exec_effect hi).platform_eq
  bytes a ha := by
    by_contra hchanged
    obtain ⟨_, htext⟩ := stepWritesOnlyMappedData s t a h hchanged
    exact absurd (ha.symm.trans htext) (by decide)

theorem textKept_of_reaches {s t : State} (h : Relation.ReflTransGen StepsTo s t) :
    TextKept s t := by
  induction h with
  | refl => exact .refl s
  | tail _ hstep ih => exact ih.trans (textKept_of_step hstep)

/-- Settles O9: a run is steps, and each keeps the program text. -/
theorem runNeverChangesText : Obligations.RunNeverChangesText := by
  unfold Obligations.RunNeverChangesText
  intro k s t h
  obtain ⟨hconfig, hbytes⟩ := textKept_of_reaches (reaches_of_run h)
  exact ⟨hconfig, hbytes⟩

/-! ### A load after a store -/

/-- The low byte of a value below the `n` bytes above it makes its low `n + 1` bytes. -/
theorem extract_low_bytes (v : Word) (n : Nat) :
    ((v >>> 8).extractLsb' 0 (8 * n) ++ v.setWidth 8).setWidth 32 =
      ((v.extractLsb' 0 (8 * (n + 1))).setWidth 32 : Word) := by
  ext i hi
  simp only [BitVec.getElem_setWidth, BitVec.getLsbD_append, BitVec.getLsbD_extractLsb',
    BitVec.getLsbD_setWidth, BitVec.getLsbD_ushiftRight]
  by_cases h8 : i < 8
  · have : i < 8 * (n + 1) := by omega
    simp [h8, this]
  · have hbyte : 8 + (i - 8) = i := by omega
    have hiff : i - 8 < 8 * n ↔ i < 8 * (n + 1) := by omega
    simp [h8, hbyte, hiff]

/-- A datum whose byte `i` is byte `i` of a value reads as the low bytes of the value, with zeros above
(20_memory R43). -/
theorem loadBytes_of_read {m : Memory} {a v : Word} {n : Nat}
    (h : ∀ i, i < n → Memory.read m (a + BitVec.ofNat 32 i).toNat = v.extractLsb' (8 * i) 8) :
    Memory.loadBytes m a n = (v.extractLsb' 0 (8 * n)).setWidth 32 := by
  induction n generalizing a v with
  | zero => simp [Memory.loadBytes]
  | succ n ih =>
    have hlow : Memory.read m a.toNat = v.setWidth 8 := by
      simpa [byteAt_zero] using h 0 (by omega)
    have hhigh : Memory.loadBytes m (a + 1#32) n =
        ((v >>> 8).extractLsb' 0 (8 * n)).setWidth 32 :=
      ih fun i hi => by rw [← add_ofNat_succ, byteAt_succ, h (i + 1) (by omega)]
    rw [Memory.loadBytes, hlow, hhigh, or_shift_bytes, extract_low_bytes]

/-- A load of as many bytes as the store before it wrote gives the low bytes of the value (20_memory
R50). -/
theorem memRead_of_memWrite {s t : State} {a v : Word} {n : Nat} (hn : n ≤ 2 ^ 32)
    (h : s.memWrite a n v = .ok t) :
    t.memRead a n = .ok ((v.extractLsb' 0 (8 * n)).setWidth 32) := by
  obtain ⟨hw, rfl⟩ := memWrite_ok.mp h
  have hr : State.CanRead { s with mem := Memory.storeBytes s.mem a n v } a n := hw.1
  exact memRead_ok.mpr
    ⟨hr, (loadBytes_of_read fun i hi => read_storeBytes_at s.mem a n v hi hn).symm⟩

/-- Settles O35: the law of any width at the three widths; 4 bytes are the whole word. -/
theorem loadSeesLatestStore : Obligations.LoadSeesLatestStore := by
  unfold Obligations.LoadSeesLatestStore
  intro s t a v
  refine ⟨fun h => ?_, memRead_of_memWrite (by decide), memRead_of_memWrite (by decide)⟩
  have hword := memRead_of_memWrite (by decide) h
  rwa [BitVec.extractLsb'_eq_self, BitVec.setWidth_eq] at hword

end Sys2Proof.Proofs
end

section
/-! PROOF. The decoder against the encoder and against the opcode table (30_encoding R61 to R79, R92): what
the decoder of halfwords answers, format by format, said once (`Answers`). -/

namespace Sys2Proof.Proofs

open Sys2Proof Sys2Proof.Machine

/-! ### Decode after encode -/

/-- Settles O1: decode inverts encode where the instruction has its own word; the word of `lsl Rd, Rm, #0`
is that of `mov Rd, Rm`. -/
theorem decodeEncodeRoundTrip : Obligations.DecodeEncodeRoundTrip := by
  unfold Obligations.DecodeEncodeRoundTrip
  refine ⟨fun i rest hwf hlsl => decodeBytes_encodeBytes ⟨hwf, hlsl⟩ rest, fun rd rm rest => ?_⟩
  have hsame : encodeBytes (.lslImm rd rm 0#5) = encodeBytes (.movLo rd rm) := rfl
  have hmov : HasOwnWord (.movLo rd rm) := ⟨rfl, nofun⟩
  rw [hsame, decodeBytes_encodeBytes hmov]

/-! ### A halfword from its fields -/

/-- Two fields side by side are one field. -/
theorem slice_join {h : Half} (lo w v : Nat) {x : BitVec v} {y : BitVec w}
    (hx : slice h (lo + w) v = x) (hy : slice h lo w = y) : slice h lo (v + w) = x ++ y := by
  rw [← hx, ← hy]
  exact (BitVec.extractLsb'_append_extractLsb'_eq_extractLsb' rfl).symm

/-- The top bits of a field. -/
theorem slice_top {h : Half} (lo w v : Nat) {x : BitVec (v + w)} (hx : slice h lo (v + w) = x) :
    slice h (lo + w) v = x.extractLsb' w v := by
  subst hx
  ext i hi
  have hlt : w + i < v + w := by omega
  simp [hlt, Nat.add_assoc]

/-- The fields of a halfword from bit 0 up make it up. -/
theorem eq_of_slice {h w : Half} (hw : slice h 0 16 = w) : w = h :=
  hw.symm.trans BitVec.extractLsb'_eq_self

theorem word533_of_slice {h : Half} {op imm5 : BitVec 5} (hop : slice h 11 5 = op)
    (himm : slice h 6 5 = imm5) : word533 op imm5 (slice h 3 3) (slice h 0 3) = h :=
  eq_of_slice (slice_join 0 3 13 (slice_join 3 3 10 (slice_join 6 5 5 hop himm) rfl) rfl)

theorem word333_of_slice {h : Half} {op : BitVec 7} (hop : slice h 9 7 = op) :
    word333 op (slice h 6 3) (slice h 3 3) (slice h 0 3) = h :=
  eq_of_slice (slice_join 0 3 13 (slice_join 3 3 10 (slice_join 6 3 7 hop rfl) rfl) rfl)

theorem word38_of_slice {h : Half} {op : BitVec 5} (hop : slice h 11 5 = op) :
    word38 op (slice h 8 3) (slice h 0 8) = h :=
  eq_of_slice (slice_join 0 8 8 (slice_join 8 3 5 hop rfl) rfl)

theorem wordAlu_of_slice {h : Half} {op : BitVec 4} (htop : slice h 6 10 = 0b010000#6 ++ op) :
    wordAlu op (slice h 3 3) (slice h 0 3) = h :=
  eq_of_slice (slice_join 0 3 13 (slice_join 3 3 10 htop rfl) rfl)

theorem wordExtend_of_slice {h : Half} {op : BitVec 2} (htop : slice h 6 10 = 0b10110010#8 ++ op) :
    wordExtend op (slice h 3 3) (slice h 0 3) = h :=
  eq_of_slice (slice_join 0 3 13 (slice_join 3 3 10 htop rfl) rfl)

theorem wordHiReg_of_slice {h : Half} {op : BitVec 2} (htop : slice h 8 8 = 0b010001#6 ++ op) :
    wordHiReg op (slice h 7 1 ++ slice h 0 3) (slice h 3 4) = h := by
  have hh1 : (slice h 7 1 ++ slice h 0 3).extractLsb' 3 1 = slice h 7 1 := extract_append_high _ _
  have hlow : (slice h 7 1 ++ slice h 0 3).extractLsb' 0 3 = slice h 0 3 := extract_append_low _ _
  rw [wordHiReg, hh1, hlow]
  exact eq_of_slice (slice_join 0 3 13 (slice_join 3 4 9 (slice_join 7 1 8 htop rfl) rfl) rfl)

/-! ### The rows of the opcode table that a halfword's top bits choose -/

/-- A row asks for the top bits `top`, from bit `lo` up, as far as its mask asks for them. -/
def rowFits {n : Nat} (lo : Nat) (top : BitVec n) (r : CardRow) : Bool :=
  top &&& r.mask.extractLsb' lo n == r.match'.extractLsb' lo n

/-- A row looks at no bit below bit `lo`. -/
def rowIgnoresBelow (lo : Nat) (r : CardRow) : Bool :=
  r.mask.extractLsb' 0 lo == 0#lo && r.exclude.all (fun e => e.1.extractLsb' 0 lo == 0#lo)

/-- The halfword with given top bits, from bit `lo` up, and zeros below. -/
def topWord {n : Nat} (lo : Nat) (top : BitVec n) : Half := top.setWidth 16 <<< lo

/-- The top bits `top` settle which row comes first: row `k`, or no row for `none`. Each row that asks for
them looks at no other bit. -/
def topSettles {n : Nat} (lo : Nat) (top : BitVec n) (k : Option Nat) : Bool :=
  cardRows.all (fun r => !rowFits lo top r || rowIgnoresBelow lo r) &&
    firstRow (topWord lo top) == k

theorem rowFits_of_selects {n lo : Nat} {h : Half} {top : BitVec n} (htop : slice h lo n = top)
    {r : CardRow} (hr : r.selects h = true) : rowFits lo top r = true := by
  rw [CardRow.selects, Bool.and_eq_true, beq_iff_eq] at hr
  rw [rowFits, ← htop, ← hr.1, BitVec.extractLsb'_and, beq_iff_eq]

theorem slice_topWord {n lo : Nat} (hn : n + lo = 16) (top : BitVec n) :
    slice (topWord lo top) lo n = top := by
  ext i hi
  have hlt : lo + i < 16 := by omega
  simp [topWord, hlt, hi]

/-- A mask of top bits reads the top bits alone. -/
theorem and_topWord {n lo : Nat} (hn : n + lo = 16) {h : Half} {top : BitVec n}
    (htop : slice h lo n = top) {m : Half} (hm : m.extractLsb' 0 lo = 0#lo) :
    h &&& m = topWord lo top &&& m := by
  ext i hi
  by_cases hlow : i < lo
  · have hbit : m.getLsbD i = false := by
      simpa [hlow] using congrArg (fun v : BitVec lo => v.getLsbD i) hm
    simp [← BitVec.getLsbD_eq_getElem, hbit]
  · have hbit := congrArg (fun v : BitVec n => v.getLsbD (i - lo))
      (htop.trans (slice_topWord hn top).symm)
    have hadd : lo + (i - lo) = i := by omega
    have hlt : i - lo < n := by omega
    simp only [BitVec.getLsbD_extractLsb', hlt, hadd] at hbit
    simp_all

theorem selects_topWord {n lo : Nat} (hn : n + lo = 16) {h : Half} {top : BitVec n}
    (htop : slice h lo n = top) {r : CardRow} (hr : rowIgnoresBelow lo r = true) :
    r.selects h = r.selects (topWord lo top) := by
  simp only [rowIgnoresBelow, Bool.and_eq_true, List.all_eq_true, beq_iff_eq] at hr
  obtain ⟨hmask, hexclude⟩ := hr
  have hall : r.exclude.all (fun e => h &&& e.1 != e.2) =
      r.exclude.all (fun e => topWord lo top &&& e.1 != e.2) := by
    rw [Bool.eq_iff_iff, List.all_eq_true, List.all_eq_true]
    exact forall₂_congr fun e he => by rw [and_topWord hn htop (hexclude e he)]
  rw [CardRow.selects, CardRow.selects, and_topWord hn htop hmask, hall]

theorem findIdx?_congr_mem {α : Type} {p q : α → Bool} {l : List α} (h : ∀ x ∈ l, p x = q x) :
    l.findIdx? p = l.findIdx? q := by
  induction l with
  | nil => rfl
  | cons x l ih =>
    rw [List.findIdx?_cons, List.findIdx?_cons, h x List.mem_cons_self,
      ih fun y hy => h y (List.mem_cons_of_mem x hy)]

/-- Rows that the top bits `top` do not fit select neither word, and the others see only the top bits. -/
theorem firstRow_of_topSettles {n lo : Nat} (hn : n + lo = 16) {h : Half} {top : BitVec n}
    {k : Option Nat} (htop : slice h lo n = top) (hk : topSettles lo top k = true) :
    firstRow h = k := by
  rw [topSettles, Bool.and_eq_true, List.all_eq_true, beq_iff_eq] at hk
  obtain ⟨hrows, hfirst⟩ := hk
  rw [← hfirst]
  refine findIdx?_congr_mem fun r hr => ?_
  by_cases hfit : rowFits lo top r = true
  · exact selects_topWord hn htop (by simpa [hfit] using hrows r hr)
  · have hnone : r.selects h = false :=
      Bool.eq_false_iff.mpr fun hsel => hfit (rowFits_of_selects htop hsel)
    have hnone' : r.selects (topWord lo top) = false :=
      Bool.eq_false_iff.mpr fun hsel => hfit (rowFits_of_selects (slice_topWord hn top) hsel)
    rw [hnone, hnone']

/-! ### What the decoder answers -/

/-- The instruction that a halfword stands for: its word is the halfword, and its row of the opcode table
is the first that selects the halfword. -/
structure IsWordOf (h : Half) (i : Instr) : Prop where
  wellFormed : i.wellFormed = true
  encode : encode i = [h]
  row : firstRow h = some (rowOf i)

/-- What the decoder of halfwords may answer: the instruction that the halfword stands for, or nothing
where no row selects it (30_encoding R62, R92). -/
def Answers (h : Half) : Option Instr → Prop
  | some i => IsWordOf h i
  | none => firstRow h = none

/-- A word of the formats of R63, R70 and R71, by its top five bits. -/
theorem isWordOf_533 {h : Half} {i : Instr} {op : BitVec 5} (hop : slice h 11 5 = op)
    (hwf : i.wellFormed = true)
    (henc : encode i = [word533 op (slice h 6 5) (slice h 3 3) (slice h 0 3)])
    (hrow : topSettles 11 op (some (rowOf i)) = true) : IsWordOf h i :=
  ⟨hwf, by rw [henc, word533_of_slice hop rfl], firstRow_of_topSettles rfl hop hrow⟩

/-- A word of the formats of R64 and R69, by its top seven bits. -/
theorem isWordOf_333 {h : Half} {i : Instr} {op : BitVec 7} (hop : slice h 9 7 = op)
    (hwf : i.wellFormed = true)
    (henc : encode i = [word333 op (slice h 6 3) (slice h 3 3) (slice h 0 3)])
    (hrow : topSettles 9 op (some (rowOf i)) = true) : IsWordOf h i :=
  ⟨hwf, by rw [henc, word333_of_slice hop], firstRow_of_topSettles rfl hop hrow⟩

/-- A word of the formats of R65, R68, R72 and R73, by its top five bits. -/
theorem isWordOf_38 {h : Half} {i : Instr} {op : BitVec 5} (hop : slice h 11 5 = op)
    (hwf : i.wellFormed = true) (henc : encode i = [word38 op (slice h 8 3) (slice h 0 8)])
    (hrow : topSettles 11 op (some (rowOf i)) = true) : IsWordOf h i :=
  ⟨hwf, by rw [henc, word38_of_slice hop], firstRow_of_topSettles rfl hop hrow⟩

/-- A word of format ALU (R66), by its top ten bits. -/
theorem isWordOf_alu {h : Half} {i : Instr} {op : BitVec 4} (htop : slice h 6 10 = 0b010000#6 ++ op)
    (hwf : i.wellFormed = true) (henc : encode i = [wordAlu op (slice h 3 3) (slice h 0 3)])
    (hrow : topSettles 6 (0b010000#6 ++ op) (some (rowOf i)) = true) : IsWordOf h i :=
  ⟨hwf, by rw [henc, wordAlu_of_slice htop], firstRow_of_topSettles rfl htop hrow⟩

/-- A word of format EXTEND (R75), by its top ten bits. -/
theorem isWordOf_extend {h : Half} {i : Instr} {op : BitVec 2}
    (htop : slice h 6 10 = 0b10110010#8 ++ op) (hwf : i.wellFormed = true)
    (henc : encode i = [wordExtend op (slice h 3 3) (slice h 0 3)])
    (hrow : topSettles 6 (0b10110010#8 ++ op) (some (rowOf i)) = true) : IsWordOf h i :=
  ⟨hwf, by rw [henc, wordExtend_of_slice htop], firstRow_of_topSettles rfl htop hrow⟩

/-- The last of the four values of a two-bit field. -/
theorem eq_three_of_ne {op : BitVec 2} (h0 : op ≠ 0b00#2) (h1 : op ≠ 0b01#2) (h2 : op ≠ 0b10#2) :
    op = 0b11#2 := by
  decide +revert

/-- Format ADDSUB3 (R64). -/
theorem decodeAddSub3_answers {h : Half} (hop : slice h 11 5 = 0b00011#5) :
    IsWordOf h (decodeAddSub3 h) := by
  unfold decodeAddSub3
  generalize hc : slice h 9 2 = op
  have htop : slice h 9 7 = 0b00011#5 ++ op := slice_join 9 2 5 hop hc
  split
  case h_4 h0 h1 h2 =>
    obtain rfl := eq_three_of_ne h0 h1 h2
    exact isWordOf_333 htop rfl rfl rfl
  all_goals exact isWordOf_333 htop rfl rfl rfl

/-- Format ALU (R66). -/
theorem decodeAlu_answers {h : Half} (hop : slice h 10 6 = 0b010000#6) :
    Answers h (decodeAlu h) := by
  unfold decodeAlu
  generalize hc : slice h 6 4 = op
  have htop : slice h 6 10 = 0b010000#6 ++ op := slice_join 6 4 6 hop hc
  split
  case h_15 =>
    have hnone : topSettles 6 (0b010000#6 ++ op) none = true := by
      clear hc htop
      decide +revert
    exact firstRow_of_topSettles rfl htop hnone
  all_goals exact isWordOf_alu htop rfl rfl rfl

/-- Format LS_REG (R69). -/
theorem decodeLsReg_answers {h : Half} (hop : slice h 12 4 = 0b0101#4) :
    IsWordOf h (decodeLsReg h) := by
  unfold decodeLsReg
  generalize hc : slice h 9 3 = op
  have htop : slice h 9 7 = 0b0101#4 ++ op := slice_join 9 3 4 hop hc
  split
  case h_8 =>
    obtain rfl : op = 0b111#3 := by
      clear hc htop
      decide +revert
    exact isWordOf_333 htop rfl rfl rfl
  all_goals exact isWordOf_333 htop rfl rfl rfl

/-- A register is high where the top bit of its number is set (R67). -/
theorem oneHigh_append (x y : BitVec 1) (l k : BitVec 3) :
    oneHigh (x ++ l) (y ++ k) = (x ++ y != 0#2) := by
  have hlow (b : BitVec 1) (r : BitVec 3) : Reg.isLow (b ++ r) = (b == 0#1) := by decide +revert
  rw [oneHigh, hlow, hlow]
  decide +revert

/-- A format HIREG word: bits 7 and 6 say which registers are high, and one must be (R67). -/
theorem isWordOf_hiReg {h : Half} {i : Instr} {op high : BitVec 2} {k : Nat}
    (htop : slice h 8 8 = 0b010001#6 ++ op) (hhigh : slice h 6 2 = high) (hne : high ≠ 0#2)
    (hwf : i.wellFormed = true)
    (henc : encode i = [wordHiReg op (slice h 7 1 ++ slice h 0 3) (slice h 3 4)]) (hk : rowOf i = k)
    (hrow : ∀ hh : BitVec 2, hh ≠ 0#2 →
      topSettles 6 (0b010001#6 ++ op ++ hh) (some k) = true) : IsWordOf h i :=
  ⟨hwf, by rw [henc, wordHiReg_of_slice htop],
    hk ▸ firstRow_of_topSettles rfl (slice_join 6 2 8 htop hhigh) (hrow high hne)⟩

/-- Format HIREG (R67). -/
theorem decodeHiReg_answers {h : Half} (hop : slice h 10 6 = 0b010001#6) :
    Answers h (decodeHiReg h) := by
  have hsplit : oneHigh (slice h 7 1 ++ slice h 0 3) (slice h 3 4) = (slice h 6 2 != 0#2) := by
    have hrm : slice h 3 4 = slice h 6 1 ++ slice h 3 3 := slice_join 3 3 1 rfl rfl
    have hhigh : slice h 6 2 = slice h 7 1 ++ slice h 6 1 := slice_join 6 1 1 rfl rfl
    rw [hrm, hhigh, oneHigh_append]
  unfold decodeHiReg
  dsimp only
  generalize hc : slice h 8 2 = op
  have htop : slice h 8 8 = 0b010001#6 ++ op := slice_join 8 2 6 hop hc
  split
  case isTrue hwf =>
    have hne : slice h 6 2 ≠ 0#2 := by simpa [hsplit] using hwf
    split
    · exact isWordOf_hiReg htop rfl hne hwf rfl rfl (k := 26) (by decide)
    · exact isWordOf_hiReg htop rfl hne hwf rfl rfl (k := 27) (by decide)
    · exact isWordOf_hiReg htop rfl hne hwf rfl rfl (k := 28) (by decide)
    · next h0 h1 h2 =>
      obtain rfl := eq_three_of_ne h0 h1 h2
      exact firstRow_of_topSettles rfl htop rfl
  case isFalse hlow =>
    have hzero : slice h 6 2 = 0#2 := by simpa [hsplit] using hlow
    have hnone : topSettles 6 (0b010001#6 ++ op ++ 0#2) none = true := by
      clear hc htop
      decide +revert
    exact firstRow_of_topSettles rfl (slice_join 6 2 8 htop hzero) hnone

/-- A word of format ADJ_SP (R74), by its top nine bits. -/
theorem isWordOf_adjSp {h : Half} {i : Instr} {op : BitVec 9} (hop : slice h 7 9 = op)
    (hwf : i.wellFormed = true) (henc : encode i = [(op ++ slice h 0 7 : Half)])
    (hrow : topSettles 7 op (some (rowOf i)) = true) : IsWordOf h i :=
  ⟨hwf, by rw [henc, eq_of_slice (slice_join 0 7 9 hop rfl)], firstRow_of_topSettles rfl hop hrow⟩

/-- A word with one field, of 8 bits, below its top bits (R76, R77). -/
theorem isWordOf_low8 {h : Half} {i : Instr} {op : BitVec 8} (hop : slice h 8 8 = op)
    (hwf : i.wellFormed = true) (henc : encode i = [(op ++ slice h 0 8 : Half)])
    (hrow : firstRow h = some (rowOf i)) : IsWordOf h i :=
  ⟨hwf, by rw [henc, eq_of_slice (slice_join 0 8 8 hop rfl)], hrow⟩

/-- The row of `push` or `pop` without LR or PC, which excludes the empty list (R76, R92). -/
def listRow (op : BitVec 8) : CardRow := ⟨0xff00#16, op ++ 0#8, [(0xffff#16, op ++ 0#8)]⟩

theorem listRow_selects (op : BitVec 8) {rlist : BitVec 8} (hne : rlist ≠ 0#8) :
    (listRow op).selects (op ++ rlist) = true := by
  have htop : (op ++ rlist : Half) &&& 0xff00#16 = op ++ 0#8 := by
    have hmask : 0xff00#16 = BitVec.allOnes 8 ++ 0#8 := rfl
    rw [hmask, BitVec.and_append, BitVec.and_allOnes, BitVec.and_zero]
  have hall : (op ++ rlist : Half) &&& 0xffff#16 = op ++ rlist := BitVec.and_allOnes
  have hlist : (op ++ rlist : Half) ≠ op ++ 0#8 :=
    fun heq => hne ((BitVec.append_right_inj op).mp heq)
  simp [CardRow.selects, listRow, htop, hall, hlist]

/-- A word with a list that is not empty, where no row before row `k` asks for its top bits. -/
theorem firstRow_of_listRow {h : Half} {op : BitVec 8} {k : Nat} (hop : slice h 8 8 = op)
    (hne : slice h 0 8 ≠ 0#8) (hk : cardRows[k]? = some (listRow op))
    (hbefore : (cardRows.take k).all (fun r => !rowFits 8 op r) = true) : firstRow h = some k := by
  obtain ⟨hlt, hrow⟩ := List.getElem?_eq_some_iff.mp hk
  refine List.findIdx?_eq_some_iff_getElem.mpr ⟨hlt, ?_, fun j hj hsel => ?_⟩
  · rw [hrow, ← eq_of_slice (slice_join 0 8 8 hop rfl)]
    exact listRow_selects op hne
  · have hmem : cardRows[j] ∈ cardRows.take k :=
      List.mem_take_iff_getElem.mpr ⟨j, by omega, rfl⟩
    simpa [rowFits_of_selects hop hsel] using List.all_eq_true.mp hbefore _ hmem

/-- `push` and `pop` without LR or PC (R76): an empty list has no row (R92). -/
theorem listForm_answers {h : Half} {i : Instr} {op : BitVec 8} (hop : slice h 8 8 = op)
    (hwf : i.wellFormed = (slice h 0 8 != 0#8)) (henc : encode i = [(op ++ slice h 0 8 : Half)])
    (hempty : topSettles 0 (op ++ 0#8) none = true)
    (hrow : cardRows[rowOf i]? = some (listRow op))
    (hbefore : (cardRows.take (rowOf i)).all (fun r => !rowFits 8 op r) = true) :
    Answers h (if slice h 0 8 = 0#8 then none else some i) := by
  split
  case isTrue hzero => exact firstRow_of_topSettles rfl (slice_join 0 8 8 hop hzero) hempty
  case isFalse hne =>
    exact isWordOf_low8 hop (by simpa [hwf] using hne) henc
      (firstRow_of_listRow hop hne hrow hbefore)

/-- Formats ADJ_SP, EXTEND and PUSHPOP (R74, R75, R76). -/
theorem decodeMisc_answers {h : Half} (hop : slice h 12 4 = 0b1011#4) :
    Answers h (decodeMisc h) := by
  unfold decodeMisc
  generalize hc : slice h 8 4 = code
  have htop : slice h 8 8 = 0b1011#4 ++ code := slice_join 8 4 4 hop hc
  split
  case h_1 =>
    split
    case isTrue hbit => exact isWordOf_adjSp (slice_join 7 1 8 htop hbit) rfl rfl rfl
    case isFalse hbit =>
      have hone : slice h 7 1 = 1#1 := (BitVec.eq_zero_or_eq_one _).resolve_left hbit
      exact isWordOf_adjSp (slice_join 7 1 8 htop hone) rfl rfl rfl
  case h_2 =>
    generalize hc2 : slice h 6 2 = op
    have htop6 : slice h 6 10 = 0b10110010#8 ++ op := slice_join 6 2 8 htop hc2
    split
    case h_4 h0 h1 h2 =>
      obtain rfl := eq_three_of_ne h0 h1 h2
      exact isWordOf_extend htop6 rfl rfl rfl
    all_goals exact isWordOf_extend htop6 rfl rfl rfl
  case h_3 | h_5 => exact listForm_answers htop rfl rfl rfl rfl rfl
  case h_4 | h_6 => exact isWordOf_low8 htop rfl rfl (firstRow_of_topSettles rfl htop rfl)
  case h_7 =>
    have hnone : topSettles 8 (0b1011#4 ++ code) none = true := by
      clear hc htop
      decide +revert
    exact firstRow_of_topSettles rfl htop hnone

/-- The condition of a code is the one whose code it is (R98). -/
theorem code_of_condOfCode {code : BitVec 4} {c : Cond} (h : condOfCode code = some c) :
    c.code = code := by
  decide +revert

/-- Format BCOND (R77); the codes 1110 and 1111 are no conditions. -/
theorem decodeBCond_answers {h : Half} (hop : slice h 12 4 = 0b1101#4) :
    Answers h (decodeBCond h) := by
  unfold decodeBCond
  generalize hc : slice h 8 4 = code
  have htop : slice h 8 8 = 0b1101#4 ++ code := slice_join 8 4 4 hop hc
  split
  case h_1 c hcond =>
    obtain rfl := code_of_condOfCode hcond
    have hrow : topSettles 8 (0b1101#4 ++ c.code) (some 57) = true := by cases c <;> rfl
    exact isWordOf_low8 htop rfl rfl (firstRow_of_topSettles rfl htop hrow)
  case h_2 hcond =>
    have hnone : topSettles 8 (0b1101#4 ++ code) none = true := by
      clear hc htop
      decide +revert
    exact firstRow_of_topSettles rfl htop hnone

/-- `lsl Rd, Rm, #Shift` and `mov Rd, Rm` (R63, R90): the row of `mov` comes first where the shift
is 0. -/
theorem lslImm_answers {h : Half} (hop : slice h 11 5 = 0b00000#5) :
    IsWordOf h (if slice h 6 5 = 0#5 then .movLo (slice h 0 3) (slice h 3 3)
      else .lslImm (slice h 0 3) (slice h 3 3) (slice h 6 5)) := by
  generalize hc : slice h 6 5 = imm5
  have htop : slice h 6 10 = 0b00000#5 ++ imm5 := slice_join 6 5 5 hop hc
  split
  case isTrue hzero =>
    subst hzero
    exact ⟨rfl, congrArg ([·]) (word533_of_slice hop hc), firstRow_of_topSettles rfl htop rfl⟩
  case isFalse hne =>
    have hrow : topSettles 6 (0b00000#5 ++ imm5) (some 1) = true := by
      clear hc htop
      decide +revert
    exact ⟨rfl, congrArg ([·]) (word533_of_slice hop hc), firstRow_of_topSettles rfl htop hrow⟩

/-- The values of bits 15:11 that the opcode map has an entry for (R82). -/
def mapOps : List (BitVec 5) :=
  [0b00000#5, 0b00001#5, 0b00010#5, 0b00011#5, 0b00100#5, 0b00101#5, 0b00110#5, 0b00111#5,
    0b01000#5, 0b01001#5, 0b01010#5, 0b01011#5, 0b01100#5, 0b01101#5, 0b01110#5, 0b01111#5,
    0b10000#5, 0b10001#5, 0b10010#5, 0b10011#5, 0b10101#5, 0b10110#5, 0b10111#5, 0b11010#5,
    0b11011#5, 0b11100#5]

/-- Where the opcode map has no entry, the opcode table has no row. -/
theorem topSettles_or_mem_mapOps (op : BitVec 5) :
    topSettles 11 op none = true ∨ op ∈ mapOps := by
  decide +revert

/-- The decoder of halfwords follows the opcode map of 30_encoding R82; the cases are its entries, in the
order in which `decode16` lists them. -/
theorem decode16_answers (h : Half) : Answers h (decode16 h) := by
  unfold decode16
  generalize hop : slice h 11 5 = op
  split
  case h_1 => exact lslImm_answers hop
  case h_4 => exact decodeAddSub3_answers hop
  case h_9 =>
    split
    case isTrue hbit => exact decodeAlu_answers (slice_join 10 1 5 hop hbit)
    case isFalse hbit =>
      have hone : slice h 10 1 = 1#1 := (BitVec.eq_zero_or_eq_one _).resolve_left hbit
      exact decodeHiReg_answers (slice_join 10 1 5 hop hone)
  case h_11 | h_12 => exact decodeLsReg_answers (slice_top 11 1 4 hop)
  case h_22 | h_23 => exact decodeMisc_answers (slice_top 11 1 4 hop)
  case h_24 | h_25 => exact decodeBCond_answers (slice_top 11 1 4 hop)
  case h_26 =>
    exact ⟨rfl, congrArg ([·]) (eq_of_slice (slice_join 0 11 5 hop rfl)),
      firstRow_of_topSettles rfl hop rfl⟩
  case h_27 =>
    obtain hnone | hmem := topSettles_or_mem_mapOps op
    · exact firstRow_of_topSettles rfl hop hnone
    · simp_all [mapOps]
  case h_2 | h_3 | h_13 | h_14 | h_15 | h_16 | h_17 | h_18 => exact isWordOf_533 hop rfl rfl rfl
  case h_5 | h_6 | h_7 | h_8 | h_10 | h_19 | h_20 | h_21 => exact isWordOf_38 hop rfl rfl rfl

theorem isWordOf_of_decode16 {h : Half} {i : Instr} (hi : decode16 h = some i) : IsWordOf h i := by
  have h16 := decode16_answers h
  rwa [hi] at h16

theorem firstRow_of_decode16_none {h : Half} (hnone : decode16 h = none) : firstRow h = none := by
  have h16 := decode16_answers h
  rwa [hnone] at h16

/-! ### The decoder of one or two halfwords -/

/-- A mask of the highest bits keeps them and clears the others. -/
theorem and_highMask {n m : Nat} (v : BitVec (n + m)) :
    v &&& (BitVec.allOnes n ++ 0#m) = v.extractLsb' m n ++ 0#m := by
  conv_lhs => rw [← BitVec.extractLsb'_append_extractLsb' (x := v)]
  rw [BitVec.and_append, BitVec.and_allOnes, BitVec.and_zero]

/-- The mask of 30_encoding R61 reads the top five bits. -/
theorem and_F800_eq_iff (h : Half) (op : BitVec 5) :
    h &&& 0xF800#16 = op ++ 0#11 ↔ slice h 11 5 = op := by
  have hand : h &&& 0xF800#16 = slice h 11 5 ++ 0#11 := and_highMask (n := 5) (m := 11) h
  rw [hand, BitVec.append_left_inj]

theorem isBlFirst_iff (h : Half) : isBlFirst h = true ↔ h &&& 0xF800#16 = 0xF000#16 :=
  beq_iff_eq.trans (and_F800_eq_iff h 0b11110#5).symm

theorem isBlSecond_iff (h : Half) : isBlSecond h = true ↔ h &&& 0xF800#16 = 0xF800#16 :=
  beq_iff_eq.trans (and_F800_eq_iff h 0b11111#5).symm

theorem decode_bl {hw1 hw2 : Half} (h1 : isBlFirst hw1 = true) (h2 : isBlSecond hw2 = true) :
    decode hw1 hw2 = .ok (.bl (slice hw1 0 11) (slice hw2 0 11)) := by simp [decode, h1, h2]

theorem decode_bl_refused {hw1 hw2 : Half} (h1 : isBlFirst hw1 = true) (h2 : isBlSecond hw2 = false) :
    decode hw1 hw2 = .error (.notInCardPair hw1 hw2) := by simp [decode, h1, h2]

/-- The two halves of a `bl` are its words (R79). -/
theorem encode_bl_of_halves {hw1 hw2 : Half} (h1 : isBlFirst hw1 = true)
    (h2 : isBlSecond hw2 = true) :
    encode (.bl (slice hw1 0 11) (slice hw2 0 11)) = [hw1, hw2] := by
  have hhi : (0b11110#5 ++ slice hw1 0 11 : Half) = hw1 :=
    eq_of_slice (slice_join 0 11 5 (beq_iff_eq.mp h1) rfl)
  have hlo : (0b11111#5 ++ slice hw2 0 11 : Half) = hw2 :=
    eq_of_slice (slice_join 0 11 5 (beq_iff_eq.mp h2) rfl)
  rw [encode, hhi, hlo]

/-- Settles O2: a `bl` is its two halves; any other answer is the instruction of its halfword. -/
theorem decodedWordsEncodeBack : Obligations.DecodedWordsEncodeBack := by
  unfold Obligations.DecodedWordsEncodeBack
  intro hw1 hw2 i hdec
  by_cases h1 : isBlFirst hw1 = true
  · by_cases h2 : isBlSecond hw2 = true
    · rw [decode_bl h1 h2] at hdec
      cases hdec
      rw [if_pos h1]
      exact ⟨rfl, encode_bl_of_halves h1 h2⟩
    · rw [decode_bl_refused h1 (Bool.eq_false_iff.mpr h2)] at hdec
      cases hdec
  · cases h16 : decode16 hw1 with
    | none => simp [decode, h1, h16] at hdec
    | some j =>
      rw [decode_of_decode16 h16] at hdec
      cases hdec
      obtain ⟨hwf, henc, -⟩ := isWordOf_of_decode16 h16
      rw [if_neg h1]
      exact ⟨hwf, henc⟩

/-- Settles O3: the row of what the decoder of halfwords answers is the first that selects the halfword;
the two halves of a `bl` are known by their top five bits. -/
theorem decoderFollowsOpcodeTable : Obligations.DecoderFollowsOpcodeTable := by
  unfold Obligations.DecoderFollowsOpcodeTable
  intro hw1 hw2
  refine ⟨fun h1 => ?_, fun h1 h2 => ?_, fun h1 h2 => ?_⟩
  · cases h16 : decode16 hw1 with
    | none =>
      have hdec : decode hw1 hw2 = .error (.notInCard hw1) := by simp [decode, h1, h16]
      rw [hdec]
      exact ⟨rfl, firstRow_of_decode16_none h16⟩
    | some i =>
      rw [decode_of_decode16 h16]
      exact (isWordOf_of_decode16 h16).row
  · rw [decode_bl ((isBlFirst_iff hw1).mpr h1) ((isBlSecond_iff hw2).mpr h2), slice, slice,
      ← BitVec.setWidth_eq_extractLsb' (by decide), ← BitVec.setWidth_eq_extractLsb' (by decide)]
  · have hnot : isBlSecond hw2 = false :=
      Bool.eq_false_iff.mpr fun hsecond => h2 ((isBlSecond_iff hw2).mp hsecond)
    exact decode_bl_refused ((isBlFirst_iff hw1).mpr h1) hnot

end Sys2Proof.Proofs
end

section
/-! PROOF. The operands as numbers: effective addresses (45 R170, with the scalings of 30_encoding R81)
and register lists (R76, 46 R200). -/

namespace Sys2Proof.Proofs

open Sys2Proof Sys2Proof.Machine

/-! ### Effective addresses -/

theorem toNat_append_zeros {w : Nat} (x : BitVec w) (k : Nat) :
    (x ++ 0#k).toNat = x.toNat * 2 ^ k := by
  rw [BitVec.toNat_append, BitVec.toNat_ofNat, Nat.zero_mod, Nat.or_zero, Nat.shiftLeft_eq]

/-- The three scalings of an immediate (30_encoding R81). -/
theorem immPlain_eq {w : Nat} (imm : BitVec w) : immPlain imm = BitVec.ofNat 32 imm.toNat :=
  BitVec.eq_of_toNat_eq (by simp [immPlain])

theorem immHalves_eq {w : Nat} (imm : BitVec w) :
    immHalves imm = BitVec.ofNat 32 (2 * imm.toNat) :=
  BitVec.eq_of_toNat_eq (by
    rw [immHalves, BitVec.toNat_setWidth, toNat_append_zeros, BitVec.toNat_ofNat]
    omega)

theorem immWords_eq {w : Nat} (imm : BitVec w) :
    immWords imm = BitVec.ofNat 32 (4 * imm.toNat) :=
  BitVec.eq_of_toNat_eq (by
    rw [immWords, BitVec.toNat_setWidth, toNat_append_zeros, BitVec.toNat_ofNat]
    omega)

/-- A word aligned down to a multiple of 4 (45 R170). -/
theorem toNat_and_alignMask (v : Word) : (v &&& 0xFFFFFFFC#32).toNat = 4 * (v.toNat / 4) := by
  have hand : v &&& 0xFFFFFFFC#32 = v.extractLsb' 2 30 ++ 0#2 := and_highMask (n := 30) (m := 2) v
  have hhigh : (v.extractLsb' 2 30).toNat = v.toNat / 4 := by
    rw [BitVec.extractLsb'_toNat, Nat.shiftRight_eq_div_pow]
    omega
  rw [hand, toNat_append_zeros, hhigh]
  omega

/-- The PC-relative address: a multiple of 4, the PC aligned down plus four times the immediate (45 R170,
R179). -/
theorem toNat_eaPc (s : State) (imm8 : BitVec 8) :
    (s.eaPc (immWords imm8)).toNat =
      (4 * (((s.pc.toNat + 4) % 2 ^ 32) / 4) + 4 * imm8.toNat) % 2 ^ 32 := by
  rw [State.eaPc, BitVec.toNat_add, toNat_and_alignMask, immWords_eq, reg_pc, BitVec.toNat_add,
    BitVec.toNat_ofNat, BitVec.toNat_ofNat]
  omega

/-- Settles O30: a scaled immediate is its field times the scale. -/
theorem effectiveAddresses : Obligations.EffectiveAddresses := by
  unfold Obligations.EffectiveAddresses
  refine fun s => ⟨fun rn imm5 => ?_, fun _ _ => rfl, fun imm8 => ⟨toNat_eaPc s imm8, ?_, ?_⟩⟩
  · simp only [State.eaImm, immWords_eq, immHalves_eq, immPlain_eq, and_self]
  · rw [toNat_eaPc]
    omega
  · rw [State.eaSp, immWords_eq]

/-! ### Register lists -/

/-- The registers of a list are the low ones whose bit is set (30_encoding R76). -/
theorem mem_loRegList {rlist : BitVec 8} {r : Reg} :
    r ∈ loRegList rlist ↔ r.toNat < 8 ∧ rlist.getLsbD r.toNat = true := by
  simp only [loRegList, List.mem_map, List.mem_filter, List.mem_range]
  constructor
  · rintro ⟨i, ⟨hi, hbit⟩, rfl⟩
    have hr : (BitVec.ofNat 4 i).toNat = i := by
      rw [BitVec.toNat_ofNat]
      omega
    rw [hr]
    exact ⟨hi, hbit⟩
  · exact fun h => ⟨r.toNat, h, BitVec.ofNat_toNat _ _⟩

/-- Settles O36: the register numbers from 0 to 7 ascend, and a list keeps some of them, in order. -/
theorem registerListAscending : Obligations.RegisterListAscending := by
  unfold Obligations.RegisterListAscending
  refine fun rlist => ⟨?_, fun r => mem_loRegList⟩
  rw [loRegList, List.pairwise_map]
  have hlt : (List.range 8).Pairwise
      (fun i j => (BitVec.ofNat 4 i).toNat < (BitVec.ofNat 4 j).toNat) := by decide
  exact hlt.filter _

end Sys2Proof.Proofs
end

section
/-! PROOF. The assembler: the field of a branch reaches its label (30_encoding R81; 47 R212 to R214), and
a source ends at `.end` (30_encoding R97). -/

namespace Sys2Proof.Proofs

open Sys2Proof Sys2Proof.Machine

/-! ### The field of a branch -/

/-- The address that a value stands for is the value (20_memory R40). -/
theorem addressOf_eq_some {v : Int} {x : Word} (h : addressOf v = some x) : (x.toNat : Int) = v := by
  unfold addressOf at h
  split at h
  · cases h
    rw [BitVec.toNat_ofInt]
    omega
  · cases h

theorem toInt_even {v : Word} (h : v.toNat % 2 = 0) : v.toInt % 2 = 0 := by
  rw [BitVec.toInt_eq_toNat_cond]
  split <;> omega

/-- The distance from an even address, 4 further on, to an even label is even. -/
theorem distance_even {a label : Word} (ha : a.toNat % 2 = 0) (hl : label.toNat % 2 = 0) :
    (label - (a + 4#32)).toInt % 2 = 0 := by
  refine toInt_even ?_
  rw [BitVec.toNat_sub, BitVec.toNat_add, BitVec.toNat_ofNat]
  omega

/-- A field holds half the distance, so the offset read from it is the distance (30_encoding R81). -/
theorem branchOffset_half {w : Nat} (hw : w + 1 < 32) {off : Word} (heven : off.toInt % 2 = 0)
    (hlo : -(2 ^ (w + 1) : Int) ≤ off.toInt) (hhi : off.toInt < (2 ^ (w + 1) : Int)) :
    branchOffset (BitVec.ofInt (w + 1) (off.toInt / 2)) = off := by
  have hfield : (BitVec.ofInt (w + 1) (off.toInt / 2)).toInt = off.toInt / 2 :=
    BitVec.toInt_ofInt_eq_self (by omega) (by rw [Nat.add_sub_cancel]; omega)
      (by rw [Nat.add_sub_cancel]; omega)
  refine BitVec.eq_of_toInt_eq ?_
  rw [branchOffset, BitVec.toInt_signExtend_of_le (by omega), BitVec.toInt_append_zero, hfield]
  omega

theorem offsetField_eq_some {w : Nat} {a label : Word} {f : BitVec w}
    (h : offsetField w a label = some f) :
    a.toNat % 2 = 0 ∧ label.toNat % 2 = 0 ∧ -(2 ^ w : Int) ≤ (label - (a + 4#32)).toInt ∧
      (label - (a + 4#32)).toInt < (2 ^ w : Int) ∧
      f = BitVec.ofInt w ((label - (a + 4#32)).toInt / 2) := by
  unfold offsetField at h
  dsimp only at h
  split at h
  next hfit =>
    obtain ⟨ha, hl, hlo, hhi⟩ := hfit
    cases h
    exact ⟨ha, hl, hlo, hhi, rfl⟩
  · cases h

theorem offset_eq_some {env : AsmEnv} {w : Nat} {a : Word} {e : Expr} {f : BitVec w}
    (h : env.offset w a e = some f) :
    ∃ v label, env.value e = some v ∧ (label.toNat : Int) = v ∧ offsetField w a label = some f := by
  unfold AsmEnv.offset at h
  split at h
  next label hl =>
    obtain ⟨v, hv, hlabel⟩ := Option.bind_eq_some_iff.mp hl
    exact ⟨v, label, hv, addressOf_eq_some hlabel, h⟩
  · cases h

/-- A branch goes to the label that its field was assembled for (47 R212 to R214). -/
theorem branchTarget_of_offset {env : AsmEnv} {w : Nat} (hw : w + 1 < 32) {s : State} {e : Expr}
    {f : BitVec (w + 1)} (h : env.offset (w + 1) s.pc e = some f) :
    ∃ v, env.value e = some v ∧ ((s.branchTarget (branchOffset f)).toNat : Int) = v ∧
      v % 2 = 0 := by
  obtain ⟨v, label, hv, hlabel, hf⟩ := offset_eq_some h
  obtain ⟨ha, hl, hlo, hhi, rfl⟩ := offsetField_eq_some hf
  have htarget : s.pc + 4#32 + (label - (s.pc + 4#32)) = label := by
    rw [BitVec.add_comm, BitVec.sub_add_cancel]
  refine ⟨v, hv, ?_, by omega⟩
  rw [branchOffset_half hw (distance_even ha hl) hlo hhi, State.branchTarget, reg_pc, htarget, hlabel]

/-! ### The lines of branches -/

/-- A line of a branch assembles where its field does. -/
theorem assembleInstr_bCond (env : AsmEnv) (a : Word) (c : Cond) (e : Expr) :
    assembleInstr env a (.bCond c e) = (env.offset 8 a e).map (.bCond c) := by
  rw [Option.map_eq_bind]
  rfl

theorem assembleInstr_b (env : AsmEnv) (a : Word) (e : Expr) :
    assembleInstr env a (.b e) = (env.offset 11 a e).map .b := by
  rw [Option.map_eq_bind]
  rfl

theorem assembleInstr_bl (env : AsmEnv) (a : Word) (e : Expr) :
    assembleInstr env a (.bl e) =
      (env.offset 22 a e).map fun f => .bl (f.extractLsb' 11 11) (f.extractLsb' 0 11) := by
  rw [Option.map_eq_bind]
  rfl

theorem exec_bCond_taken {s : State} {c : Cond} (h : conditionPassed s.flags c = true)
    (imm8 : BitVec 8) :
    exec (.bCond c imm8) s = .next (s.jump (s.branchTarget (branchOffset imm8))) :=
  if_pos h

/-- The two halves of the field of a `bl` make it up again (R79). -/
theorem exec_bl_halves (s : State) (f : BitVec 22) :
    exec (.bl (f.extractLsb' 11 11) (f.extractLsb' 0 11)) s =
      .next ((s.setReg Reg.lr s.linkValue).jump (s.branchTarget (branchOffset f))) := by
  have hf : f.extractLsb' 11 11 ++ f.extractLsb' 0 11 = f :=
    BitVec.extractLsb'_append_extractLsb' (w := 11) (len := 11)
  have hexec := execBl.eq_1 (f.extractLsb' 11 11) (f.extractLsb' 0 11) s
  rwa [hf] at hexec

/-! ### The range of a branch -/

/-- No branch at an odd address assembles (20_memory R45, log 31). -/
theorem offset_of_odd {a : Word} (ha : a.toNat % 2 = 1) (env : AsmEnv) (w : Nat) (e : Expr) :
    env.offset w a e = none := by
  refine Option.eq_none_iff_forall_not_mem.mpr fun f hf => ?_
  obtain ⟨_, _, -, -, hfield⟩ := offset_eq_some hf
  obtain ⟨heven, -⟩ := offsetField_eq_some hfield
  omega

theorem offsetField_isSome_iff {w : Nat} {a label : Word} :
    (offsetField w a label).isSome ↔ a.toNat % 2 = 0 ∧ label.toNat % 2 = 0 ∧
      -(2 ^ w : Int) ≤ (label - (a + 4#32)).toInt ∧
      (label - (a + 4#32)).toInt < (2 ^ w : Int) := by
  unfold offsetField
  dsimp only
  split
  next hfit => exact iff_of_true rfl hfit
  next hfit => exact iff_of_false Bool.false_ne_true hfit

/-- The offset to a label at the distance `d`, modulo 2^32 (log 27). -/
theorem distance_toInt {a : Word} {d : Int} (hlo : -2 ^ 31 + 4 ≤ d) (hhi : d < 2 ^ 31) :
    (BitVec.ofInt 32 (((a.toNat : Int) + d) % 2 ^ 32) - (a + 4#32)).toInt = d - 4 := by
  have hoff : BitVec.ofInt 32 (((a.toNat : Int) + d) % 2 ^ 32) - (a + 4#32) =
      BitVec.ofInt 32 (d - 4) := by
    refine BitVec.eq_of_toNat_eq ?_
    rw [BitVec.toNat_sub, BitVec.toNat_add, BitVec.toNat_ofInt, BitVec.toNat_ofInt,
      BitVec.toNat_ofNat]
    omega
  rw [hoff, BitVec.toInt_ofInt_eq_self (by decide) (by omega) (by omega)]

/-- A branch at an even address assembles where the distance is even and its offset fits the field. -/
theorem offset_num_isSome_iff {env : AsmEnv} {w : Nat} {a : Word} {d label : Int}
    (ha : a.toNat % 2 = 0) (hlabel : label = ((a.toNat : Int) + d) % 2 ^ 32)
    (hlo : -2 ^ 31 + 4 ≤ d) (hhi : d < 2 ^ 31) :
    (env.offset w a (.num label)).isSome ↔
      d % 2 = 0 ∧ -(2 ^ w : Int) ≤ d - 4 ∧ d - 4 < (2 ^ w : Int) := by
  subst hlabel
  have haddr : addressOf (((a.toNat : Int) + d) % 2 ^ 32) =
      some (BitVec.ofInt 32 (((a.toNat : Int) + d) % 2 ^ 32)) := if_pos (by omega)
  have hparity : (BitVec.ofInt 32 (((a.toNat : Int) + d) % 2 ^ 32)).toNat % 2 = 0 ↔ d % 2 = 0 := by
    rw [BitVec.toNat_ofInt]
    omega
  have hoffset : env.offset w a (.num (((a.toNat : Int) + d) % 2 ^ 32)) =
      offsetField w a (BitVec.ofInt 32 (((a.toNat : Int) + d) % 2 ^ 32)) := by
    simp only [AsmEnv.offset, AsmEnv.value, Option.bind_some, haddr]
  rw [hoffset, offsetField_isSome_iff, distance_toInt hlo hhi, hparity]
  exact and_iff_right ha

/-- Settles O51: the field of a branch holds half the distance to its label. -/
theorem assembledBranchReachesLabel : Obligations.AssembledBranchReachesLabel := by
  unfold Obligations.AssembledBranchReachesLabel
  refine ⟨fun env line e i s hline h => ?_, fun env a c d label ha hlabel hlo hhi => ?_,
    fun env a c e ha => ?_⟩
  · obtain ⟨c, rfl, hpass⟩ | rfl | rfl := hline
    · rw [assembleInstr_bCond] at h
      obtain ⟨f, hf, rfl⟩ := Option.map_eq_some_iff.mp h
      obtain ⟨v, hreach⟩ := branchTarget_of_offset (by decide) hf
      exact ⟨_, v, exec_bCond_taken hpass f, hreach⟩
    · rw [assembleInstr_b] at h
      obtain ⟨f, hf, rfl⟩ := Option.map_eq_some_iff.mp h
      obtain ⟨v, hreach⟩ := branchTarget_of_offset (by decide) hf
      exact ⟨_, v, rfl, hreach⟩
    · rw [assembleInstr_bl] at h
      obtain ⟨f, hf, rfl⟩ := Option.map_eq_some_iff.mp h
      obtain ⟨v, hreach⟩ := branchTarget_of_offset (by decide) hf
      exact ⟨_, v, exec_bl_halves s f, hreach⟩
  · simp only [assembleInstr_bCond, assembleInstr_b, assembleInstr_bl, Option.isSome_map,
      offset_num_isSome_iff ha hlabel hlo hhi]
    omega
  · simp only [assembleInstr_bCond, assembleInstr_b, assembleInstr_bl, offset_of_odd ha,
      Option.map_none, and_self]

/-! ### The end of the source -/

/-- A source that ends with `.end` leaves what the lines before it left, marked as ended. -/
theorem assembleLines_append_end (s : AsmState) (src after : List Line) :
    assembleLines s (src ++ .directive .endOfSource :: after) =
      (assembleLines s src).map fun t => { t with ended := true } := by
  rw [Laws.assembleLines_append]
  cases assembleLines s src with
  | none => rfl
  | some t => exact Laws.assembleLines_end t after

/-- `.end` changes no label, no position and no byte, so both passes assemble what they did without it. -/
theorem assemble_append_end (textBase dataBase : Nat) (src after : List Line) :
    assemble textBase dataBase (src ++ .directive .endOfSource :: after) =
      (assemble textBase dataBase src).map fun t => { t with ended := true } := by
  rw [assemble, assemble, assembleLines_append_end]
  cases assembleLines (.start textBase dataBase ⟨[], [], [], true⟩) src with
  | none => rfl
  | some s =>
    simp only [Option.map_some, assembleLines_append_end]
    cases assembleLines (.start textBase dataBase ⟨[], s.env.labels, [], false⟩) src with
    | none => rfl
    | some t =>
      have hfits : AsmState.fits { t with ended := true } textBase dataBase =
          t.fits textBase dataBase := rfl
      simp only [Option.map_some, hfits]
      split <;> rfl

/-- Settles O54: what is assembled up to `.end` is what is assembled. -/
theorem endOfSourceEndsAssembly : Obligations.EndOfSourceEndsAssembly := by
  unfold Obligations.EndOfSourceEndsAssembly
  refine ⟨fun tb db before after => ?_, fun tb db src s hs => ?_⟩
  · rw [assemble_append_end, assemble_append_end]
  · exact ⟨{ s with ended := true }, by rw [assemble_append_end, hs, Option.map_some], rfl, rfl⟩

end Sys2Proof.Proofs
end

section
/-! PROOF. The shapes that the statements about data processing are written in (`WritesOnly`, `WritesNZ`,
`JumpsTo`): that the model's writing tails have them, each with its frame. -/

namespace Sys2Proof.Proofs

open Sys2Proof Sys2Proof.Machine

/-! ### Frames -/

/-- One register and the flags written, and the PC advanced: nothing else changes. -/
theorem frame_setReg_withFlags (s : State) (rd : Reg) (v : Word) (f : Flags) :
    s.Frame (withFlags (s.setReg rd v) f).advance [rd] [] where
  regs r hpc hr := by
    rw [reg_advance _ hpc, reg_withFlags, reg_setReg_other _ _ (List.ne_of_not_mem_cons hr)]
  bytes a _ := byte_congr (by simp) a
  config := by simp

/-! ### A register written -/

theorem writesOnly_setReg (s : State) {rd : Reg} (hrd : rd ≠ Reg.pc) (v : Word) :
    s.WritesOnly (s.setReg rd v).advance rd v where
  result := by rw [reg_advance _ hrd, reg_setReg_same _ _ hrd]
  flags := by simp
  pc := by simp
  frame := by
    rw [← withFlags_self (s.setReg rd v)]
    exact frame_setReg_withFlags ..

/-! ### A low register written, with N and Z -/

/-- `SetNZ` leaves N and Z of its value (00_scope R12), whatever C and V are. -/
theorem nzOf_setNZ (r : Word) (c v : Bool) : Flags.NZOf ⟨r.getLsbD 31, r == 0#32, c, v⟩ r where
  n := (BitVec.msb_eq_getLsbD_last r).symm
  z := rfl

theorem writesNZ_writeLogic (s : State) (rd : LoReg) (r : Word) :
    s.WritesNZ (s.writeLogic rd r) rd r where
  result := lo_writeLogic_same s rd r
  nz := by
    rw [writeLogic_flags]
    exact nzOf_setNZ r _ _
  c := by rw [writeLogic_flags]
  v := by rw [writeLogic_flags]
  pc := writeLogic_pc s rd r
  frame := frame_setReg_withFlags s rd.reg r _

/-! ### The PC written -/

/-- Bit 0 of a value written to the PC is cleared (10_state R26). -/
theorem clearBit0_eq_and (v : Word) : clearBit0 v = v &&& ~~~1#32 :=
  (and_highMask (n := 31) (m := 1) v).symm

theorem jumpsTo_jump (s : State) (target : Word) : s.JumpsTo (s.jump target) target where
  pc := rfl
  flags := rfl
  frame :=
    { regs := fun _ hpc _ => reg_jump s target hpc
      bytes := fun _ _ => rfl
      config := rfl }

end Sys2Proof.Proofs
end

section
/-! PROOF. The moves (spec/40_move.md), and the form that the assembler picks for a line of `mov`, `add` or
`cmp` by the registers written (40 R101, R102; 41 R112, R113; 42 R131, R133). -/

namespace Sys2Proof.Proofs

open Sys2Proof Sys2Proof.Machine

/-! ### Moves between low registers -/

theorem exec_movLo (rd rm : LoReg) (s : State) :
    exec (.movLo rd rm) s = .next (s.writeLogic rd (s.lo rm)) := rfl

theorem exec_movImm (rd : LoReg) (imm8 : BitVec 8) (s : State) :
    exec (.movImm rd imm8) s = .next (s.writeLogic rd (immPlain imm8)) := rfl

/-- A shift by 0 gives the value and leaves the carry unchanged (44 R150). -/
theorem shiftC_zero (kind : ShiftKind) (v : Word) : shiftC kind v 0 = ⟨v, none⟩ := if_pos rfl

/-- Without a carry, a shift writes what a logical instruction does. -/
theorem writeShift_carry_none (s : State) (rd : LoReg) (r : Word) :
    s.writeShift rd ⟨r, none⟩ = s.writeLogic rd r := rfl

/-- `lsl Rd, Rm, #0` moves the register (30_encoding R90). -/
theorem exec_lslImm_zero (rd rm : LoReg) (s : State) :
    exec (.lslImm rd rm 0#5) s = .next (s.writeLogic rd (s.lo rm)) := by
  rw [← writeShift_carry_none, ← shiftC_zero .lsl]
  rfl

/-- Settles O16: an 8-bit immediate has bit 31 clear. -/
theorem movImmediate : Obligations.MovImmediate := by
  unfold Obligations.MovImmediate
  intro rd imm8 s
  have hwrites := writesNZ_writeLogic s rd (immPlain imm8)
  have hpos : (immPlain imm8).msb = false := by simp [immPlain, BitVec.msb_setWidth]
  refine ⟨rfl, _, exec_movImm rd imm8 s, ?_, hwrites.nz.n.trans hpos⟩
  rwa [← immPlain_eq]

/-- Settles O17: a shift by 0 leaves the carry, so both write the value with N and Z. -/
theorem movLowRegisters : Obligations.MovLowRegisters := by
  unfold Obligations.MovLowRegisters
  intro rd rm s
  have hword : word533 0b00000#5 0#5 rm rd = 0b0000000000#10 ++ rm ++ rd := rfl
  have hsame : exec (.movLo rd rm) s = exec (.lslImm rd rm 0#5) s := by
    rw [exec_movLo, exec_lslImm_zero]
  exact ⟨congrArg ([·]) hword, rfl, hsame, _, exec_movLo rd rm s, writesNZ_writeLogic ..⟩

/-! ### Moves with a high register -/

theorem exec_movHi_of_ne {rd : Reg} (hrd : rd ≠ Reg.pc) (rm : Reg) (s : State) :
    exec (.movHi rd rm) s = .next (s.setReg rd (s.reg rm)).advance := if_neg hrd

theorem exec_movHi_pc (rm : Reg) (s : State) :
    exec (.movHi Reg.pc rm) s = .next (s.jump (s.reg rm &&& ~~~1#32)) := by
  rw [← clearBit0_eq_and]
  rfl

/-- A format HIREG word with both registers low is not in the card (30_encoding R67, R92). -/
theorem decode_wordHiReg_low {rd rm : Reg} (hd : rd.isLow = true) (hm : rm.isLow = true)
    (op : BitVec 2) (hw2 : Half) :
    decode (wordHiReg op rd rm) hw2 = .error (.notInCard (wordHiReg op rd rm)) := by
  obtain ⟨htop, hbit10, -, hrd, hrm⟩ := slice_wordHiReg op rd rm
  have hlow : oneHigh rd rm = false := by rw [oneHigh, hd, hm]; rfl
  have hfirst : isBlFirst (wordHiReg op rd rm) = false := by rw [isBlFirst, htop]; rfl
  have hnone : decode16 (wordHiReg op rd rm) = none := by
    simp [decode16, htop, hbit10, decodeHiReg, hrd, hrm, hlow]
  simp [decode, hfirst, hnone]

/-- Settles O18: the PC as destination jumps, another is written; the PC as operand reads `a + 4`. -/
theorem movHighRegisters : Obligations.MovHighRegisters := by
  unfold Obligations.MovHighRegisters
  intro rd rm s
  refine ⟨rfl, fun hrd _ => ?_, fun hrd => ?_, fun _ => ?_, ?_, fun hd hm hw1 hw2 henc => ?_⟩
  · exact ⟨_, exec_movHi_of_ne hrd rm s, writesOnly_setReg s hrd _⟩
  · exact ⟨_, exec_movHi_of_ne hrd Reg.pc s, writesOnly_setReg s hrd _⟩
  · exact ⟨_, exec_movHi_pc rm s, jumpsTo_jump ..⟩
  · exact ⟨_, exec_movHi_pc Reg.pc s, jumpsTo_jump ..⟩
  · obtain rfl : wordHiReg 0b10#2 rd rm = hw1 := List.head_eq_of_cons_eq henc
    exact decode_wordHiReg_low hd hm _ _

/-! ### The form that the assembler picks -/

section
variable {env : AsmEnv} {x y : RegOp} {rd rm : Reg}

theorem assembleInstr_mov (hx : env.reg x = some rd) (hy : env.reg y = some rm) (a : Word) :
    assembleInstr env a (.mov x y) = some (pickMov rd rm) := by simp [assembleInstr, hx, hy]

theorem assembleInstr_add_same (hx : env.reg x = some rd) (hy : env.reg y = some rm) (a : Word) :
    assembleInstr env a (.add x x y) = pickAdd rd rd rm := by simp [assembleInstr, hx, hy]

theorem assembleInstr_cmp (hx : env.reg x = some rd) (hy : env.reg y = some rm) (a : Word) :
    assembleInstr env a (.cmp x y) = pickCmp rd rm := by simp [assembleInstr, hx, hy]

end

/-- An `add` with its destination written twice has both forms. -/
theorem pickAdd_same (rd rm : Reg) :
    pickAdd rd rd rm =
      some (if rd.isLow && rm.isLow then .addLo (rd.setWidth 3) (rd.setWidth 3) (rm.setWidth 3)
        else .addHi rd rm) := by
  rw [pickAdd, Bool.and_self, if_pos rfl]
  split <;> rfl

/-- The low register of a field cut from a low register's number is that register. -/
theorem lo_setWidth_of_isLow {r : Reg} (h : r.isLow = true) (s : State) :
    s.lo (r.setWidth 3) = s.reg r := by
  have hlt : r.toNat < 8 := of_decide_eq_true h
  have hreg : LoReg.reg (r.setWidth 3) = r := by
    refine BitVec.eq_of_toNat_eq ?_
    rw [LoReg.reg_toNat, BitVec.toNat_setWidth]
    omega
  rw [State.lo, hreg]

/-- `mov` with a high register answers a next state and writes no flag (40 R102). -/
theorem exec_movHi_flags (rd rm : Reg) (s : State) :
    ∃ t, exec (.movHi rd rm) s = .next t ∧ t.flags = s.flags := by
  by_cases hrd : rd = Reg.pc
  · subst hrd
    exact ⟨_, exec_movHi_pc rm s, jump_flags ..⟩
  · exact ⟨_, exec_movHi_of_ne hrd rm s, (writesOnly_setReg s hrd _).flags⟩

/-- The form picked for a `mov` writes N and Z exactly where both registers are low. -/
theorem exec_pickMov_flags (rd rm : Reg) (s : State) :
    ∃ t, exec (pickMov rd rm) s = .next t ∧
      ((rd.isLow && rm.isLow) = false → t.flags = s.flags) ∧
      ((rd.isLow && rm.isLow) = true →
        t.flags.NZOf (s.reg rm) ∧ t.flags.c = s.flags.c ∧ t.flags.v = s.flags.v) := by
  cases hlow : rd.isLow && rm.isLow with
  | false =>
    obtain ⟨t, hexec, hflags⟩ := exec_movHi_flags rd rm s
    rw [pickMov, hlow]
    exact ⟨t, hexec, fun _ => hflags, nofun⟩
  | true =>
    obtain ⟨-, hrm⟩ := Bool.and_eq_true_iff.mp hlow
    have hwrites := writesNZ_writeLogic s (rd.setWidth 3) (s.lo (rm.setWidth 3))
    refine ⟨_, by rw [pickMov, if_pos hlow]; exact exec_movLo .., nofun, fun _ => ?_⟩
    exact ⟨lo_setWidth_of_isLow hrm s ▸ hwrites.nz, hwrites.c, hwrites.v⟩

/-- Settles O53: the three lines are picked by their registers, and a `mov` runs as the form picked. -/
theorem registersPickTheForm : Obligations.RegistersPickTheForm := by
  unfold Obligations.RegistersPickTheForm
  intro env a x y rd rm hx hy
  refine ⟨assembleInstr_mov hx hy a, ?_, assembleInstr_cmp hx hy a, fun i s hi => ?_⟩
  · rw [assembleInstr_add_same hx hy, pickAdd_same]
  · obtain rfl : pickMov rd rm = i := Option.some.inj ((assembleInstr_mov hx hy a).symm.trans hi)
    exact exec_pickMov_flags rd rm s

end Sys2Proof.Proofs
end

section
/-! PROOF. `AddWithCarry` as arithmetic on whole values (00_scope R11; 41 R121): its result, and the flags
that it leaves, for a sum and for a difference. -/

namespace Sys2Proof.Proofs

open Sys2Proof Sys2Proof.Machine

/-! ### `AddWithCarry` -/

/-- C says that the unsigned sum needs a 33rd bit. -/
theorem addWithCarry_carry (x y : Word) (cin : Bool) :
    (addWithCarry x y cin).carry = decide (2 ^ 32 ≤ x.toNat + y.toNat + cin.toNat) := by
  refine decide_eq_decide.mpr ?_
  rw [BitVec.toNat_ofNat]
  omega

/-- The result read as a signed number is the exact signed sum, wrapped. -/
theorem addWithCarry_toInt (x y : Word) (cin : Bool) :
    (addWithCarry x y cin).result.toInt = (x.toInt + y.toInt + (cin.toNat : Int)).bmod (2 ^ 32) := by
  have hexact : (addWithCarry x y cin).result.toInt =
      ((x.toNat + y.toNat + cin.toNat : Nat) : Int).bmod (2 ^ 32) := BitVec.toInt_ofNat' _
  rw [hexact, add_assoc x.toInt, BitVec.toInt_eq_toNat_bmod x, BitVec.toInt_eq_toNat_bmod y,
    Int.bmod_add_bmod, add_left_comm, Int.bmod_add_bmod]
  congr 1
  omega

/-- A number is changed by wrapping exactly when it does not fit in 32 signed bits. -/
theorem bmod_ne_self_iff (i : Int) : i.bmod (2 ^ 32) ≠ i ↔ i < -2 ^ 31 ∨ 2 ^ 31 ≤ i := by
  rw [Int.bmod_def]
  omega

/-- V says that the signed sum does not fit in 32 bits. -/
theorem addWithCarry_overflow (x y : Word) (cin : Bool) :
    (addWithCarry x y cin).overflow =
      decide (x.toInt + y.toInt + (cin.toNat : Int) < -2 ^ 31 ∨
        2 ^ 31 ≤ x.toInt + y.toInt + (cin.toNat : Int)) := by
  refine decide_eq_decide.mpr ?_
  rw [← bmod_ne_self_iff, ← addWithCarry_toInt]
  rfl

theorem addWithCarry_comm (x y : Word) (cin : Bool) : addWithCarry x y cin = addWithCarry y x cin := by
  rw [addWithCarry, addWithCarry, Nat.add_comm x.toNat, Int.add_comm x.toInt]

/-! ### A sum -/

theorem addFlags_result (x y : Word) : (addFlags x y).result = x + y := rfl

/-- An addition leaves the flags of the sum (41 R110). -/
theorem sumOf_setNZCV (s : State) (x y : Word) : (s.setNZCV (addFlags x y)).flags.SumOf x y where
  nz := nzOf_setNZ (x + y) _ _
  c := addWithCarry_carry x y false
  v := by
    rw [setNZCV_flags, addFlags, addWithCarry_overflow, Bool.toNat_false, Nat.cast_zero, add_zero]

/-! ### A difference -/

/-- The complement as a signed number: `NOT y` is `-y - 1`. -/
theorem toInt_complement (y : Word) : (~~~y).toInt = -y.toInt - 1 := by
  rw [BitVec.toInt_eq_toNat_cond, BitVec.toInt_eq_toNat_cond, BitVec.toNat_not]
  omega

/-- Adding the complement and 1 subtracts. -/
theorem subFlags_result (x y : Word) : (subFlags x y).result = x - y := by
  refine BitVec.eq_of_toInt_eq ?_
  rw [subFlags, addWithCarry_toInt, toInt_complement, BitVec.toInt_sub, Bool.toNat_true]
  congr 1
  omega

/-- A subtraction leaves the flags of the difference: no borrow is the carry of the sum with the
complement (41 R116). -/
theorem diffOf_setNZCV (s : State) (x y : Word) :
    (s.setNZCV (subFlags x y)).flags.DiffOf x y where
  nz := by
    rw [← subFlags_result]
    exact nzOf_setNZ _ _ _
  c := by
    rw [setNZCV_flags, subFlags, addWithCarry_carry, BitVec.toNat_not, Bool.toNat_true]
    refine decide_eq_decide.mpr ?_
    omega
  v := by
    have hdiff : x.toInt + (~~~y).toInt + ((true.toNat : Nat) : Int) = x.toInt - y.toInt := by
      rw [toInt_complement, Bool.toNat_true]
      omega
    rw [setNZCV_flags, subFlags, addWithCarry_overflow, hdiff]

end Sys2Proof.Proofs
end

section
/-! PROOF. Add, subtract, negate (spec/41_add_sub.md): what each form writes, through the shapes of the
writing tails. -/

namespace Sys2Proof.Proofs

open Sys2Proof Sys2Proof.Machine

/-! ### A low register written, with all four flags -/

theorem writesSum_writeAdd (s : State) (rd : LoReg) (x y : Word) :
    s.WritesSum (s.writeAdd rd (addFlags x y)) rd x y where
  result := (lo_writeAdd_same s rd _).trans (addFlags_result x y)
  flags := sumOf_setNZCV s x y
  pc := writeAdd_pc s rd _
  frame := frame_setReg_withFlags s rd.reg _ _

theorem writesDiff_writeAdd (s : State) (rd : LoReg) (x y : Word) :
    s.WritesDiff (s.writeAdd rd (subFlags x y)) rd x y where
  result := (lo_writeAdd_same s rd _).trans (subFlags_result x y)
  flags := diffOf_setNZCV s x y
  pc := writeAdd_pc s rd _
  frame := frame_setReg_withFlags s rd.reg _ _

/-! ### Additions and subtractions of low registers -/

theorem exec_addImm3 (rd rn : LoReg) (imm3 : BitVec 3) (s : State) :
    exec (.addImm3 rd rn imm3) s = .next (s.writeAdd rd (addFlags (s.lo rn) (immPlain imm3))) := rfl

theorem exec_addImm8 (rd : LoReg) (imm8 : BitVec 8) (s : State) :
    exec (.addImm8 rd imm8) s = .next (s.writeAdd rd (addFlags (s.lo rd) (immPlain imm8))) := rfl

theorem exec_addLo (rd rn rm : LoReg) (s : State) :
    exec (.addLo rd rn rm) s = .next (s.writeAdd rd (addFlags (s.lo rn) (s.lo rm))) := rfl

theorem exec_subImm3 (rd rn : LoReg) (imm3 : BitVec 3) (s : State) :
    exec (.subImm3 rd rn imm3) s = .next (s.writeAdd rd (subFlags (s.lo rn) (immPlain imm3))) := rfl

theorem exec_subImm8 (rd : LoReg) (imm8 : BitVec 8) (s : State) :
    exec (.subImm8 rd imm8) s = .next (s.writeAdd rd (subFlags (s.lo rd) (immPlain imm8))) := rfl

theorem exec_subLo (rd rn rm : LoReg) (s : State) :
    exec (.subLo rd rn rm) s = .next (s.writeAdd rd (subFlags (s.lo rn) (s.lo rm))) := rfl

/-- `neg` adds 0 to the complement, which is the subtraction from 0 (41 R120). -/
theorem exec_neg (rd rn : LoReg) (s : State) :
    exec (.neg rd rn) s = .next (s.writeAdd rd (subFlags 0#32 (s.lo rn))) := by
  rw [subFlags, addWithCarry_comm]
  rfl

/-- Settles O19: each form writes the sum of its operands, an immediate extended with zeros. -/
theorem addLowForms : Obligations.AddLowForms := by
  unfold Obligations.AddLowForms
  refine ⟨fun rd rn imm3 s => ⟨rfl, _, exec_addImm3 rd rn imm3 s, ?_⟩,
    fun rd imm8 s => ⟨rfl, _, exec_addImm8 rd imm8 s, ?_⟩,
    fun rd rn rm s => ⟨rfl, _, exec_addLo rd rn rm s, writesSum_writeAdd ..⟩⟩
  · exact immPlain_eq imm3 ▸ writesSum_writeAdd ..
  · exact immPlain_eq imm8 ▸ writesSum_writeAdd ..

/-- Settles O20: each form writes the difference of its operands, `neg` that of 0 and its operand. -/
theorem subtractLowForms : Obligations.SubtractLowForms := by
  unfold Obligations.SubtractLowForms
  refine ⟨fun rd rn imm3 s => ⟨rfl, _, exec_subImm3 rd rn imm3 s, ?_⟩,
    fun rd imm8 s => ⟨rfl, _, exec_subImm8 rd imm8 s, ?_⟩,
    fun rd rn rm s => ⟨rfl, _, exec_subLo rd rn rm s, writesDiff_writeAdd ..⟩,
    fun rd rn s => ⟨rfl, _, exec_neg rd rn s, writesDiff_writeAdd ..⟩⟩
  · exact immPlain_eq imm3 ▸ writesDiff_writeAdd ..
  · exact immPlain_eq imm8 ▸ writesDiff_writeAdd ..

/-! ### Additions with a high register -/

theorem exec_addHi_of_ne {rd : Reg} (hrd : rd ≠ Reg.pc) (rm : Reg) (s : State) :
    exec (.addHi rd rm) s = .next (s.setReg rd (s.reg rd + s.reg rm)).advance :=
  (if_neg fun hpc => hrd hpc.1).trans (if_neg hrd)

theorem exec_addHi_pc {rm : Reg} (hrm : rm ≠ Reg.pc) (s : State) :
    exec (.addHi Reg.pc rm) s = .next (s.jump ((s.pc + 4#32 + s.reg rm) &&& ~~~1#32)) := by
  rw [← clearBit0_eq_and]
  exact if_neg fun hpc => hrm hpc.2

theorem exec_addHi_pc_pc (s : State) :
    exec (.addHi Reg.pc Reg.pc) s = .refused (.unpredictable .addPcPcPc) := rfl

/-- Settles O21: the PC as destination jumps unless it is also the operand, another is written; the PC
as operand reads `a + 4`. -/
theorem addHighRegisters : Obligations.AddHighRegisters := by
  unfold Obligations.AddHighRegisters
  intro rd rm s
  refine ⟨rfl, fun hrd _ => ?_, fun hrd => ?_, fun hrm => ?_, exec_addHi_pc_pc s,
    fun hd hm hw1 hw2 henc => ?_⟩
  · exact ⟨_, exec_addHi_of_ne hrd rm s, writesOnly_setReg s hrd _⟩
  · exact ⟨_, exec_addHi_of_ne hrd Reg.pc s, writesOnly_setReg s hrd _⟩
  · exact ⟨_, exec_addHi_pc hrm s, jumpsTo_jump ..⟩
  · obtain rfl : wordHiReg 0b00#2 rd rm = hw1 := List.head_eq_of_cons_eq henc
    exact decode_wordHiReg_low hd hm _ _

/-! ### The stack pointer -/

theorem exec_addSp (imm7 : BitVec 7) (s : State) :
    exec (.addSp imm7) s = .next (s.setReg Reg.sp (s.reg Reg.sp + immWords imm7)).advance := rfl

theorem exec_addRdSp (rd : LoReg) (imm8 : BitVec 8) (s : State) :
    exec (.addRdSp rd imm8) s = .next (s.setReg rd.reg (s.reg Reg.sp + immWords imm8)).advance := rfl

theorem exec_subSp (imm7 : BitVec 7) (s : State) :
    exec (.subSp imm7) s = .next (s.setReg Reg.sp (s.reg Reg.sp - immWords imm7)).advance := rfl

/-- Settles O22: each form writes one register, its immediate counted in words. -/
theorem stackPointerArithmetic : Obligations.StackPointerArithmetic := by
  unfold Obligations.StackPointerArithmetic
  have hsp : Reg.sp ≠ Reg.pc := by decide
  refine ⟨fun imm7 s => ⟨rfl, _, exec_addSp imm7 s, ?_⟩,
    fun rd imm8 s => ⟨rfl, _, exec_addRdSp rd imm8 s, ?_⟩,
    fun imm7 s => ⟨rfl, _, exec_subSp imm7 s, ?_⟩⟩
  · exact immWords_eq imm7 ▸ writesOnly_setReg s hsp _
  · exact immWords_eq imm8 ▸ writesOnly_setReg s (LoReg.reg_ne_pc rd) _
  · exact immWords_eq imm7 ▸ writesOnly_setReg s hsp _

end Sys2Proof.Proofs
end

section
/-! PROOF. Multiply and compare (spec/42_multiply_compare.md): what `mul` writes, and that a compare writes
its flags and nothing else. -/

namespace Sys2Proof.Proofs

open Sys2Proof Sys2Proof.Machine

/-! ### Multiply -/

/-- `mul` writes its product as a logical instruction writes its result. -/
theorem exec_mul (rd rm : LoReg) (s : State) :
    exec (.mul rd rm) s = .next (s.writeLogic rd (s.lo rm * s.lo rd)) := by
  rw [BitVec.mul_def]
  rfl

/-- Settles O23: the product is written with N and Z, and is taken modulo 2^32. -/
theorem multiplyLowWord : Obligations.MultiplyLowWord := by
  unfold Obligations.MultiplyLowWord
  intro rd rm s
  have hwrites := writesNZ_writeLogic s rd (s.lo rm * s.lo rd)
  refine ⟨rfl, _, exec_mul rd rm s, hwrites, ?_⟩
  rw [hwrites.result, BitVec.toNat_mul]

/-! ### Compare -/

/-- The flags written and the PC advanced: no register and no byte changes (42 R132). -/
theorem frame_withFlags (s : State) (f : Flags) : s.Frame (withFlags s f).advance [] [] where
  regs _ hpc _ := reg_advance _ hpc
  bytes _ _ := rfl
  config := rfl

theorem frame_setNZCV (s : State) (a : AddResult) : s.Frame (s.setNZCV a).advance [] [] :=
  frame_withFlags s (s.setNZCV a).flags

theorem exec_cmpLo (rn rm : LoReg) (s : State) :
    exec (.cmpLo rn rm) s = .next (s.setNZCV (subFlags (s.lo rn) (s.lo rm))).advance := rfl

theorem exec_cmpHi_of_ne {rn rm : Reg} (hrn : rn ≠ Reg.pc) (hrm : rm ≠ Reg.pc) (s : State) :
    exec (.cmpHi rn rm) s = .next (s.setNZCV (subFlags (s.reg rn) (s.reg rm))).advance :=
  if_neg (not_or.mpr ⟨hrn, hrm⟩)

theorem exec_cmpHi_pc {rn rm : Reg} (h : rn = Reg.pc ∨ rm = Reg.pc) (s : State) :
    exec (.cmpHi rn rm) s = .refused (.unpredictable .cmpWithPc) := if_pos h

theorem exec_cmpImm (rn : LoReg) (imm8 : BitVec 8) (s : State) :
    exec (.cmpImm rn imm8) s =
      .next (s.setNZCV (subFlags (s.lo rn) (BitVec.ofNat 32 imm8.toNat))).advance := by
  rw [← immPlain_eq]
  rfl

theorem exec_cmn (rn rm : LoReg) (s : State) :
    exec (.cmn rn rm) s = .next (s.setNZCV (addFlags (s.lo rn) (s.lo rm))).advance := rfl

/-- Settles O24: each form leaves the flags of the difference of its operands, `cmn` those of the sum,
and changes nothing else but the PC. -/
theorem compareForms : Obligations.CompareForms := by
  unfold Obligations.CompareForms
  refine ⟨fun rn rm s => ⟨rfl, _, exec_cmpLo rn rm s, diffOf_setNZCV s _ _, rfl, frame_setNZCV ..⟩,
    fun rn rm s => ⟨rfl, fun hrn hrm => ?_, fun hpc => exec_cmpHi_pc hpc s,
      fun hn hm hw1 hw2 henc => ?_⟩,
    fun rn imm8 s => ⟨rfl, _, exec_cmpImm rn imm8 s, diffOf_setNZCV s _ _, rfl, frame_setNZCV ..⟩,
    fun rn rm s => ⟨rfl, _, exec_cmn rn rm s, sumOf_setNZCV s _ _, rfl, frame_setNZCV ..⟩⟩
  · exact ⟨_, exec_cmpHi_of_ne hrn hrm s, diffOf_setNZCV s _ _, rfl, frame_setNZCV ..⟩
  · obtain rfl : wordHiReg 0b01#2 rn rm = hw1 := List.head_eq_of_cons_eq henc
    exact decode_wordHiReg_low hn hm _ _

end Sys2Proof.Proofs
end

section
/-! PROOF. The logical instructions (spec/43_logic.md): five write their result through the tail of R140 to
R144, and `tst` writes N and Z alone. -/

namespace Sys2Proof.Proofs

open Sys2Proof Sys2Proof.Machine

/-! ### The forms that write a register -/

theorem exec_andReg (rd rm : LoReg) (s : State) :
    exec (.andReg rd rm) s = .next (s.writeLogic rd (s.lo rd &&& s.lo rm)) := rfl

theorem exec_bicReg (rd rm : LoReg) (s : State) :
    exec (.bicReg rd rm) s = .next (s.writeLogic rd (s.lo rd &&& ~~~(s.lo rm))) := rfl

theorem exec_orrReg (rd rm : LoReg) (s : State) :
    exec (.orrReg rd rm) s = .next (s.writeLogic rd (s.lo rd ||| s.lo rm)) := rfl

theorem exec_eorReg (rd rm : LoReg) (s : State) :
    exec (.eorReg rd rm) s = .next (s.writeLogic rd (s.lo rd ^^^ s.lo rm)) := rfl

theorem exec_mvnReg (rd rm : LoReg) (s : State) :
    exec (.mvnReg rd rm) s = .next (s.writeLogic rd (~~~(s.lo rm))) := rfl

/-! ### The test of bits -/

theorem exec_tst (rn rm : LoReg) (s : State) :
    exec (.tst rn rm) s = .next (s.setNZ (s.lo rn &&& s.lo rm)).advance := rfl

/-- `SetNZ` and the advance of the PC: no register and no byte changes (43 R145). -/
theorem frame_setNZ (s : State) (r : Word) : s.Frame (s.setNZ r).advance [] [] :=
  frame_withFlags s (s.setNZ r).flags

/-- Settles O26: the five forms with a destination write their result with N and Z and nothing else, and
`tst` writes N and Z of the conjunction with the frame of no register. -/
theorem logicForms : Obligations.LogicForms := by
  unfold Obligations.LogicForms
  intro rd rm s
  exact ⟨⟨rfl, _, exec_andReg rd rm s, writesNZ_writeLogic ..⟩,
    ⟨rfl, _, exec_bicReg rd rm s, writesNZ_writeLogic ..⟩,
    ⟨rfl, _, exec_orrReg rd rm s, writesNZ_writeLogic ..⟩,
    ⟨rfl, _, exec_eorReg rd rm s, writesNZ_writeLogic ..⟩,
    ⟨rfl, _, exec_mvnReg rd rm s, writesNZ_writeLogic ..⟩,
    ⟨rfl, _, exec_tst rd rm s, nzOf_setNZ .., rfl, rfl, rfl, frame_setNZ ..⟩⟩

end Sys2Proof.Proofs
end

section
/-! PROOF. `Shift_C` as arithmetic on whole values (spec/44_shift.md, R150): each column of its table is one
shift of the word whatever the amount, and its carry is the last bit shifted out. -/

namespace Sys2Proof.Proofs

open Sys2Proof Sys2Proof.Machine

/-! ### A bit as arithmetic -/

theorem getLsbD_eq_decide_div (v : Word) (i : Nat) :
    v.getLsbD i = decide (v.toNat / 2 ^ i % 2 = 1) := Nat.testBit_eq_decide_div_mod_eq

/-- The bit that a left shift by `n` places moves to place 32. -/
theorem decide_mul_pow_div (v : Word) (n : Nat) :
    decide (v.toNat * 2 ^ n / 2 ^ 32 % 2 = 1) = (decide (n ≤ 32) && v.getLsbD (32 - n)) := by
  rw [← Nat.testBit_eq_decide_div_mod_eq, ← Nat.shiftLeft_eq, Nat.testBit_shiftLeft]
  rfl

/-- Bit 0 is the parity of the signed value. -/
theorem getLsbD_zero_eq_decide_toInt (v : Word) : v.getLsbD 0 = decide (v.toInt % 2 = 1) := by
  rw [getLsbD_eq_decide_div]
  refine decide_eq_decide.mpr ?_
  rw [BitVec.toInt_eq_toNat_cond]
  omega

theorem toInt_sshiftRight_eq_div (v : Word) (n : Nat) :
    (v.sshiftRight n).toInt = v.toInt / 2 ^ n := by
  rw [BitVec.toInt_sshiftRight, Int.shiftRight_eq_div_pow, Nat.cast_pow, Nat.cast_ofNat]

/-- Bit `n` of a word continued upwards with its sign. -/
theorem decide_toInt_div (v : Word) (n : Nat) :
    decide (v.toInt / 2 ^ n % 2 = 1) = if n < 32 then v.getLsbD n else v.msb := by
  rw [← toInt_sshiftRight_eq_div, ← getLsbD_zero_eq_decide_toInt, BitVec.getLsbD_sshiftRight]
  simp

theorem getLsbD_rotateRight_mod (v : Word) (n : Nat) {i : Nat} (hi : i < 32) :
    (v.rotateRight n).getLsbD i = v.getLsbD ((i + n) % 32) := by
  rw [BitVec.getLsbD_rotateRight, decide_eq_true hi, Bool.true_and]
  by_cases hwrap : i < 32 - n % 32
  · have hplace : n % 32 + i = (i + n) % 32 := by omega
    rw [decide_eq_true hwrap, cond_true, hplace]
  · have hplace : i - (32 - n % 32) = (i + n) % 32 := by omega
    rw [decide_eq_false hwrap, cond_false, hplace]

/-! ### The columns of the table, for every amount but 0 -/

/-- An arithmetic shift by all 32 places or more leaves copies of the sign. -/
theorem sshiftRight_eq_signWord (v : Word) {n : Nat} (hn : 32 ≤ n) :
    v.sshiftRight n = signWord v := by
  rw [signWord, ← BitVec.msb_eq_getLsbD_last v]
  cases hsign : v.msb with
  | false => rw [BitVec.sshiftRight_eq_of_msb_false hsign, BitVec.ushiftRight_eq_zero hn]; rfl
  | true => rw [BitVec.sshiftRight_eq_of_msb_true hsign, BitVec.ushiftRight_eq_zero hn]; rfl

theorem shiftC_lsl (v : Word) {n : Nat} (hn : n ≠ 0) :
    shiftC .lsl v n = ⟨v <<< n, some (decide (n ≤ 32) && v.getLsbD (32 - n))⟩ := by
  simp only [shiftC, if_neg hn]
  split_ifs with h31 h32
  · rw [decide_eq_true (by omega : n ≤ 32), Bool.true_and]
  · subst h32
    rw [BitVec.shiftLeft_eq_zero le_rfl]
    rfl
  · rw [BitVec.shiftLeft_eq_zero (by omega), decide_eq_false (by omega : ¬ n ≤ 32), Bool.false_and]

theorem shiftC_lsr (v : Word) {n : Nat} (hn : n ≠ 0) :
    shiftC .lsr v n = ⟨v >>> n, some (v.getLsbD (n - 1))⟩ := by
  simp only [shiftC, if_neg hn]
  split_ifs with h31 h32
  · rfl
  · subst h32
    rw [BitVec.ushiftRight_eq_zero le_rfl]
  · rw [BitVec.ushiftRight_eq_zero (by omega), BitVec.getLsbD_of_ge v (n - 1) (by omega)]

theorem shiftC_asr (v : Word) {n : Nat} (hn : n ≠ 0) :
    shiftC .asr v n =
      ⟨v.sshiftRight n, some (if n - 1 < 32 then v.getLsbD (n - 1) else v.msb)⟩ := by
  simp only [shiftC, if_neg hn]
  split_ifs with h31 hlast
  · rfl
  · omega
  · obtain rfl : n = 32 := by omega
    rw [sshiftRight_eq_signWord v le_rfl]
  · rw [sshiftRight_eq_signWord v (by omega), BitVec.msb_eq_getLsbD_last]

theorem shiftC_ror (v : Word) {n : Nat} (hn : n ≠ 0) :
    shiftC .ror v n = ⟨v.rotateRight n, some (v.rotateRight n).msb⟩ := by
  rw [BitVec.msb_eq_getLsbD_last, getLsbD_rotateRight_mod v n (by omega)]
  simp only [shiftC, if_neg hn, BitVec.rotateRight_mod_eq_rotateRight]
  split_ifs with hturn
  · have hself : v.rotateRight n = v := by
      refine BitVec.eq_of_getLsbD_eq fun i hi => ?_
      have hplace : (i + n) % 32 = i := by omega
      rw [getLsbD_rotateRight_mod v n hi, hplace]
    have hplace : (32 - 1 + n) % 32 = 31 := by omega
    rw [hself, hplace]
  · have hplace : (32 - 1 + n) % 32 = n % 32 - 1 := by omega
    rw [hplace]

/-! ### The law of the four kinds -/

theorem shiftLaw_zero (kind : ShiftKind) (v : Word) : ShiftLaw kind v 0 ⟨v, none⟩ := by
  cases kind with
  | lsl => exact ⟨by rw [pow_zero, mul_one, Nat.mod_eq_of_lt v.isLt], rfl⟩
  | lsr => exact ⟨by rw [pow_zero, Nat.div_one], rfl⟩
  | asr => exact ⟨by rw [pow_zero, Int.ediv_one], rfl⟩
  | ror => exact ⟨fun i hi => by rw [Nat.add_zero, Nat.mod_eq_of_lt hi], rfl⟩

/-- `Shift_C` is arithmetic on the whole value, and its carry the last bit shifted out (44 R150). -/
theorem shiftLaw_shiftC (kind : ShiftKind) (v : Word) (n : Nat) :
    ShiftLaw kind v n (shiftC kind v n) := by
  by_cases hn : n = 0
  · rw [hn, shiftC_zero]
    exact shiftLaw_zero kind v
  cases kind with
  | lsl =>
    rw [ShiftLaw, shiftC_lsl v hn, if_neg hn, decide_mul_pow_div]
    exact ⟨by rw [BitVec.toNat_shiftLeft, Nat.shiftLeft_eq], rfl⟩
  | lsr =>
    rw [ShiftLaw, shiftC_lsr v hn, if_neg hn, getLsbD_eq_decide_div]
    exact ⟨by rw [BitVec.toNat_ushiftRight, Nat.shiftRight_eq_div_pow], rfl⟩
  | asr =>
    rw [ShiftLaw, shiftC_asr v hn, if_neg hn, decide_toInt_div]
    exact ⟨toInt_sshiftRight_eq_div v n, rfl⟩
  | ror =>
    rw [ShiftLaw, shiftC_ror v hn, if_neg hn]
    exact ⟨fun i hi => getLsbD_rotateRight_mod v n hi, rfl⟩

end Sys2Proof.Proofs
end

section
/-! PROOF. The shifts and rotates (spec/44_shift.md): what each form writes, and how the assembler takes an
amount of 0. -/

namespace Sys2Proof.Proofs

open Sys2Proof Sys2Proof.Machine

/-! ### A low register written, with N, Z and the carry shifted out -/

theorem writesShift_writeShift (s : State) (rd : LoReg) (kind : ShiftKind) (v : Word) (n : Nat) :
    s.WritesShift (s.writeShift rd (shiftC kind v n)) rd kind v n where
  value := ⟨shiftC kind v n, shiftLaw_shiftC kind v n, lo_writeShift_same .., by
    rw [writeShift_flags]⟩
  nz := by
    rw [writeShift_flags, lo_writeShift_same]
    exact nzOf_setNZ ..
  v := by rw [writeShift_flags]
  pc := writeShift_pc ..
  frame := frame_setReg_withFlags s rd.reg ..

/-! ### The amounts -/

/-- A field of 0 is an amount of 32 (30_encoding R91, INFERRED there). -/
theorem rightShiftAmount_eq (imm5 : BitVec 5) :
    rightShiftAmount imm5 = if imm5.toNat = 0 then 32 else imm5.toNat :=
  if_congr (BitVec.toNat_inj (y := 0#5)).symm rfl rfl

/-- The amount by register is the low byte of `Rs` (44, "Shifts by register"). -/
theorem shiftAmount_eq (s : State) (rs : LoReg) : s.shiftAmount rs = (s.lo rs).toNat % 256 := by
  rw [State.shiftAmount, BitVec.extractLsb'_toNat, Nat.shiftRight_zero]

/-! ### The shifts by immediate -/

theorem exec_lslImm (rd rm : LoReg) (imm5 : BitVec 5) (s : State) :
    exec (.lslImm rd rm imm5) s = .next (s.writeShift rd (shiftC .lsl (s.lo rm) imm5.toNat)) := rfl

theorem exec_lsrImm (rd rm : LoReg) (imm5 : BitVec 5) (s : State) :
    exec (.lsrImm rd rm imm5) s =
      .next (s.writeShift rd (shiftC .lsr (s.lo rm) (rightShiftAmount imm5))) := rfl

theorem exec_asrImm (rd rm : LoReg) (imm5 : BitVec 5) (s : State) :
    exec (.asrImm rd rm imm5) s =
      .next (s.writeShift rd (shiftC .asr (s.lo rm) (rightShiftAmount imm5))) := rfl

/-! ### The lines of the shifts by immediate -/

theorem low_num (env : AsmEnv) (r : LoReg) : env.low (.num r.reg) = some r := by
  have hlow : r.reg.isLow = true := decide_eq_true (LoReg.reg_lt r)
  have hfield : r.reg.setWidth 3 = r := BitVec.setWidth_setWidth_of_le r (by decide)
  simp only [AsmEnv.low, AsmEnv.reg, hlow, if_true, hfield]

/-- A number in the range of its field is taken as it is (30_encoding R81). -/
theorem imm_num_toNat (env : AsmEnv) {w : Nat} (x : BitVec w) :
    env.imm w 1 (.num x.toNat) = some x := by
  have hrange : (0 : Int) ≤ x.toNat ∧ (x.toNat : Int) % (1 : Nat) = 0 ∧
      (x.toNat : Int) / (1 : Nat) < 2 ^ w :=
    ⟨Int.natCast_nonneg _, Int.emod_one _, by rw [Nat.cast_one, Int.ediv_one]; exact_mod_cast x.isLt⟩
  refine (if_pos hrange).trans (congrArg some ?_)
  rw [Nat.cast_one, Int.ediv_one, Int.toNat_natCast, BitVec.ofNat_toNat, BitVec.setWidth_eq]

theorem assembleInstr_shiftImm (env : AsmEnv) (a : Word) (rd rm : LoReg) (imm5 : BitVec 5) :
    assembleInstr env a (.lslImm (.num rd.reg) (.num rm.reg) (.num imm5.toNat)) =
        some (shiftImm (.lslImm rd rm) rd rm imm5) ∧
      assembleInstr env a (.lsrImm (.num rd.reg) (.num rm.reg) (.num imm5.toNat)) =
        some (shiftImm (.lsrImm rd rm) rd rm imm5) ∧
      assembleInstr env a (.asrImm (.num rd.reg) (.num rm.reg) (.num imm5.toNat)) =
        some (shiftImm (.asrImm rd rm) rd rm imm5) := by
  simp [assembleInstr, low_num, imm_num_toNat]

/-- Settles O28: each form writes the shift by its amount, and an amount of 0 is assembled as a move. -/
theorem shiftImmediateForms : Obligations.ShiftImmediateForms := by
  unfold Obligations.ShiftImmediateForms
  intro rd rm imm5 s
  rw [← rightShiftAmount_eq imm5]
  exact ⟨⟨rfl, _, exec_lslImm rd rm imm5 s, writesShift_writeShift ..⟩,
    ⟨rfl, _, exec_lsrImm rd rm imm5 s, writesShift_writeShift ..⟩,
    ⟨rfl, _, exec_asrImm rd rm imm5 s, writesShift_writeShift ..⟩,
    fun env a => ⟨rfl, assembleInstr_shiftImm env a rd rm imm5⟩⟩

/-! ### The shifts and the rotate by register -/

theorem exec_lslReg (rd rs : LoReg) (s : State) :
    exec (.lslReg rd rs) s =
      .next (s.writeShift rd (shiftC .lsl (s.lo rd) (s.shiftAmount rs))) := rfl

theorem exec_lsrReg (rd rs : LoReg) (s : State) :
    exec (.lsrReg rd rs) s =
      .next (s.writeShift rd (shiftC .lsr (s.lo rd) (s.shiftAmount rs))) := rfl

theorem exec_asrReg (rd rs : LoReg) (s : State) :
    exec (.asrReg rd rs) s =
      .next (s.writeShift rd (shiftC .asr (s.lo rd) (s.shiftAmount rs))) := rfl

theorem exec_rorReg (rd rs : LoReg) (s : State) :
    exec (.rorReg rd rs) s =
      .next (s.writeShift rd (shiftC .ror (s.lo rd) (s.shiftAmount rs))) := rfl

/-- Settles O29: each form writes the shift of its destination by the low byte of `Rs`, both read before
the write. -/
theorem shiftRegisterForms : Obligations.ShiftRegisterForms := by
  unfold Obligations.ShiftRegisterForms
  intro rd rs s
  rw [← shiftAmount_eq s rs]
  exact ⟨⟨rfl, _, exec_lslReg rd rs s, writesShift_writeShift ..⟩,
    ⟨rfl, _, exec_lsrReg rd rs s, writesShift_writeShift ..⟩,
    ⟨rfl, _, exec_asrReg rd rs s, writesShift_writeShift ..⟩,
    ⟨rfl, _, exec_rorReg rd rs s, writesShift_writeShift ..⟩⟩

end Sys2Proof.Proofs
end

section
/-! PROOF. Loads and stores (spec/45_load_store.md): where a checked access stops, and what the two shared
tails `loadTo` and `storeFrom` do where it passes; each form is one of them at its address and width. -/

namespace Sys2Proof.Proofs

open Sys2Proof Sys2Proof.Machine

/-! ### The checks that fail -/

theorem checkRead_misaligned {s : State} {a : Word} {n : Nat} (h : a.toNat % n ≠ 0) :
    s.checkRead a n = .error (.fault (.alignment a n)) := if_pos h

/-- Alignment is checked before mapping, so the fault of mapping needs an aligned address (60 R243). -/
theorem checkRead_unmapped {s : State} {a : Word} {n : Nat} (haligned : a.toNat % n = 0)
    (h : ∃ k, k < n ∧ s.isMapped (a + BitVec.ofNat 32 k) = false) :
    s.checkRead a n = .error (.fault (.unmapped a n)) := by
  obtain ⟨k, hk, hunmapped⟩ := h
  rcases checkRead_cases s a n with ⟨hread, _⟩ | ⟨hmis, _⟩ | ⟨_, _, hcheck⟩
  · exact absurd (hread.2 k hk) (by simp [hunmapped])
  · exact absurd haligned hmis
  · exact hcheck

theorem checkWrite_of_checkRead_error {s : State} {a : Word} {n : Nat} {e : Stop}
    (h : s.checkRead a n = .error e) : s.checkWrite a n = .error e := by
  rw [State.checkWrite, h]

/-- A byte in `TEXT` refuses a write whose bytes can be read (20_memory R53). -/
theorem checkWrite_text {s : State} {a : Word} {n : Nat} (hread : s.CanRead a n)
    (h : ∃ k, k < n ∧ s.isText (a + BitVec.ofNat 32 k) = true) :
    s.checkWrite a n = .error (.refuse (.storeToText a)) := by
  obtain ⟨k, hk, htext⟩ := h
  rcases checkWrite_cases s a n with ⟨hwrite, _⟩ | ⟨e, hcheck, _⟩ | ⟨_, _, hcheck⟩
  · exact absurd (hwrite.2 k hk) (by simp [htext])
  · exact absurd (hcheck.symm.trans (checkRead_ok.mpr hread)) (by simp)
  · exact hcheck

/-! ### Loads -/

theorem loadTo_of_checkRead_error {s : State} {a : Word} {n : Nat} {e : Stop}
    (h : s.checkRead a n = .error e) (rd : LoReg) (f : Word → Word) :
    s.loadTo rd a n f = e.take := by
  rw [State.loadTo, State.memRead, h]

theorem readStops_loadTo (s : State) (rd : LoReg) (a : Word) (n : Nat) (f : Word → Word) :
    s.ReadStops (s.loadTo rd a n f) a n where
  alignment h := loadTo_of_checkRead_error (checkRead_misaligned h) rd f
  unmapped haligned h := loadTo_of_checkRead_error (checkRead_unmapped haligned h) rd f

/-- An instruction that loads: it stops where its bytes cannot be read, and else writes the extended datum
to its register and nothing else (45 R170). -/
theorem exec_loads {i : Instr} {s : State} {rd : LoReg} {a : Word} {n : Nat} {f : Word → Word} {v : Word}
    (hi : exec i s = s.loadTo rd a n f) (hv : f (Memory.loadBytes s.mem a n) = v) :
    s.ReadStops (exec i s) a n ∧
      (s.CanRead a n → ∃ t, exec i s = .next t ∧ s.WritesOnly t rd.reg v) := by
  rw [hi, ← hv]
  exact ⟨readStops_loadTo s rd a n f, fun hread =>
    ⟨_, loadTo_next.mpr ⟨hread, rfl⟩, writesOnly_setReg s (LoReg.reg_ne_pc rd) _⟩⟩

/-- Settles O31: each form loads the four bytes at its address; the PC-relative address is a multiple of
4. -/
theorem loadWordForms : Obligations.LoadWordForms := by
  unfold Obligations.LoadWordForms
  refine ⟨fun rd rn imm5 s => ⟨rfl, exec_loads rfl (loadBytes_four s _)⟩,
    fun rd rn rm s => ⟨rfl, exec_loads rfl (loadBytes_four s _)⟩,
    fun rd imm8 s => ⟨rfl, ?_, ?_, exec_loads rfl (loadBytes_four s _)⟩,
    fun rd imm8 s => ⟨rfl, exec_loads rfl (loadBytes_four s _)⟩⟩
  · rw [State.eaPc, immWords_eq, reg_pc]
  · obtain ⟨_, _, hrelative⟩ := effectiveAddresses s
    obtain ⟨_, haligned, _⟩ := hrelative imm8
    exact haligned

/-! ### Narrow data extended -/

/-- A narrow datum is the low part of the word that a read answers. -/
theorem extractLsb'_setWidth_32 {w : Nat} (hw : w ≤ 32) (x : BitVec w) :
    (x.setWidth 32).extractLsb' 0 w = x := by
  rw [← BitVec.setWidth_eq_extractLsb' hw, BitVec.setWidth_setWidth_of_le x hw, BitVec.setWidth_eq]

theorem zeroExtendHalf_loadBytes (s : State) (a : Word) :
    zeroExtendHalf (Memory.loadBytes s.mem a 2) = (s.halfAt a).setWidth 32 := by
  rw [zeroExtendHalf, loadBytes_two, extractLsb'_setWidth_32 (by decide)]

theorem signExtendHalf_loadBytes (s : State) (a : Word) :
    signExtendHalf (Memory.loadBytes s.mem a 2) = (s.halfAt a).signExtend 32 := by
  rw [signExtendHalf, loadBytes_two, extractLsb'_setWidth_32 (by decide)]

theorem zeroExtendByte_loadBytes (s : State) (a : Word) :
    zeroExtendByte (Memory.loadBytes s.mem a 1) = (s.byte a).setWidth 32 := by
  rw [zeroExtendByte, loadBytes_one, extractLsb'_setWidth_32 (by decide)]

theorem signExtendByte_loadBytes (s : State) (a : Word) :
    signExtendByte (Memory.loadBytes s.mem a 1) = (s.byte a).signExtend 32 := by
  rw [signExtendByte, loadBytes_one, extractLsb'_setWidth_32 (by decide)]

/-- Settles O32: each form loads the bytes of its width and extends them. -/
theorem loadNarrowForms : Obligations.LoadNarrowForms := by
  unfold Obligations.LoadNarrowForms
  exact ⟨fun rd rn imm5 s =>
      ⟨⟨rfl, exec_loads rfl (zeroExtendHalf_loadBytes s _)⟩,
        ⟨rfl, exec_loads rfl (zeroExtendByte_loadBytes s _)⟩⟩,
    fun rd rn rm s =>
      ⟨⟨rfl, exec_loads rfl (zeroExtendHalf_loadBytes s _)⟩,
        ⟨rfl, exec_loads rfl (signExtendHalf_loadBytes s _)⟩,
        ⟨rfl, exec_loads rfl (zeroExtendByte_loadBytes s _)⟩,
        ⟨rfl, exec_loads rfl (signExtendByte_loadBytes s _)⟩⟩⟩

/-! ### Stores -/

theorem storeFrom_of_checkWrite_error {s : State} {a : Word} {n : Nat} {e : Stop}
    (h : s.checkWrite a n = .error e) (rd : LoReg) : s.storeFrom rd a n = e.take := by
  rw [State.storeFrom, State.memWrite, h]

theorem writeStops_storeFrom (s : State) (rd : LoReg) (a : Word) (n : Nat) :
    s.WriteStops (s.storeFrom rd a n) a n where
  access :=
    { alignment := fun h => storeFrom_of_checkWrite_error
        (checkWrite_of_checkRead_error (checkRead_misaligned h)) rd
      unmapped := fun haligned h => storeFrom_of_checkWrite_error
        (checkWrite_of_checkRead_error (checkRead_unmapped haligned h)) rd }
  text hread h := storeFrom_of_checkWrite_error (checkWrite_text hread h) rd

theorem stores_storeBytes (s : State) (a : Word) {n : Nat} (hn : n ≤ 2 ^ 32) (v : Word) :
    s.Stores (State.advance { s with mem := Memory.storeBytes s.mem a n v }) a n v where
  bytes _ hi := read_storeBytes_at s.mem a n v hi hn
  flags := rfl
  pc := rfl
  frame :=
    { regs := fun _ hpc _ => reg_advance _ hpc
      bytes := fun _ hout => read_storeBytes_other s.mem a n v hout
      config := rfl }

/-- An instruction that stores: it stops where its bytes cannot be written, and else changes exactly them,
to the low bytes of its register (45 R170). -/
theorem exec_stores {i : Instr} {s : State} {rd : LoReg} {a : Word} {n : Nat} (hn : n ≤ 2 ^ 32)
    (hi : exec i s = s.storeFrom rd a n) :
    s.WriteStops (exec i s) a n ∧
      (s.CanWrite a n → ∃ t, exec i s = .next t ∧ s.Stores t a n (s.lo rd)) := by
  rw [hi]
  exact ⟨writeStops_storeFrom s rd a n, fun hwrite =>
    ⟨_, storeFrom_next.mpr ⟨hwrite, rfl⟩, stores_storeBytes s a hn _⟩⟩

/-- Settles O33: each form stores the bytes of its width at its address. -/
theorem storeForms : Obligations.StoreForms := by
  unfold Obligations.StoreForms
  exact ⟨fun rd rn imm5 s =>
      ⟨⟨rfl, exec_stores (by decide) rfl⟩, ⟨rfl, exec_stores (by decide) rfl⟩,
        ⟨rfl, exec_stores (by decide) rfl⟩⟩,
    fun rd rn rm s =>
      ⟨⟨rfl, exec_stores (by decide) rfl⟩, ⟨rfl, exec_stores (by decide) rfl⟩,
        ⟨rfl, exec_stores (by decide) rfl⟩⟩,
    fun rd imm8 s => ⟨rfl, exec_stores (by decide) rfl⟩⟩

end Sys2Proof.Proofs
end

section
/-! PROOF. Block transfers (46 R200): the words of the slots as they are stored and loaded, the registers of
a list as they are written, and the check that decides where a transfer stops. -/

namespace Sys2Proof.Proofs

open Sys2Proof Sys2Proof.Machine

/-! ### Slots -/

/-- A slot above the lowest, counted from the second lowest. -/
theorem slot_succ (base : Word) (k : Nat) :
    base + BitVec.ofNat 32 (4 * (k + 1)) = base + 4#32 + BitVec.ofNat 32 (4 * k) := by
  rw [Nat.mul_succ, Nat.add_comm, BitVec.ofNat_add, ← BitVec.add_assoc]

/-- The slots of a block that fits the address space do not overlap: no byte of the lowest is one of
another (46 R200 item 3). -/
theorem notMem_footprint_above {base a : Word} {n i : Nat} (hn : 4 * (n + 1) ≤ 2 ^ 32) (hi : i < 4)
    (ha : a ∈ slots (base + 4#32) n) : base + BitVec.ofNat 32 i ∉ footprint a 4 := by
  obtain ⟨k, hk, rfl⟩ := mem_slots.mp ha
  intro hmem
  obtain ⟨j, hj, hsame⟩ := mem_footprint.mp hmem
  rw [← slot_succ, BitVec.add_assoc, BitVec.add_right_inj, ← BitVec.ofNat_add] at hsame
  have hnat := congrArg BitVec.toNat hsame
  simp only [BitVec.toNat_ofNat] at hnat
  omega

/-! ### Words stored and loaded -/

/-- Of a block of words stored, slot `k` holds word `k`. -/
theorem loadBytes_storeWords (m : Memory) (base : Word) {vs : List Word} {k : Nat}
    (hlen : 4 * vs.length ≤ 2 ^ 32) (hk : k < vs.length) :
    Memory.loadBytes (Memory.storeWords m base vs) (base + BitVec.ofNat 32 (4 * k)) 4 = vs[k] := by
  induction vs generalizing m base k with
  | nil => simp at hk
  | cons v vs ih =>
    rw [List.length_cons] at hlen hk
    rw [Memory.storeWords]
    cases k with
    | zero =>
      have hread : ∀ i, i < 4 →
          Memory.read (Memory.storeWords (Memory.storeBytes m base 4 v) (base + 4#32) vs)
            (base + BitVec.ofNat 32 i).toNat = v.extractLsb' (8 * i) 8 := by
        intro i hi
        rw [read_storeWords_other _ _ _ fun a ha => notMem_footprint_above hlen hi ha,
          read_storeBytes_at m base 4 v hi (by decide)]
      simpa using loadBytes_of_read hread
    | succ k =>
      rw [slot_succ]
      exact ih _ _ (by omega) (by omega)

@[simp] theorem length_loadWords (m : Memory) (base : Word) (n : Nat) :
    (Memory.loadWords m base n).length = n := by
  induction n generalizing base with
  | zero => rfl
  | succ n ih => rw [Memory.loadWords, List.length_cons, ih]

theorem getElem_loadWords (s : State) (base : Word) {n k : Nat}
    (hk : k < (Memory.loadWords s.mem base n).length) :
    (Memory.loadWords s.mem base n)[k] = s.wordAt (base + BitVec.ofNat 32 (4 * k)) := by
  induction n generalizing base k with
  | zero => simp [Memory.loadWords] at hk
  | succ n ih =>
    simp only [Memory.loadWords]
    cases k with
    | zero => simp [loadBytes_four]
    | succ k =>
      rw [slot_succ, List.getElem_cons_succ]
      exact ih _ _

/-- A word is its four bytes. -/
theorem wordAt_congr {s t : State} {a : Word} (h : ∀ x ∈ footprint a 4, t.byte x = s.byte x) :
    t.wordAt a = s.wordAt a := by
  have hbyte : ∀ i, i < 4 → t.byte (a + BitVec.ofNat 32 i) = s.byte (a + BitVec.ofNat 32 i) :=
    fun i hi => h _ (mem_footprint.mpr ⟨i, hi, rfl⟩)
  have hlow : t.byte a = s.byte a := by simpa using hbyte 0 (by decide)
  rw [State.wordAt, State.wordAt, hlow, hbyte 1 (by decide), hbyte 2 (by decide),
    hbyte 3 (by decide)]

/-! ### A list of registers -/

theorem length_loRegList_le (rlist : BitVec 8) : (loRegList rlist).length ≤ 8 := by
  rw [loRegList, List.length_map]
  exact List.length_filter_le _ _

/-- A list names no register twice, for it ascends (46 R200 item 2). -/
theorem nodup_loRegList (rlist : BitVec 8) : (loRegList rlist).Nodup := by
  obtain ⟨hascending, _⟩ := registerListAscending rlist
  refine hascending.imp fun hlt hsame => ?_
  rw [hsame] at hlt
  exact absurd hlt (lt_irrefl _)

/-- Of registers written in order, none twice, register `k` holds value `k`. -/
theorem reg_setRegs_getElem (s : State) {l : List Reg} {vs : List Word} (hnodup : l.Nodup)
    (hpc : Reg.pc ∉ l) (hlen : vs.length = l.length) {k : Nat} (hk : k < l.length) :
    (s.setRegs l vs).reg l[k] = vs[k] := by
  induction l generalizing s vs k with
  | nil => simp at hk
  | cons r l ih =>
    obtain ⟨hr, hnodup⟩ := List.nodup_cons.mp hnodup
    obtain ⟨hrpc, hpc⟩ := List.ne_and_not_mem_of_not_mem_cons hpc
    cases vs with
    | nil => simp at hlen
    | cons v vs =>
      rw [State.setRegs]
      cases k with
      | zero => exact (reg_setRegs_other _ _ hr).trans (reg_setReg_same _ _ (Ne.symm hrpc))
      | succ k => exact ih _ hnodup hpc (by simpa using hlen) _

/-! ### The check that decides -/

/-- The first slot whose check fails decides the transfer (46 R200 item 6, 60 R243 item 5). -/
theorem checkAll_first_error {f : Word → Except Stop Unit} {base : Word} {n k : Nat} {e : Stop}
    (hk : k < n) (hbelow : ∀ j, j < k → f (base + BitVec.ofNat 32 (4 * j)) = .ok ())
    (hfail : f (base + BitVec.ofNat 32 (4 * k)) = .error e) :
    checkAll f (slots base n) = .error e := by
  induction n generalizing base k with
  | zero => omega
  | succ n ih =>
    rw [slots, checkAll]
    cases k with
    | zero =>
      have hlow : f base = .error e := by simpa using hfail
      rw [hlow]
    | succ k =>
      have hlow : f base = .ok () := by simpa using hbelow 0 (by omega)
      rw [hlow]
      refine ih (Nat.lt_of_succ_lt_succ hk) (fun j hj => ?_) ?_
      · rw [← slot_succ]
        exact hbelow (j + 1) (by omega)
      · rw [← slot_succ]
        exact hfail

end Sys2Proof.Proofs
end

section
/-! PROOF. The stack instructions (spec/46_push_pop.md): what `push` and `pop` do where every slot passes its
check, where they stop, and that a `pop` of the words of a `push` restores the registers. -/

namespace Sys2Proof.Proofs

open Sys2Proof Sys2Proof.Machine

/-! ### `push` -/

/-- Every form of `push` but the refused one stores its list. -/
theorem exec_of_pushList {i : Instr} {l : List Reg} (hi : pushList i = some l)
    (hne : i ≠ .push 0#8) (s : State) : exec i s = s.pushRegs l := by
  cases i with
  | push rlist =>
    obtain rfl : loRegList rlist = l := Option.some.inj hi
    exact if_neg fun hempty => hne (congrArg Instr.push hempty)
  | pushLr rlist =>
    obtain rfl : loRegList rlist ++ [Reg.lr] = l := Option.some.inj hi
    rfl
  | _ => simp [pushList] at hi

/-- At most the eight low registers and LR are pushed (46 R200 item 7). -/
theorem length_of_pushList {i : Instr} {l : List Reg} (hi : pushList i = some l) : l.length ≤ 9 := by
  cases i with
  | push rlist =>
    obtain rfl : loRegList rlist = l := Option.some.inj hi
    exact (length_loRegList_le rlist).trans (by decide)
  | pushLr rlist =>
    obtain rfl : loRegList rlist ++ [Reg.lr] = l := Option.some.inj hi
    rw [List.length_append]
    exact Nat.add_le_add_right (length_loRegList_le rlist) 1
  | _ => simp [pushList] at hi

/-- A `push` stops where its first failing slot says. -/
theorem pushRegs_of_checkWrite_error {s : State} {l : List Reg} {k : Nat} {e : Stop}
    (hk : k < l.length)
    (hbelow : ∀ j, j < k → s.CanWrite (s.pushBase l.length + BitVec.ofNat 32 (4 * j)) 4)
    (hfail : s.checkWrite (s.pushBase l.length + BitVec.ofNat 32 (4 * k)) 4 = .error e) :
    s.pushRegs l = e.take := by
  have hall := checkAll_first_error (f := (s.checkWrite · 4)) hk
    (fun j hj => checkWrite_ok.mpr (hbelow j hj)) hfail
  rw [State.pushRegs, hall]

/-- Settles O37: the words stored are those of the list, and only SP is written beside them. -/
theorem pushForms : Obligations.PushForms := by
  unfold Obligations.PushForms
  refine ⟨fun _ => ⟨rfl, rfl⟩, fun _ => rfl, fun i s l hi hne hwrite => ?_⟩
  rw [exec_of_pushList hi hne]
  have hlen := length_of_pushList hi
  refine ⟨_, pushRegs_next.mpr ⟨hwrite, rfl⟩, fun k hk => ?_, ?_, ?_, ?_, ?_⟩
  · rw [← loadBytes_four, advance_mem, setReg_mem]
    have hword := loadBytes_storeWords s.mem (s.pushBase l.length) (vs := l.map s.reg) (k := k)
      (by rw [List.length_map]; omega) (by rwa [List.length_map])
    exact hword.trans (List.getElem_map _)
  · rw [reg_advance _ (by decide), reg_setReg_same _ _ (by decide), State.pushBase]
  · simp
  · simp
  · refine ⟨fun r hpc hr => ?_, fun a ha => ?_, by simp⟩
    · rw [reg_advance _ hpc, reg_setReg_other _ _ (List.ne_of_not_mem_cons hr), reg_withMem]
    · rw [State.byte, advance_mem, setReg_mem]
      refine read_storeWords_other _ _ _ fun b hb hab => ha (List.mem_flatMap.mpr ⟨b, ?_, hab⟩)
      rwa [List.length_map] at hb

/-! ### `pop` -/

/-- The listed registers take the words ascending from SP, SP and the PC take the values given, and nothing
else changes. -/
structure Pops (s t : State) (l : List Reg) (sp target : Word) : Prop where
  words : ∀ (k : Nat) (h : k < l.length),
    t.reg l[k] = s.wordAt (s.reg Reg.sp + BitVec.ofNat 32 (4 * k))
  sp : t.reg Reg.sp = sp
  pc : t.pc = target
  flags : t.flags = s.flags
  frame : s.Frame t (Reg.sp :: l) []

/-- The tail of both forms of `pop`; SP is written after the low registers and is none of them. -/
theorem pops_setRegs (s : State) (rlist : BitVec 8) (sp target : Word) :
    Pops s (((s.setRegs (loRegList rlist)
        (Memory.loadWords s.mem (s.reg Reg.sp) (loRegList rlist).length)).setReg Reg.sp sp).jump target)
      (loRegList rlist) sp target where
  words k hk := by
    have hlow : (loRegList rlist)[k].toNat < 8 := loRegList_low (List.getElem_mem hk)
    have hne : ∀ r : Reg, 8 ≤ r.toNat → (loRegList rlist)[k] ≠ r := by
      rintro r hr rfl
      omega
    rw [reg_jump _ _ (hne _ (by decide)), reg_setReg_other _ _ (hne _ (by decide)),
      reg_setRegs_getElem s (nodup_loRegList rlist) (notMem_loRegList (by decide) rlist)
        (length_loadWords ..) hk,
      getElem_loadWords]
  sp := by rw [reg_jump _ _ (by decide), reg_setReg_same _ _ (by decide)]
  pc := rfl
  flags := by simp
  frame :=
    { regs := fun r hpc hr => by
        obtain ⟨hsp, hlist⟩ := List.ne_and_not_mem_of_not_mem_cons hr
        rw [reg_jump _ _ hpc, reg_setReg_other _ _ hsp, reg_setRegs_other _ _ hlist]
      bytes := fun a _ => byte_congr (by simp) a
      config := by simp }

/-- Settles O38: the tail of `pop`, with the PC advanced. -/
theorem popForm : Obligations.PopForm := by
  unfold Obligations.PopForm
  refine ⟨fun _ => rfl, fun _ => rfl, fun rlist s hne hread => ?_⟩
  obtain ⟨hwords, hsp, hpc, hflags, hframe⟩ :=
    pops_setRegs s rlist (s.popEnd (loRegList rlist).length) (s.pc + 2#32)
  refine ⟨_, execPop_next.mpr ⟨hne, hread, rfl⟩, ?_⟩
  rw [State.advance, setReg_pc, setRegs_pc]
  exact ⟨hwords, hsp, hflags, hpc, hframe⟩

/-- A word for the PC whose bit 0 is not `LR_BIT0` is refused (46 R204). -/
theorem execPopPc_refused {s : State} {rlist : BitVec 8}
    (hread : ∀ a ∈ slots (s.reg Reg.sp) ((loRegList rlist).length + 1), s.CanRead a 4)
    (hbit : (s.wordAt (s.reg Reg.sp + BitVec.ofNat 32 (4 * (loRegList rlist).length))).extractLsb' 0 1 ≠
      s.platform.lrBit0) :
    execPopPc rlist s = .refused (.unpredictable .popPcBit0) := by
  have hall : checkAll (s.checkRead · 4) (slots (s.reg Reg.sp) ((loRegList rlist).length + 1)) = .ok () :=
    checkAll_ok.mpr fun a ha => checkRead_ok.mpr (hread a ha)
  unfold execPopPc
  simp only [hall, loadBytes_four]
  exact if_pos hbit

/-- Settles O39: the tail of `pop`, with the jump to the highest word. -/
theorem popPcForm : Obligations.PopPcForm := by
  unfold Obligations.PopPcForm
  refine ⟨fun _ => rfl, fun rlist s hread => ⟨execPopPc_refused hread, fun hbit => ?_⟩⟩
  obtain ⟨hwords, hsp, hpc, hflags, hframe⟩ :=
    pops_setRegs s rlist (s.popEnd ((loRegList rlist).length + 1))
      (clearBit0 (s.wordAt (s.reg Reg.sp + BitVec.ofNat 32 (4 * (loRegList rlist).length))))
  exact ⟨_, execPopPc_next.mpr ⟨hread, hbit, rfl⟩, hwords, hsp, hpc.trans (clearBit0_eq_and _), hflags,
    hframe⟩

/-! ### Where a block transfer stops -/

/-- A `pop` stops where its first failing slot says: the refusals come after the checks. -/
theorem exec_of_popList_error {i : Instr} {s : State} {l : List Reg} {k : Nat} {e : Stop}
    (hi : popList i = some l) (hne : i ≠ .pop 0#8) (hk : k < l.length)
    (hbelow : ∀ j, j < k → s.CanRead (s.reg Reg.sp + BitVec.ofNat 32 (4 * j)) 4)
    (hfail : s.checkRead (s.reg Reg.sp + BitVec.ofNat 32 (4 * k)) 4 = .error e) :
    exec i s = e.take := by
  have hall := checkAll_first_error (f := (s.checkRead · 4)) hk
    (fun j hj => checkRead_ok.mpr (hbelow j hj)) hfail
  cases i with
  | pop rlist =>
    obtain rfl : loRegList rlist = l := Option.some.inj hi
    have hlist : rlist ≠ 0#8 := fun hempty => hne (congrArg Instr.pop hempty)
    change execPop rlist s = _
    simp only [execPop, if_neg hlist, hall]
  | popPc rlist =>
    obtain rfl : loRegList rlist ++ [Reg.pc] = l := Option.some.inj hi
    rw [List.length_append, List.length_singleton] at hall
    change execPopPc rlist s = _
    simp only [execPopPc, hall]
  | _ => simp [popList] at hi

/-- Settles O40: each check of a slot that fails first ends the transfer with its own stop. -/
theorem blockTransferStops : Obligations.BlockTransferStops := by
  unfold Obligations.BlockTransferStops
  constructor
  · rintro i s l k base a hi hne hk rfl rfl hbelow
    rw [exec_of_pushList hi hne]
    have hstop {e : Stop} := pushRegs_of_checkWrite_error (e := e) hk hbelow
    exact ⟨fun hmis => hstop (checkWrite_of_checkRead_error (checkRead_misaligned hmis)),
      fun haligned hm => hstop (checkWrite_of_checkRead_error (checkRead_unmapped haligned hm)),
      fun hread htext => hstop (checkWrite_text hread htext)⟩
  · rintro i s l k a hi hne hk rfl hbelow
    have hstop {e : Stop} := exec_of_popList_error (e := e) hi hne hk hbelow
    exact ⟨fun hmis => hstop (checkRead_misaligned hmis),
      fun haligned hm => hstop (checkRead_unmapped haligned hm)⟩

/-! ### The round trip -/

/-- What may be read is configuration. -/
theorem canRead_congr {s t : State} (h : t.platform = s.platform) {a : Word} {n : Nat} :
    t.CanRead a n ↔ s.CanRead a n := by
  simp only [State.CanRead, State.isMapped, State.isText, h]

/-- Bit 0 cleared, as a number (10_state R26). -/
theorem toNat_clearBit0 (v : Word) : (clearBit0 v).toNat = 2 * (v.toNat / 2) := by
  rw [clearBit0, toNat_append_zeros, BitVec.extractLsb'_toNat, Nat.shiftRight_eq_div_pow]
  omega

/-- What a `push` leaves for a `pop` at the SP where it ends: words that can be read, each register of the
list in its slot. -/
theorem pushed_of_exec {i : Instr} {s t : State} {l : List Reg} (hi : pushList i = some l)
    (hne : i ≠ .push 0#8) (h : exec i s = .next t) :
    (∀ a ∈ slots (t.reg Reg.sp) l.length, t.CanRead a 4) ∧
      (∀ (k : Nat) (hk : k < l.length),
        t.wordAt (t.reg Reg.sp + BitVec.ofNat 32 (4 * k)) = s.reg l[k]) ∧
      t.reg Reg.sp = s.reg Reg.sp - BitVec.ofNat 32 (4 * l.length) ∧ t.platform = s.platform := by
  obtain ⟨hwrite, _⟩ := pushRegs_next.mp ((exec_of_pushList hi hne s).symm.trans h)
  obtain ⟨_, _, hforms⟩ := pushForms
  obtain ⟨_, hexec, hwords, hsp, _, _, hframe⟩ := hforms i s l hi hne hwrite
  cases h.symm.trans hexec
  refine ⟨fun a ha => ?_, hsp ▸ hwords, hsp, hframe.config⟩
  rw [hsp] at ha
  exact (canRead_congr hframe.config).mpr (hwrite a ha).1

/-- Settles O41: the `push` leaves each register of its list in its slot, LR in the highest, and the `pop`
takes each from there. -/
theorem pushPopRoundTrip : Obligations.PushPopRoundTrip := by
  unfold Obligations.PushPopRoundTrip
  intro rlist s t u hpush hlr husp huplatform hkept
  obtain ⟨hread, hpushed, htsp, htplatform⟩ :=
    pushed_of_exec (l := loRegList rlist ++ [Reg.lr]) rfl (by simp) hpush
  simp only [List.length_append, List.length_singleton] at hread hpushed htsp
  have hword : ∀ k (hk : k < (loRegList rlist).length + 1),
      u.wordAt (u.reg Reg.sp + BitVec.ofNat 32 (4 * k)) =
        s.reg ((loRegList rlist ++ [Reg.lr])[k]'(by simpa using hk)) := by
    intro k hk
    rw [husp, wordAt_congr (hkept _ (mem_slots.mpr ⟨k, hk, rfl⟩)), hpushed k hk]
  have htop : u.wordAt (u.reg Reg.sp + BitVec.ofNat 32 (4 * (loRegList rlist).length)) =
      s.reg Reg.lr := by
    rw [hword _ (Nat.lt_succ_self _), List.getElem_concat_length rfl]
  obtain ⟨_, hpop⟩ := popPcForm
  obtain ⟨_, hjump⟩ := hpop rlist u fun a ha => (canRead_congr huplatform).mpr (hread a (husp ▸ ha))
  rw [htop, huplatform, htplatform] at hjump
  obtain ⟨w, hexec, hregs, hsp, hpc, _, _⟩ := hjump hlr
  refine ⟨w, hexec, fun r hr => ?_, ?_, ?_⟩
  · obtain ⟨k, hk, rfl⟩ := List.mem_iff_getElem.mp hr
    rw [hregs k hk, hword k (Nat.lt_succ_of_lt hk), List.getElem_append_left hk]
  · rw [hsp, husp, htsp, BitVec.sub_add_cancel]
  · rw [hpc, ← clearBit0_eq_and, toNat_clearBit0]

end Sys2Proof.Proofs
end

section
/-! PROOF. The branches (spec/47_branch.md): which instructions fall through, the table of conditions,
where each branch goes, and that a call returns after itself. -/

namespace Sys2Proof.Proofs

open Sys2Proof Sys2Proof.Machine

/-! ### Falling through -/

/-- A shape of `Effect` for a form that is no writer of `pc` advances it (47 R215). -/
theorem Effect.pc_next {s t : State} {i : Instr} (h : Effect s i t) (hi : writesPc i = false) :
    t.pc = s.pc + 2#32 := by
  cases h with
  | writeLow | writeFlags | writeHigh | adjustSp | store | push | pop => simp
  | jumpHigh _ hpc | popPc _ _ _ _ _ hpc | branch _ hpc | branchLink _ _ _ hpc =>
    exact absurd (hi.symm.trans hpc) (by decide)

/-- Settles O12: every shape of `Effect` that does not advance `pc` belongs to a form on the list. -/
theorem controlFlowComplete : Obligations.ControlFlowComplete := by
  unfold Obligations.ControlFlowComplete
  intro i s t h hi
  exact (exec_effect h).pc_next hi

/-! ### Conditions -/

/-- The second condition of a pair is the first negated (47 R211). -/
theorem conditionPassed_ne (f : Flags) : conditionPassed f .ne = !conditionPassed f .eq := rfl
theorem conditionPassed_cc (f : Flags) : conditionPassed f .cc = !conditionPassed f .cs := rfl
theorem conditionPassed_pl (f : Flags) : conditionPassed f .pl = !conditionPassed f .mi := rfl
theorem conditionPassed_vc (f : Flags) : conditionPassed f .vc = !conditionPassed f .vs := rfl
theorem conditionPassed_lt (f : Flags) : conditionPassed f .lt = !conditionPassed f .ge := rfl
theorem conditionPassed_ls (f : Flags) : conditionPassed f .ls = !conditionPassed f .hi := by
  simp [conditionPassed]
theorem conditionPassed_le (f : Flags) : conditionPassed f .le = !conditionPassed f .gt := by
  simp [conditionPassed, bne]

/-- Settles O42: each row of the table is read off the definition, and each pair has its law. -/
theorem conditionTable : Obligations.ConditionTable := by
  unfold Obligations.ConditionTable
  refine ⟨fun f => by simp [conditionPassed], rfl, fun f c d hpair => ?_, condOfCode_code, rfl, rfl⟩
  simp only [List.mem_cons, List.not_mem_nil, or_false, Prod.mk.injEq] at hpair
  rcases hpair with ⟨rfl, rfl⟩ | ⟨rfl, rfl⟩ | ⟨rfl, rfl⟩ | ⟨rfl, rfl⟩ | ⟨rfl, rfl⟩ | ⟨rfl, rfl⟩ |
    ⟨rfl, rfl⟩
  · exact conditionPassed_ne f
  · exact conditionPassed_cc f
  · exact conditionPassed_pl f
  · exact conditionPassed_vc f
  · exact conditionPassed_ls f
  · exact conditionPassed_lt f
  · exact conditionPassed_le f

/-! ### Targets -/

/-- A branch offset is twice its signed field (30_encoding R81). -/
theorem branchOffset_eq {w : Nat} (imm : BitVec w) :
    branchOffset imm = BitVec.ofInt 32 (2 * imm.toInt) := by
  rw [branchOffset, BitVec.signExtend, BitVec.toInt_append_zero, pow_one, mul_comm]

/-- A branch goes to twice its signed field from `a + 4` (47 R212 to R214). -/
theorem branchTarget_eq (s : State) {w : Nat} (imm : BitVec w) :
    s.branchTarget (branchOffset imm) = s.pc + 4#32 + BitVec.ofInt 32 (2 * imm.toInt) := by
  rw [State.branchTarget, reg_pc, branchOffset_eq]

theorem exec_b (imm11 : BitVec 11) (s : State) :
    exec (.b imm11) s = .next (s.jump (s.branchTarget (branchOffset imm11))) := rfl

theorem exec_bl (immhi immlo : BitVec 11) (s : State) :
    exec (.bl immhi immlo) s =
      .next ((s.setReg Reg.lr s.linkValue).jump (s.branchTarget (branchOffset (immhi ++ immlo)))) :=
  rfl

/-- A condition that fails falls through (47 R212). -/
theorem exec_bCond_untaken {s : State} {c : Cond} (h : conditionPassed s.flags c = false)
    (imm8 : BitVec 8) : exec (.bCond c imm8) s = .next s.advance :=
  if_neg (Bool.eq_false_iff.mp h)

/-- Settles O43: a branch taken jumps to its target, one not taken to the next halfword. -/
theorem branchForms : Obligations.BranchForms := by
  unfold Obligations.BranchForms
  refine ⟨fun c imm8 s => ⟨rfl, ?_⟩, fun imm11 s => ⟨rfl, _, exec_b imm11 s, ?_⟩⟩
  · cases hc : conditionPassed s.flags c with
    | true =>
      refine ⟨_, exec_bCond_taken hc imm8, ?_⟩
      rw [if_pos rfl, ← branchTarget_eq]
      exact jumpsTo_jump ..
    | false =>
      refine ⟨_, exec_bCond_untaken hc imm8, ?_⟩
      rw [if_neg Bool.false_ne_true]
      exact jumpsTo_jump ..
  · rw [← branchTarget_eq]
    exact jumpsTo_jump ..

/-! ### Calls -/

/-- A register written and a jump: nothing else changes. -/
theorem frame_setReg_jump (s : State) (rd : Reg) (v target : Word) :
    s.Frame ((s.setReg rd v).jump target) [rd] [] where
  regs r hpc hr := by rw [reg_jump _ _ hpc, reg_setReg_other _ _ (List.ne_of_not_mem_cons hr)]
  bytes a _ := byte_congr (by simp) a
  config := by simp

/-- A call leaves its link value in LR. -/
theorem reg_lr_of_bl {immhi immlo : BitVec 11} {s t : State}
    (h : exec (.bl immhi immlo) s = .next t) : t.reg Reg.lr = s.linkValue := by
  rw [exec_bl] at h
  cases h
  rw [reg_jump _ _ (by decide), reg_setReg_same _ _ (by decide)]

/-- Settles O44: `bl` writes LR and jumps. -/
theorem branchLink : Obligations.BranchLink := by
  unfold Obligations.BranchLink
  intro immhi immlo s
  refine ⟨rfl, _, exec_bl immhi immlo s, reg_lr_of_bl (exec_bl immhi immlo s), ?_, ?_,
    frame_setReg_jump ..⟩
  · rw [jump_pc, branchTarget_eq]
  · rw [jump_flags, setReg_flags]

/-- Clearing bit 0 undoes an OR of a single bit into an even address (47 R214). -/
theorem or_bit_and_not_one {v : Word} (heven : v.toNat % 2 = 0) (b : BitVec 1) :
    (v ||| b.setWidth 32) &&& ~~~1#32 = v := by
  have hbit : b.setWidth 32 &&& ~~~1#32 = 0#32 := by
    obtain rfl | rfl := BitVec.eq_zero_or_eq_one b <;> rfl
  have hclear : v &&& ~~~1#32 = v := by
    rw [← clearBit0_eq_and]
    refine BitVec.eq_of_toNat_eq ?_
    rw [toNat_clearBit0]
    omega
  rw [BitVec.and_or_distrib_right, hclear, hbit, BitVec.or_zero]

/-- Settles O45: `mov pc, lr` clears the bit that the call set. -/
theorem callReturnsAfterIt : Obligations.CallReturnsAfterIt := by
  unfold Obligations.CallReturnsAfterIt
  intro immhi immlo s t u heven hcall hlr
  have hreturn : (s.pc + 4#32).toNat % 2 = 0 := toNat_add_even heven (by decide)
  refine ⟨_, exec_movHi_pc Reg.lr u, ?_⟩
  rw [jump_pc, hlr, reg_lr_of_bl hcall, State.linkValue, reg_pc, or_bit_and_not_one hreturn]

end Sys2Proof.Proofs
end

section
/-! PROOF. The extend instructions (spec/48_extend.md): what each writes, and that a signed load is an
unsigned one and an extend (48 R234). -/

namespace Sys2Proof.Proofs

open Sys2Proof Sys2Proof.Machine

/-! ### The extensions as values -/

/-- A sign extension gives the signed value of the low half or byte (48 R230, R231). -/
theorem signExtendHalf_eq (v : Word) :
    signExtendHalf v = BitVec.ofInt 32 (v.setWidth 16).toInt := by
  rw [signExtendHalf, BitVec.signExtend, BitVec.setWidth_eq_extractLsb' (by decide)]

theorem signExtendByte_eq (v : Word) :
    signExtendByte v = BitVec.ofInt 32 (v.setWidth 8).toInt := by
  rw [signExtendByte, BitVec.signExtend, BitVec.setWidth_eq_extractLsb' (by decide)]

/-- A zero extension gives the unsigned value of the low part of a word. -/
theorem setWidth_extract_low (v : Word) (w : Nat) :
    (v.extractLsb' 0 w).setWidth 32 = BitVec.ofNat 32 (v.toNat % 2 ^ w) := by
  rw [BitVec.extractLsb', Nat.shiftRight_zero, ← BitVec.ofNat_toNat, BitVec.toNat_ofNat]

theorem zeroExtendHalf_eq (v : Word) : zeroExtendHalf v = BitVec.ofNat 32 (v.toNat % 2 ^ 16) :=
  setWidth_extract_low v 16

theorem zeroExtendByte_eq (v : Word) : zeroExtendByte v = BitVec.ofNat 32 (v.toNat % 2 ^ 8) :=
  setWidth_extract_low v 8

/-! ### The extend instructions -/

theorem exec_sxth (rd rm : LoReg) (s : State) :
    exec (.sxth rd rm) s = .next (s.setLo rd (signExtendHalf (s.lo rm))).advance := rfl

theorem exec_sxtb (rd rm : LoReg) (s : State) :
    exec (.sxtb rd rm) s = .next (s.setLo rd (signExtendByte (s.lo rm))).advance := rfl

theorem exec_uxth (rd rm : LoReg) (s : State) :
    exec (.uxth rd rm) s = .next (s.setLo rd (zeroExtendHalf (s.lo rm))).advance := rfl

theorem exec_uxtb (rd rm : LoReg) (s : State) :
    exec (.uxtb rd rm) s = .next (s.setLo rd (zeroExtendByte (s.lo rm))).advance := rfl

/-- An instruction that writes a value to a low register, and does nothing else. -/
theorem exec_writesOnly {i : Instr} {s : State} {rd : LoReg} {v r : Word}
    (hi : exec i s = .next (s.setLo rd v).advance) (hv : v = r) :
    ∃ t, exec i s = .next t ∧ s.WritesOnly t rd.reg r :=
  ⟨_, hi, hv ▸ writesOnly_setReg s (LoReg.reg_ne_pc rd) v⟩

/-- Settles O46: each form writes its extension. -/
theorem extendForms : Obligations.ExtendForms := by
  unfold Obligations.ExtendForms
  exact fun rd rm s =>
    ⟨⟨rfl, exec_writesOnly (exec_sxth rd rm s) (signExtendHalf_eq _)⟩,
      ⟨rfl, exec_writesOnly (exec_sxtb rd rm s) (signExtendByte_eq _)⟩,
      ⟨rfl, exec_writesOnly (exec_uxth rd rm s) (zeroExtendHalf_eq _)⟩,
      ⟨rfl, exec_writesOnly (exec_uxtb rd rm s) (zeroExtendByte_eq _)⟩⟩

/-! ### A signed load -/

/-- Of two writes to a register the later counts. -/
theorem setReg_setReg (s : State) (r : Reg) (v u : Word) :
    (s.setReg r v).setReg r u = s.setReg r u := by
  unfold State.setReg
  split <;> simp

theorem setReg_advance (s : State) (r : Reg) (v : Word) :
    s.advance.setReg r v = (s.setReg r v).advance := by
  unfold State.setReg
  split <;> rfl

/-- Two writes to one low register, each by an instruction of its own: the later value, two halfwords on. -/
theorem setLo_advance_setLo (s : State) (rd : LoReg) (v u : Word) :
    ((s.setLo rd v).advance.setLo rd u).advance = (s.setLo rd u).advance.advance := by
  rw [State.setLo, State.setLo, State.setLo, setReg_advance, setReg_setReg]

theorem signExtendHalf_zeroExtendHalf (v : Word) :
    signExtendHalf (zeroExtendHalf v) = signExtendHalf v := by
  rw [signExtendHalf, zeroExtendHalf, extractLsb'_setWidth_32 (by decide), signExtendHalf]

theorem signExtendByte_zeroExtendByte (v : Word) :
    signExtendByte (zeroExtendByte v) = signExtendByte v := by
  rw [signExtendByte, zeroExtendByte, extractLsb'_setWidth_32 (by decide), signExtendByte]

/-- Where the extension `f` reads through the extension `g`, a load with `f` is a load with `g` and then `f`
on the register, but for the second advance. -/
theorem loadTo_then_extend {s t u w : State} {rd : LoReg} {a : Word} {n : Nat} {f g : Word → Word}
    (hfg : ∀ v, f (g v) = f v) (ht : s.loadTo rd a n f = .next t) (hu : s.loadTo rd a n g = .next u)
    (hw : .next (u.setLo rd (f (u.lo rd))).advance = (.next w : Result)) :
    w = { t with pc := t.pc + 2#32 } := by
  obtain ⟨_, rfl⟩ := loadTo_next.mp ht
  obtain ⟨_, rfl⟩ := loadTo_next.mp hu
  cases hw
  rw [lo_advance, lo_setLo_same, hfg, setLo_advance_setLo]
  rfl

/-- Settles O47: a sign extension reads through a zero extension of the same width. -/
theorem signedLoadIsLoadThenExtend : Obligations.SignedLoadIsLoadThenExtend := by
  unfold Obligations.SignedLoadIsLoadThenExtend
  exact fun rd rn rm s t u w =>
    ⟨loadTo_then_extend signExtendHalf_zeroExtendHalf, loadTo_then_extend signExtendByte_zeroExtendByte⟩

end Sys2Proof.Proofs
end

section
/-! PROOF. A step before execution (60 R243 items 1 to 3), the end of a run (70 R263), and the state that a
program is launched in (70 R260 to R262). -/

namespace Sys2Proof.Proofs

open Sys2Proof Sys2Proof.Machine

/-! ### The checks of a fetch -/

theorem fetchHalf_odd {s : State} {a : Word} (h : a.toNat % 2 ≠ 0) :
    s.fetchHalf a = .error (.fault (.fetchAlignment a)) := if_pos h

/-- An even halfword not all in `TEXT` is unmapped for a fetch (20_memory R46). -/
theorem fetchHalf_outside {s : State} {a : Word} (heven : a.toNat % 2 = 0)
    (h : (s.isText a && s.isText (a + 1#32)) = false) :
    s.fetchHalf a = .error (.fault (.fetchUnmapped a)) := by
  have hall : (footprint a 2).all s.isText = false := by simpa [footprint_succ] using h
  simp [State.fetchHalf, heven, hall]

theorem step_of_first_stop {s : State} {e : Stop} (h : s.fetchHalf s.pc = .error e) :
    step s = e.take := by
  simp [step, State.fetchInstr, h]

section
variable {s : State} {hw1 hw2 : Half}

theorem step_of_second_stop {e : Stop} (h1 : s.fetchHalf s.pc = .ok hw1)
    (hbl : isBlFirst hw1 = true) (h2 : s.fetchHalf (s.pc + 2#32) = .error e) : step s = e.take := by
  simp [step, State.fetchInstr, h1, hbl, h2]

/-- A first half of `bl` without a second half is refused with both halfwords (30_encoding R92). -/
theorem step_of_pair_refused (h1 : s.fetchHalf s.pc = .ok hw1) (hbl : isBlFirst hw1 = true)
    (h2 : s.fetchHalf (s.pc + 2#32) = .ok hw2) (hsecond : isBlSecond hw2 = false) :
    step s = .refused (.notInCardPair hw1 hw2) := by
  simp [step, State.fetchInstr, h1, hbl, h2, decode_bl_refused hbl hsecond, Stop.take]

/-- A halfword that selects no row is refused (30_encoding R92). -/
theorem step_of_half_refused (h1 : s.fetchHalf s.pc = .ok hw1) (hbl : isBlFirst hw1 = false)
    (hnone : decode16 hw1 = none) : step s = .refused (.notInCard hw1) := by
  simp [step, State.fetchInstr, h1, hbl, decode, hnone, Stop.take]

end

/-- Settles O6: each check decides where those before it pass. -/
theorem fetchChecksInOrder : Obligations.FetchChecksInOrder := by
  unfold Obligations.FetchChecksInOrder
  intro s
  have hfirst (heven : s.pc.toNat % 2 = 0) (htext : (s.isText s.pc && s.isText (s.pc + 1#32)) = true) :
      s.fetchHalf s.pc = .ok (s.halfAt s.pc) := by
    obtain ⟨h0, h1⟩ := Bool.and_eq_true_iff.mp htext
    exact fetchHalf_ok heven h0 h1
  refine ⟨fun hodd => step_of_first_stop (fetchHalf_odd hodd),
    fun heven hout => step_of_first_stop (fetchHalf_outside heven hout),
    fun heven htext hbl => ?_,
    fun heven htext hbl hnone => step_of_half_refused (hfirst heven htext) hbl hnone⟩
  have heven2 : (s.pc + 2#32).toNat % 2 = 0 := toNat_add_even heven (by decide)
  have h3 : s.pc + 3#32 = s.pc + 2#32 + 1#32 := by rw [BitVec.add_assoc]; rfl
  rw [h3]
  refine ⟨fun hout => step_of_second_stop (hfirst heven htext) hbl (fetchHalf_outside heven2 hout),
    fun htext2 hsecond => ?_⟩
  obtain ⟨h0, h1⟩ := Bool.and_eq_true_iff.mp htext2
  exact step_of_pair_refused (hfirst heven htext) hbl (fetchHalf_ok heven2 h0 h1) hsecond

/-! ### The end of a run -/

theorem halted_iff (s : State) : s.halted = true ↔ s.pc = s.platform.haltAddr := beq_iff_eq

/-- A run that starts at `HALT_ADDR` has ended (70 R263). -/
theorem run_of_halted {s : State} (h : s.halted = true) (k : Nat) : run k s = .final s := by
  cases k <;> simp [run, h]

theorem run_zero_of_not_halted {s : State} (h : ¬ s.halted = true) : run 0 s = .running s := if_neg h

theorem run_succ_of_step {s u : State} (h : ¬ s.halted = true) (hu : step s = .next u) (k : Nat) :
    run (k + 1) s = run k u := by
  simp [run, h, hu]

/-- A run that does not stop goes on from the next state. -/
theorem exists_step_of_run {s : State} {k : Nat} {r : RunResult} (h : ¬ s.halted = true)
    (hr : run (k + 1) s = r) (hfault : ∀ f, r ≠ .fault f) (hrefused : ∀ f, r ≠ .refused f) :
    ∃ u, step s = .next u ∧ run k u = r := by
  cases hstep : step s with
  | next u => exact ⟨u, rfl, (run_succ_of_step h hstep k).symm.trans hr⟩
  | fault f => exact absurd (by simpa [run, h, hstep] using hr.symm) (hfault f)
  | refused f => exact absurd (by simpa [run, h, hstep] using hr.symm) (hrefused f)

/-- A run that has ended stands at `HALT_ADDR` and goes no further. -/
theorem run_final_stays {k : Nat} {s t : State} (h : run k s = .final t) :
    t.halted = true ∧ ∀ m, run (k + m) s = .final t := by
  induction k generalizing s with
  | zero =>
    by_cases hs : s.halted = true
    · cases (run_of_halted hs 0).symm.trans h
      exact ⟨hs, fun m => run_of_halted hs _⟩
    · cases (run_zero_of_not_halted hs).symm.trans h
  | succ k ih =>
    by_cases hs : s.halted = true
    · cases (run_of_halted hs (k + 1)).symm.trans h
      exact ⟨hs, fun m => run_of_halted hs _⟩
    · obtain ⟨u, hu, hrun⟩ := exists_step_of_run hs h nofun nofun
      obtain ⟨ht, hmore⟩ := ih hrun
      refine ⟨ht, fun m => ?_⟩
      rw [Nat.succ_add, run_succ_of_step hs hu, hmore m]

/-- A run that has not ended does not stand at `HALT_ADDR`. -/
theorem not_halted_of_run_running {k : Nat} {s t : State} (h : run k s = .running t) :
    ¬ t.halted = true := by
  induction k generalizing s with
  | zero =>
    by_cases hs : s.halted = true
    · cases (run_of_halted hs 0).symm.trans h
    · cases (run_zero_of_not_halted hs).symm.trans h
      exact hs
  | succ k ih =>
    by_cases hs : s.halted = true
    · cases (run_of_halted hs (k + 1)).symm.trans h
    · obtain ⟨u, _, hrun⟩ := exists_step_of_run hs h nofun nofun
      exact ih hrun

/-- A state that a run comes to is halted where it stands at the `HALT_ADDR` of the run's start, for no step
moves it (log 4). -/
theorem halted_iff_of_run {k : Nat} {s t : State} (h : run k s = .final t ∨ run k s = .running t) :
    t.halted = true ↔ t.pc = s.platform.haltAddr := by
  rw [halted_iff, (textKept_of_reaches (reaches_of_run h)).config]

/-- Settles O50: a run compares `pc` with `HALT_ADDR` before each step, and no step moves that address. -/
theorem runEndsAtHaltAddress : Obligations.RunEndsAtHaltAddress := by
  unfold Obligations.RunEndsAtHaltAddress
  refine ⟨fun k s h => run_of_halted ((halted_iff s).mpr h) k, fun k s t h => ?_, fun k s t h => ?_⟩
  · obtain ⟨ht, hmore⟩ := run_final_stays h
    exact ⟨(halted_iff_of_run (.inl h)).mp ht, hmore⟩
  · exact fun ht => not_halted_of_run_running h ((halted_iff_of_run (.inr h)).mpr ht)

/-! ### Launch -/

/-- Settles O48: a launch writes SP over the registers given. -/
theorem launchState : Obligations.LaunchState := by
  unfold Obligations.LaunchState
  refine fun p regs flags mem => ⟨rfl, reg_launch_sp .., fun r hpc hsp => ?_, rfl, rfl, rfl⟩
  have hlt := Reg.toNat_lt_of_ne_pc hpc
  rw [reg_launch_other _ _ _ _ hpc hsp]
  simp [Vector.getD, hlt]

/-- The addresses emitted in a zone are those from its base to the next free one. -/
theorem zone_addresses {base next : Nat} {bytes : List Host.Cell} (h : Laws.ZoneFrom base next bytes)
    (x : Nat) : (∃ c ∈ bytes, c.1 = x) ↔ base ≤ x ∧ x < next := by
  obtain ⟨hle, hmap⟩ := h
  rw [← List.mem_map, hmap, List.mem_range'_1, Nat.add_sub_cancel' hle]

/-- The region from the base of a zone to its next free address holds the addresses emitted in it. -/
theorem zone_contains {base next : Nat} {bytes : List Host.Cell} (h : Laws.ZoneFrom base next bytes)
    (x : Word) :
    Region.contains ⟨base, next - base⟩ x = true ↔ ∃ c ∈ bytes, c.1 = x.toNat := by
  have ⟨hle, _⟩ := h
  rw [zone_addresses h, Region.contains, Nat.add_sub_cancel' hle, Bool.and_eq_true,
    decide_eq_true_eq, decide_eq_true_eq]

/-- What `assemble` accepts fits in memory: both zones in the address space, and an address emitted in one
is not emitted in the other. -/
structure Fits (textBase dataBase : Nat) (prog : AsmState) : Prop where
  text : prog.textPos ≤ 2 ^ 32
  data : prog.dataPos ≤ 2 ^ 32
  apart : ∀ x, textBase ≤ x → x < prog.textPos → ¬ (dataBase ≤ x ∧ x < prog.dataPos)

theorem fits_of_check {textBase dataBase : Nat} {prog : AsmState}
    (h : prog.fits textBase dataBase = true) : Fits textBase dataBase prog := by
  simp only [AsmState.fits, Bool.and_eq_true, Bool.or_eq_true, decide_eq_true_eq] at h
  obtain ⟨⟨htext, hdata⟩, hapart⟩ := h
  exact ⟨htext, hdata, fun x _ _ => by omega⟩

section
variable {textBase dataBase : Nat} {prog : AsmState}

/-- No address is emitted twice. -/
theorem nodup_emitted (hlaid : Laws.Laid textBase dataBase prog) (hfits : Fits textBase dataBase prog) :
    ((prog.textBytes ++ prog.dataBytes).map (·.1)).Nodup := by
  have hnodup {base next : Nat} {bytes : List Host.Cell} (h : Laws.ZoneFrom base next bytes) :
      (bytes.map (·.1)).Nodup := by
    obtain ⟨_, hmap⟩ := h
    rw [hmap]
    exact List.nodup_range'
  rw [List.map_append]
  refine (hnodup hlaid.text).append (hnodup hlaid.data) fun x hx hy => ?_
  obtain ⟨hlow, hhigh⟩ := (zone_addresses hlaid.text x).mp (List.mem_map.mp hx)
  exact hfits.apart x hlow hhigh ((zone_addresses hlaid.data x).mp (List.mem_map.mp hy))

theorem emitted_lt (hlaid : Laws.Laid textBase dataBase prog) (hfits : Fits textBase dataBase prog) :
    ∀ c ∈ prog.textBytes ++ prog.dataBytes, c.1 < 2 ^ 32 := by
  intro c hc
  obtain hc | hc := List.mem_append.mp hc
  · obtain ⟨_, hlt⟩ := (zone_addresses hlaid.text c.1).mp ⟨c, hc, rfl⟩
    exact hlt.trans_le hfits.text
  · obtain ⟨_, hlt⟩ := (zone_addresses hlaid.data c.1).mp ⟨c, hc, rfl⟩
    exact hlt.trans_le hfits.data

end

/-! ### The map of a launched program -/

section
variable {prog : AsmState} {textBase dataBase stackSize : Nat} {p : Platform}
  {regs : Vector Word 15} {flags : Flags} {mem : Memory}

/-- `TEXT` is the region of the code zone (20_memory R49). -/
theorem isText_launch (x : Word) :
    (prog.launch textBase dataBase stackSize p regs flags mem).isText x =
      Region.contains ⟨textBase, prog.textPos - textBase⟩ x := by
  simp [State.isText, AsmState.launch, State.launch]

/-- The region of the data zone is mapped (70 R261). -/
theorem isMapped_launch_data {x : Word}
    (h : Region.contains ⟨dataBase, prog.dataPos - dataBase⟩ x = true) :
    (prog.launch textBase dataBase stackSize p regs flags mem).isMapped x = true := by
  simp [State.isMapped, AsmState.launch, State.launch, h]

/-- The regions of the stack are mapped (70 R261). -/
theorem isMapped_launch_stack {x : Word}
    (h : (stackRegions p.initialSp.toNat stackSize).any (fun r => Region.contains r x) = true) :
    (prog.launch textBase dataBase stackSize p regs flags mem).isMapped x = true := by
  simp only [State.isMapped, AsmState.launch, State.launch, List.any_append, List.any_cons, h,
    Bool.or_true, Bool.true_or]

end

/-- Settles O55: the zones are laid out apart, so that each byte is written once. -/
theorem launchedProgramInMemory : Obligations.LaunchedProgramInMemory := by
  unfold Obligations.LaunchedProgramInMemory
  rintro textBase dataBase stackSize src prog p regs flags mem s hasm rfl
  obtain ⟨hlaid, hcheck⟩ := Laws.assemble_laid hasm
  have hfits := fits_of_check hcheck
  refine ⟨fun c hc => Laws.read_writes_at _ mem (nodup_emitted hlaid hfits) hc,
    fun x hx => Laws.read_writes_other _ mem hx, fun x => ?_, fun x hx => ?_, fun k h0 hk => ?_,
    fun hmem => Laws.wf_writes (emitted_lt hlaid hfits) hmem⟩
  · rw [isText_launch, zone_contains hlaid.text]
  · exact isMapped_launch_data ((zone_contains hlaid.data x).mpr hx)
  · exact isMapped_launch_stack (Laws.stackRegions_contains p.initialSp stackSize k h0 hk)

end Sys2Proof.Proofs
end

section
/-! PROOF. What the conditions read after a compare (spec/42_multiply_compare.md, Compare; 47 R211): the
flags of a difference tell the relation of its operands, unsigned and signed. -/

namespace Sys2Proof.Proofs

open Sys2Proof Sys2Proof.Machine

/-! ### The flags of a difference -/

section
variable {f : Flags} {x y : Word}

/-- Z says that the operands are equal. -/
theorem diffOf_z (h : f.DiffOf x y) : f.z = decide (x = y) :=
  h.nz.z.trans (decide_eq_decide.mpr sub_eq_zero)

/-- N and V agree exactly where the first operand is not the smaller, read as signed numbers: where the
difference does not fit, it wraps past the sign. -/
theorem diffOf_n_eq_v (h : f.DiffOf x y) : (f.n == f.v) = decide (y.toInt ≤ x.toInt) := by
  have hx := BitVec.le_two_mul_toInt (x := x)
  have hx' := BitVec.two_mul_toInt_lt (x := x)
  have hy := BitVec.le_two_mul_toInt (x := y)
  have hy' := BitVec.two_mul_toInt_lt (x := y)
  have hsign : (x - y).msb = decide ((x.toInt - y.toInt).bmod (2 ^ 32) < 0) := by
    rw [BitVec.msb_eq_toInt, BitVec.toInt_sub]
  rw [h.nz.n, h.v, hsign, Bool.eq_iff_iff, beq_iff_eq, decide_eq_decide, decide_eq_true_eq,
    Int.bmod_def]
  omega

/-- C without Z is a strict order of the operands, read as unsigned numbers. -/
theorem diffOf_c_and_not_z (h : f.DiffOf x y) : (f.c && !f.z) = decide (y.toNat < x.toNat) := by
  have hne : x = y ↔ x.toNat = y.toNat := BitVec.toNat_inj.symm
  rw [h.c, diffOf_z h, ← decide_not, ← Bool.decide_and, decide_eq_decide, hne]
  omega

/-- N equal to V without Z is a strict order of the operands, read as signed numbers. -/
theorem diffOf_not_z_and_n_eq_v (h : f.DiffOf x y) :
    (!f.z && f.n == f.v) = decide (y.toInt < x.toInt) := by
  have hne : x = y ↔ x.toInt = y.toInt := BitVec.toInt_inj.symm
  rw [diffOf_n_eq_v h, diffOf_z h, ← decide_not, ← Bool.decide_and, decide_eq_decide, hne]
  omega

/-- The conditions after a compare: the first of each pair from the flags, the second its negation. -/
theorem comparesAs_of_diffOf (h : f.DiffOf x y) : f.ComparesAs x y where
  eq := diffOf_z h
  ne := by rw [conditionPassed_ne, conditionPassed, diffOf_z h, ← decide_not]
  cs := h.c
  cc := by rw [conditionPassed_cc, conditionPassed, h.c, ← decide_not, decide_eq_decide, not_le]
  hi := diffOf_c_and_not_z h
  ls := by
    rw [conditionPassed_ls, conditionPassed, diffOf_c_and_not_z h, ← decide_not, decide_eq_decide,
      not_lt]
  ge := diffOf_n_eq_v h
  lt := by
    rw [conditionPassed_lt, conditionPassed, diffOf_n_eq_v h, ← decide_not, decide_eq_decide, not_le]
  gt := diffOf_not_z_and_n_eq_v h
  le := by
    rw [conditionPassed_le, conditionPassed, diffOf_not_z_and_n_eq_v h, ← decide_not,
      decide_eq_decide, not_lt]
  mi := h.nz.n
  pl := congrArg (!·) h.nz.n
  vs := h.v
  vc := congrArg (!·) h.v

end

/-! ### The compares -/

/-- A form that only compares: its conditions read its operands, and it writes no register. -/
theorem compares_of_next {r : Result} {s t : State} {x y : Word} (h : r = .next t)
    (hr : r = .next (s.setNZCV (subFlags x y)).advance) :
    t.flags.ComparesAs x y ∧ s.RegsKept t [] := by
  cases h.symm.trans hr
  exact ⟨comparesAs_of_diffOf (diffOf_setNZCV s x y), (frame_setNZCV s _).regs⟩

/-- Settles O25: each compare leaves the flags of the difference of its operands; a `sub` or an `add` of low
registers leaves the same flags. -/
theorem conditionsAfterCompare : Obligations.ConditionsAfterCompare := by
  unfold Obligations.ConditionsAfterCompare
  refine ⟨fun rd rn rm s t u ht hu => ?_, fun rn rm s t ht => ?_,
    fun rn imm8 s t ht => compares_of_next ht (exec_cmpImm rn imm8 s), fun rd rn rm s t u ht hu => ?_⟩
  · obtain ⟨hcompares, hregs⟩ := compares_of_next ht (exec_cmpLo rn rm s)
    cases ht.symm.trans (exec_cmpLo rn rm s)
    cases hu.symm.trans (exec_subLo rd rn rm s)
    exact ⟨hcompares, rfl, hregs⟩
  · by_cases hpc : rn = Reg.pc ∨ rm = Reg.pc
    · cases ht.symm.trans (exec_cmpHi_pc hpc s)
    · obtain ⟨hrn, hrm⟩ := not_or.mp hpc
      exact compares_of_next ht (exec_cmpHi_of_ne hrn hrm s)
  · cases ht.symm.trans (exec_cmn rn rm s)
    cases hu.symm.trans (exec_addLo rd rn rm s)
    exact ⟨rfl, (frame_setNZCV s _).regs⟩

end Sys2Proof.Proofs
end

section
/-! PROOF. The fixed words of the spec (30_encoding R63 to R79), and the law of `Shift_C` for the amounts of
its table (44 R150). -/

namespace Sys2Proof.Proofs

open Sys2Proof Sys2Proof.Machine

/-! ### Words of the spec -/

/-- Settles O4, by running the decoder on each word. -/
theorem specWordsDecode : Obligations.SpecWordsDecode := by
  unfold Obligations.SpecWordsDecode
  decide

/-! ### The shift function -/

/-- Settles O27: the law holds of every amount, so of those of the table. -/
theorem shiftFunctionIsArithmetic : Obligations.ShiftFunctionIsArithmetic := by
  unfold Obligations.ShiftFunctionIsArithmetic
  exact fun kind v n _ => shiftLaw_shiftC kind v n

end Sys2Proof.Proofs
end

section
/-! PROOF. Memory read at other widths than it was written at (20_memory, Byte order). -/

namespace Sys2Proof.Proofs

open Sys2Proof Sys2Proof.Machine

/-! ### A part of a datum -/

theorem add_ofNat_add (a : Word) (k i : Nat) :
    a + BitVec.ofNat 32 k + BitVec.ofNat 32 i = a + BitVec.ofNat 32 (k + i) := by
  rw [BitVec.add_assoc, ← BitVec.ofNat_add]

/-- A part of a datum that may be read may be read itself, where it is aligned. -/
theorem canRead_part {s : State} {a : Word} {m k n : Nat} (h : s.CanRead a m) (hkn : k + n ≤ m)
    (haligned : (a + BitVec.ofNat 32 k).toNat % n = 0) : s.CanRead (a + BitVec.ofNat 32 k) n := by
  obtain ⟨_, hmapped⟩ := h
  refine ⟨haligned, fun i hi => ?_⟩
  rw [add_ofNat_add]
  exact hmapped (k + i) (by omega)

/-- A load of `n` bytes at the offset `k` in a datum just stored gives those bytes of the value, with zeros
above (20_memory R41, R43). -/
theorem memRead_part {s t : State} {a v : Word} {m k n : Nat} (hm : m ≤ 2 ^ 32)
    (h : s.memWrite a m v = .ok t) (hkn : k + n ≤ m)
    (haligned : (a + BitVec.ofNat 32 k).toNat % n = 0) :
    t.memRead (a + BitVec.ofNat 32 k) n = .ok ((v.extractLsb' (8 * k) (8 * n)).setWidth 32) := by
  obtain ⟨⟨hread, _⟩, rfl⟩ := memWrite_ok.mp h
  refine memRead_ok.mpr ⟨canRead_part hread hkn haligned, ?_⟩
  have hshift (i w : Nat) : (v >>> (8 * k)).extractLsb' i w = v.extractLsb' (8 * k + i) w := by
    ext j hj
    simp [BitVec.getLsbD_ushiftRight, Nat.add_assoc]
  rw [loadBytes_of_read (v := v >>> (8 * k)), hshift]
  · rfl
  intro i hi
  rw [add_ofNat_add, read_storeBytes_at s.mem a m v (by omega) hm, hshift, Nat.mul_add]

/-- A byte stored, read back, and every other byte as it was. -/
theorem byte_of_memWrite_one {s t : State} {a v : Word} (h : s.memWrite a 1 v = .ok t) :
    t.byte a = v.setWidth 8 ∧ ∀ x, x ≠ a → t.byte x = s.byte x := by
  obtain ⟨_, rfl⟩ := memWrite_ok.mp h
  refine ⟨read_write_same _ _ _, fun x hx => read_storeBytes_other s.mem a 1 v ?_⟩
  simpa [footprint_succ] using hx

/-- A store leaves the configuration, and its bytes could be read before it. -/
theorem canRead_of_memWrite {s t : State} {a v : Word} {n : Nat} (h : s.memWrite a n v = .ok t) :
    t.platform = s.platform ∧ s.CanRead a n := by
  obtain ⟨⟨hread, _⟩, rfl⟩ := memWrite_ok.mp h
  exact ⟨rfl, hread⟩

/-- The bytes of a word just stored. -/
theorem byte_of_memWrite_four {s t : State} {a v : Word} (h : s.memWrite a 4 v = .ok t) {i : Nat}
    (hi : i < 4) : t.byte (a + BitVec.ofNat 32 i) = v.extractLsb' (8 * i) 8 := by
  obtain ⟨_, rfl⟩ := memWrite_ok.mp h
  exact read_storeBytes_at s.mem a 4 v hi (by decide)

/-- The word after its byte 1 is overwritten: the new byte between the old ones. -/
theorem memRead_of_byte_overwritten {s t u : State} {a v b : Word} (ht : s.memWrite a 4 v = .ok t)
    (hu : t.memWrite (a + 1#32) 1 b = .ok u) :
    u.memRead a 4 = .ok (v.extractLsb' 24 8 ++ v.extractLsb' 16 8 ++ b.setWidth 8 ++
      v.extractLsb' 0 8) := by
  obtain ⟨hnew, hold⟩ := byte_of_memWrite_one hu
  have hbyte (i : Nat) (hi : i < 4) (hne : i ≠ 1) :
      u.byte (a + BitVec.ofNat 32 i) = v.extractLsb' (8 * i) 8 := by
    refine (hold _ fun heq => hne ?_).trans (byte_of_memWrite_four ht hi)
    have hnat := congrArg BitVec.toNat (add_left_cancel heq)
    rw [BitVec.toNat_ofNat, BitVec.toNat_ofNat] at hnat
    omega
  have h0 : u.byte a = v.extractLsb' 0 8 := by simpa using hbyte 0 (by decide) (by decide)
  have hword : u.wordAt a =
      v.extractLsb' 24 8 ++ v.extractLsb' 16 8 ++ b.setWidth 8 ++ v.extractLsb' 0 8 := by
    rw [State.wordAt, hbyte 3 (by decide) (by decide), hbyte 2 (by decide) (by decide), hnew, h0]
  obtain ⟨hts, hread⟩ := canRead_of_memWrite ht
  obtain ⟨hut, _⟩ := canRead_of_memWrite hu
  exact memRead_ok.mpr ⟨(canRead_congr (hut.trans hts)).mpr hread, by rw [loadBytes_four, hword]⟩

/-- Settles O34: bytes and halfwords are parts of the word stored, each aligned as the word is. -/
theorem mixedWidthView : Obligations.MixedWidthView := by
  unfold Obligations.MixedWidthView
  intro s t u a ht hu
  obtain ⟨_, haligned, _⟩ := canRead_of_memWrite ht
  have hbyte (k : Nat) (hk : k < 4) :
      t.memRead (a + BitVec.ofNat 32 k) 1 =
        .ok (((0x11223344#32).extractLsb' (8 * k) 8).setWidth 32) :=
    memRead_part (by decide) ht hk (Nat.mod_one _)
  have hhalf (k : Nat) (hk : k = 0 ∨ k = 2) :
      t.memRead (a + BitVec.ofNat 32 k) 2 =
        .ok (((0x11223344#32).extractLsb' (8 * k) 16).setWidth 32) := by
    refine memRead_part (by decide) ht (by omega) ?_
    rw [BitVec.toNat_add, BitVec.toNat_ofNat]
    omega
  have hzero : a + BitVec.ofNat 32 0 = a := BitVec.add_zero a
  have hbyte0 := hbyte 0 (by decide)
  have hhalf0 := hhalf 0 (.inl rfl)
  rw [hzero] at hbyte0 hhalf0
  exact ⟨hbyte0, hbyte 1 (by decide), hbyte 2 (by decide), hbyte 3 (by decide), hhalf0,
    hhalf 2 (.inr rfl), memRead_of_byte_overwritten ht hu⟩

end Sys2Proof.Proofs
end
